-- ==== Sys2Proof/Word.lean ====
section
/-! DEFINITION. The word types of CCE-1 (spec/00_scope.md R9, R10): 32-bit register words and bytes. -/

namespace Sys2Proof

/-- A byte of a byte string or of the Data RAM (spec/00_scope.md R10). -/
abbrev Byte := BitVec 8

/-- A register word; all register words are 32 bits (spec/00_scope.md R9). -/
abbrev Word := BitVec 32

/-- `zeros n` is the string of `n` zero bytes (spec/00_scope.md R10). -/
def zeros (n : Nat) : List Byte := List.replicate n 0

/-- `MAXBS`, the width of the block registers in bytes, is fixed at 64 (spec/00_scope.md R6). -/
def maxBs : Nat := 64

end Sys2Proof
end

