-- ==== Sys2Proof/Config.lean ====
section
/-! DEFINITION. The configuration record of spec/00_scope.md R6 and the free values the spec leaves open.
The sizes, the transform map and the curve ROM are plain data, so that the state can carry them and every rule can read
them (log entries 1 and 2). The functions the spec keeps opaque are constants without a body (log entries 11, 13, 14). -/

namespace Sys2Proof

/-- The three functions behind a transform descriptor, by name (spec/40_cipher.md R74). `rotXor` and `xorKey` are the
test transforms of spec/95_test_vectors.md section 0.1; `external n` is any other backend, whose functions are free. -/
inductive Algo where
  | rotXor
  | xorKey
  | external (n : Nat)
  deriving DecidableEq, Repr

/-- A transform descriptor `T` (spec/40_cipher.md R74): block size, legal key lengths, stream flag, functions. -/
structure Descriptor where
  bs      : Nat
  keyLens : List Nat
  stream  : Bool
  algo    : Algo
  deriving DecidableEq, Repr

/-- A `CURVE_ROM` record (p, a, b, gx, gy, n, h) (spec/00_scope.md R6). -/
structure Curve where
  p  : Nat
  a  : Nat
  b  : Nat
  gx : Nat
  gy : Nat
  n  : Nat
  h  : Nat
  deriving DecidableEq, Repr

/-- The configuration of spec/00_scope.md R6. `MAXBS` is fixed (`maxBs`); `PRIME_TEST` and `ENTROPY` are the free
constants below. `transforms` and `curveRom` are partial maps: the first entry of a code counts. -/
structure Config where
  nctx       : Nat
  dramSize   : Nat
  bnMax      : Nat
  maxKey     : Nat
  accelAvail : Bool
  transforms : List (Byte × Descriptor)
  curveRom   : List (Byte × Curve)
  deriving DecidableEq, Repr

/-- FREE VALUE (log entry 11): key schedule of external backend `n`, of the key and the IV block; `none` rejects the key
(spec/40_cipher.md R74; spec/93_implementation_defined.md U9). -/
opaque Config.externalKs : Nat → List Byte → List Byte → Option (List Byte)

/-- FREE VALUE (log entry 11): encrypt one block with external backend `n` (spec/40_cipher.md R74). -/
opaque Config.externalEnc : Nat → List Byte → List Byte → List Byte × List Byte

/-- FREE VALUE (log entry 11): decrypt one block with external backend `n` (spec/40_cipher.md R74). -/
opaque Config.externalDec : Nat → List Byte → List Byte → List Byte × List Byte

/-- FREE VALUE (log entry 13): what `PRIME_TEST` answers on an odd composite number (spec/41_rsa.md R111;
spec/93_implementation_defined.md U8). -/
opaque Config.compositeVerdict : Nat → Bool

/-- FREE VALUE (log entry 14): how many zero bytes `ENTROPY` yields, from stream position `pos` on, before the next
nonzero byte (spec/41_rsa.md R100: finitely many, every time). -/
opaque Config.entropyGap : Nat → Nat

/-- FREE VALUE (log entry 14): the byte `ENTROPY` yields at a stream position where it yields a nonzero one
(spec/41_rsa.md R100); the draw reads a raw value 0 as 1, so that every nonzero byte is possible and no other is. -/
opaque Config.entropyByte : Nat → Byte

/-- The configuration of `State.reset` (log entry 2): the default sizes of spec/00_scope.md R6, and the fixtures of
spec/95_test_vectors.md sections 0.1 and 0.2 (DESIGN CHOICE). No rule depends on it. -/
def Config.default : Config where
  nctx := 4
  dramSize := 4096
  bnMax := 512
  maxKey := 256
  accelAvail := false
  transforms :=
    [ (0xF0, { bs := 8,  keyLens := [8],  stream := false, algo := .rotXor })
    , (0xF1, { bs := 16, keyLens := [16], stream := false, algo := .rotXor })
    , (0xF2, { bs := 4,  keyLens := [4],  stream := true,  algo := .xorKey }) ]
  curveRom := [ (0xE0, { p := 23, a := 1, b := 1, gx := 3, gy := 10, n := 28, h := 1 }) ]

end Sys2Proof
end

