-- ==== Sys2Proof/Syntax.lean ====
section
/-! DEFINITION. The commands of CCE-1, one constructor per row of spec/opcode_table.json (spec/30_encoding.md R66).
A command that uses the selector S carries it as a number; `Instr.wf` (WellFormed.lean) bounds it to the 4 bits of R64. -/

namespace Sys2Proof

inductive Instr where
  /-- 0x01, context number (spec/40_cipher.md R82) -/
  | cipherInit (ctx : Nat)
  /-- 0x02, context number (spec/40_cipher.md R84) -/
  | cipherUpdate (ctx : Nat)
  /-- 0x03, context number (spec/40_cipher.md R85) -/
  | cipherFinal (ctx : Nat)
  /-- 0x04, context number (spec/40_cipher.md R86) -/
  | cipherRelease (ctx : Nat)
  /-- 0x05, context number (spec/40_cipher.md R87) -/
  | cipherReadiv (ctx : Nat)
  /-- 0x10 (spec/41_rsa.md R94) -/
  | rsaLoadcomp
  /-- 0x11 (spec/41_rsa.md R95) -/
  | rsaClearkey
  /-- 0x12 (spec/41_rsa.md R98) -/
  | rsaPublic
  /-- 0x13 (spec/41_rsa.md R99) -/
  | rsaPrivate
  /-- 0x14 (spec/41_rsa.md R103) -/
  | rsaPad1
  /-- 0x15 (spec/41_rsa.md R104) -/
  | rsaPad2
  /-- 0x16 (spec/41_rsa.md R105) -/
  | rsaUnpad
  /-- 0x17, padding selector (spec/41_rsa.md R107) -/
  | rsaPubenc (pad : Nat)
  /-- 0x18, padding selector (spec/41_rsa.md R108) -/
  | rsaPrivdec (pad : Nat)
  /-- 0x19, padding selector (spec/41_rsa.md R109) -/
  | rsaPrivenc (pad : Nat)
  /-- 0x1A, padding selector (spec/41_rsa.md R110) -/
  | rsaPubdec (pad : Nat)
  /-- 0x1B (spec/41_rsa.md R112) -/
  | rsaCheckkey
  /-- 0x20 (spec/42_ec.md R116) -/
  | ecLoadcomp
  /-- 0x21 (spec/42_ec.md R117) -/
  | ecSetcurve
  /-- 0x22, conversion form (spec/42_ec.md R118) -/
  | ecSetform (form : Nat)
  /-- 0x23 (spec/42_ec.md R119) -/
  | ecCleargroup
  /-- 0x24 (spec/42_ec.md R120) -/
  | ecCheckgroup
  /-- 0x25 (spec/42_ec.md R121) -/
  | ecPtSetxy
  /-- 0x26 (spec/42_ec.md R122) -/
  | ecPtSetinf
  /-- 0x27 (spec/42_ec.md R123) -/
  | ecPtCheck
  /-- 0x28 (spec/42_ec.md R124) -/
  | ecPtEncode
  /-- 0x29 (spec/42_ec.md R125) -/
  | ecPtDecode
  deriving DecidableEq, Repr

end Sys2Proof
end

