-- ==== Sys2Proof/WellFormed.lean ====
section
/-! DEFINITION. What a command and a configuration must satisfy to be one the spec allows. -/

namespace Sys2Proof

/-- The selector S of a command that uses one (spec/30_encoding.md R64, R66); 0 for the others, which require S = 0. -/
def Instr.selector : Instr → Nat
  | .cipherInit ctx => ctx
  | .cipherUpdate ctx => ctx
  | .cipherFinal ctx => ctx
  | .cipherRelease ctx => ctx
  | .cipherReadiv ctx => ctx
  | .rsaPubenc pad => pad
  | .rsaPrivdec pad => pad
  | .rsaPrivenc pad => pad
  | .rsaPubdec pad => pad
  | .ecSetform form => form
  | .rsaLoadcomp | .rsaClearkey | .rsaPublic | .rsaPrivate | .rsaPad1 | .rsaPad2 | .rsaUnpad | .rsaCheckkey
  | .ecLoadcomp | .ecSetcurve | .ecCleargroup | .ecCheckgroup | .ecPtSetxy | .ecPtSetinf | .ecPtCheck
  | .ecPtEncode | .ecPtDecode => 0

/-- S is a 4-bit unsigned value, 0..15 (spec/30_encoding.md R64, R65). -/
abbrev Instr.wf (i : Instr) : Prop := i.selector < 16

/-- Block sizes are 1..64 (spec/40_cipher.md R74). -/
abbrev Descriptor.wf (t : Descriptor) : Prop := 1 ≤ t.bs ∧ t.bs ≤ maxBs

/-- A ROM entry has EP ≥ 3, a generator that satisfies the curve congruence, and values that fit the datapath
(spec/42_ec.md R117, R127). -/
abbrev Curve.wf (bnMax : Nat) (c : Curve) : Prop :=
  3 ≤ c.p ∧ c.gy ^ 2 % c.p = (c.gx ^ 3 + c.a * c.gx + c.b) % c.p ∧
  ∀ v ∈ [c.p, c.a, c.b, c.gx, c.gy, c.n, c.h], v < 256 ^ bnMax

/-- The legal values of the configuration parameters (spec/00_scope.md R6). -/
abbrev Config.legal (c : Config) : Prop :=
  (1 ≤ c.nctx ∧ c.nctx ≤ 16) ∧
  (c.dramSize % 4 = 0 ∧ 64 ≤ c.dramSize ∧ c.dramSize ≤ 16384) ∧
  (1 ≤ c.bnMax ∧ c.bnMax ≤ 512) ∧
  (1 ≤ c.maxKey ∧ c.maxKey ≤ 256) ∧
  (∀ t ∈ c.transforms, t.2.wf) ∧
  (∀ r ∈ c.curveRom, r.2.wf c.bnMax)

end Sys2Proof
end

