-- ==== Sys2Proof/Decode.lean ====
section
/-! DEFINITION. The decoder and the encoder of command words (spec/30_encoding.md R64 to R70). -/

namespace Sys2Proof

/-- Why a word is no command, in the order of the checks of spec/30_encoding.md R68. -/
inductive Illegal where
  /-- `w[31:12] ≠ 0` -/
  | reservedBits
  /-- OP is not in the table of R66 -/
  | unassignedOp
  /-- S ≠ 0 for a command that does not use S -/
  | unusedSelector
  deriving DecidableEq, Repr

/-- OP is `w[7:0]` (spec/30_encoding.md R64). -/
def wordOp (w : Word) : Byte := w.extractLsb' 0 8

/-- S is `w[11:8]`, zero-extended (spec/30_encoding.md R64, R65). -/
def wordSel (w : Word) : BitVec 4 := w.extractLsb' 8 4

/-- RES is `w[31:12]` (spec/30_encoding.md R64). -/
def wordRes (w : Word) : BitVec 20 := w.extractLsb' 12 20

/-- A command that requires S = 0 (spec/30_encoding.md R66, column "S used" = no). -/
def noSel (i : Instr) (s : Nat) : Except Illegal Instr :=
  if s ≠ 0 then .error .unusedSelector else .ok i

/-- The opcode map of spec/30_encoding.md R66, of OP and S. -/
def decodeOp (op s : Nat) : Except Illegal Instr :=
  match op with
  | 0x01 => .ok (.cipherInit s)
  | 0x02 => .ok (.cipherUpdate s)
  | 0x03 => .ok (.cipherFinal s)
  | 0x04 => .ok (.cipherRelease s)
  | 0x05 => .ok (.cipherReadiv s)
  | 0x10 => noSel .rsaLoadcomp s
  | 0x11 => noSel .rsaClearkey s
  | 0x12 => noSel .rsaPublic s
  | 0x13 => noSel .rsaPrivate s
  | 0x14 => noSel .rsaPad1 s
  | 0x15 => noSel .rsaPad2 s
  | 0x16 => noSel .rsaUnpad s
  | 0x17 => .ok (.rsaPubenc s)
  | 0x18 => .ok (.rsaPrivdec s)
  | 0x19 => .ok (.rsaPrivenc s)
  | 0x1A => .ok (.rsaPubdec s)
  | 0x1B => noSel .rsaCheckkey s
  | 0x20 => noSel .ecLoadcomp s
  | 0x21 => noSel .ecSetcurve s
  | 0x22 => .ok (.ecSetform s)
  | 0x23 => noSel .ecCleargroup s
  | 0x24 => noSel .ecCheckgroup s
  | 0x25 => noSel .ecPtSetxy s
  | 0x26 => noSel .ecPtSetinf s
  | 0x27 => noSel .ecPtCheck s
  | 0x28 => noSel .ecPtEncode s
  | 0x29 => noSel .ecPtDecode s
  | _ => .error .unassignedOp

/-- The decoder, its checks in the order of spec/30_encoding.md R68. -/
def decode (w : Word) : Except Illegal Instr :=
  if wordRes w ≠ 0 then .error .reservedBits
  else decodeOp (wordOp w).toNat (wordSel w).toNat

/-- The opcode of a command (spec/30_encoding.md R66). -/
def Instr.opcode : Instr → Byte
  | .cipherInit _ => 0x01
  | .cipherUpdate _ => 0x02
  | .cipherFinal _ => 0x03
  | .cipherRelease _ => 0x04
  | .cipherReadiv _ => 0x05
  | .rsaLoadcomp => 0x10
  | .rsaClearkey => 0x11
  | .rsaPublic => 0x12
  | .rsaPrivate => 0x13
  | .rsaPad1 => 0x14
  | .rsaPad2 => 0x15
  | .rsaUnpad => 0x16
  | .rsaPubenc _ => 0x17
  | .rsaPrivdec _ => 0x18
  | .rsaPrivenc _ => 0x19
  | .rsaPubdec _ => 0x1A
  | .rsaCheckkey => 0x1B
  | .ecLoadcomp => 0x20
  | .ecSetcurve => 0x21
  | .ecSetform _ => 0x22
  | .ecCleargroup => 0x23
  | .ecCheckgroup => 0x24
  | .ecPtSetxy => 0x25
  | .ecPtSetinf => 0x26
  | .ecPtCheck => 0x27
  | .ecPtEncode => 0x28
  | .ecPtDecode => 0x29

/-- The word of a well-formed command: OP in [7:0], S in [11:8], RES = 0 (spec/30_encoding.md R64). -/
def encode (i : Instr) : Word := BitVec.ofNat 32 (i.selector * 256 + i.opcode.toNat)

/-- The host's view of the decoder: the instruction read from a table word of `nbits` bits, the bits above being 0.
Every command is one 32-bit word (spec/30_encoding.md R71); a register write has no byte order (R64). -/
def decodeTableWord (nbits w : Nat) : Option Instr :=
  match decode (BitVec.ofNat 32 (w % 2 ^ nbits)) with
  | .ok i => some i
  | .error _ => none

end Sys2Proof
end

