-- ==== Sys2Proof/Machine/State.lean ====
section
/-! DEFINITION. The state of CCE-1 (spec/10_state.md R16 to R43) as plain data, and the state after power-on reset.
BUSY is not stored: it is whether the pending-command latch is full (R40; log entry 7). The last four fields are the
model's own (log entries 1, 5, 14, 17). -/

namespace Sys2Proof.Machine

/-- The chaining modes (spec/40_cipher.md R76). -/
inductive Mode where
  | ecb | cbc | pcbc | cfb | ofb | ctr | gcm
  deriving DecidableEq, Repr

/-- The status codes of spec/60_exceptions.md R129. -/
inductive Code where
  | ok | invalidKey | invalidParameters | bufferTooSmall | badPadding | valueTooLarge | outOfMemory
  | unsupportedPadding | primeCheckFailed | keyInconsistent | illegalCommand
  deriving DecidableEq, Repr

/-- The operand registers ARG0..ARG7 (spec/10_state.md R20). -/
abbrev Args := Vector Word 8

/-- The Data RAM (spec/20_memory.md R46): the bytes that differ from `Memory.unlisted`, by strictly rising offset. -/
structure Memory where
  cells : List Host.Cell
  deriving DecidableEq, Repr

/-- What an offset without a cell reads as. The power-on contents are unspecified (spec/20_memory.md R46); DESIGN CHOICE
zero, unsafe (log entry 3). -/
def Memory.unlisted : Byte := 0

/-- The four bits of IRQ_STATUS (spec/10_state.md R28). -/
structure Irq where
  done    : Bool
  err     : Bool
  overrun : Bool
  ramlock : Bool
  deriving DecidableEq, Repr

/-- A cipher context slot (spec/10_state.md R32). `buf`, `mod1`, `mod2` are MAXBS bytes. -/
structure Slot where
  valid : Bool
  ended : Bool
  dir   : Bool
  pad   : Bool
  mode  : Mode
  alg   : Byte
  bs    : Nat
  fill  : Nat
  buf   : List Byte
  mod1  : List Byte
  mod2  : List Byte
  ts    : Option (List Byte)
  deriving DecidableEq, Repr

/-- The reset value of a slot (spec/10_state.md R43). -/
def Slot.cleared : Slot where
  valid := false
  ended := false
  dir := false
  pad := false
  mode := .ecb
  alg := 0
  bs := 0
  fill := 0
  buf := zeros maxBs
  mod1 := zeros maxBs
  mod2 := zeros maxBs
  ts := none

/-- The RSA key register (spec/10_state.md R35): `none` is an absent component. -/
structure RsaKey where
  n    : Option Nat
  e    : Option Nat
  d    : Option Nat
  p    : Option Nat
  q    : Option Nat
  dmp  : Option Nat
  dmq  : Option Nat
  coef : Option Nat
  deriving DecidableEq, Repr

/-- Every presence bit 0 (spec/10_state.md R43). -/
def RsaKey.empty : RsaKey := ⟨none, none, none, none, none, none, none, none⟩

/-- The EC group register (spec/10_state.md R37): `none` is an absent component. -/
structure Group where
  ep      : Option Nat
  ea      : Option Nat
  eb      : Option Nat
  gx      : Option Nat
  gy      : Option Nat
  en      : Option Nat
  eh      : Option Nat
  form    : Bool
  named   : Bool
  curveId : Byte
  deriving DecidableEq, Repr

/-- Every presence bit 0, FORM = NAMED = CURVE_ID = 0 (spec/10_state.md R43). -/
def Group.empty : Group := ⟨none, none, none, none, none, none, none, false, false, 0⟩

/-- The EC point register (spec/10_state.md R38). -/
structure Point where
  valid : Bool
  inf   : Bool
  x     : Nat
  y     : Nat
  deriving DecidableEq, Repr

/-- PT_VALID = PT_INF = 0, PX = PY = 0 (spec/10_state.md R43). -/
def Point.empty : Point := ⟨false, false, 0, 0⟩

/-- The backend latch (spec/10_state.md R34). -/
structure Backend where
  locked   : Bool
  accelSel : Bool
  deriving DecidableEq, Repr

/-- A full pending-command latch: the accepted word and the ARG snapshot (spec/10_state.md R40). -/
structure Pending where
  word : Word
  args : Args
  deriving DecidableEq, Repr

/-- The access widths of the host bus (spec/20_memory.md R47). -/
inductive Width where
  | w8 | w16 | w32
  deriving DecidableEq, Repr

/-- A host bus transaction (spec/20_memory.md R47). -/
inductive BusOp where
  | read  (off : Nat) (w : Width)
  | write (off : Nat) (w : Width) (data : Word)
  deriving DecidableEq, Repr

/-- What the bus answers (spec/20_memory.md R47, R51). -/
inductive BusReply where
  | data (v : Word)
  | ok
  | busError
  deriving DecidableEq, Repr

/-- One event: a host step, a turn of the engine, or a power-on reset that leaves `ram` in the Data RAM
(spec/00_scope.md R8; spec/70_reset_and_hazards.md R150; log entries 4 and 5). -/
inductive Input where
  | bus     (op : BusOp)
  | engine
  | powerOn (ram : List Byte)
  deriving DecidableEq, Repr

/-- The position in the parameter stream `ENTROPY` (spec/41_rsa.md R100; log entry 14): the draws fixed from outside that
are still to come, and how many draws have been taken. -/
structure Entropy where
  queue : List Byte
  pos   : Nat
  deriving DecidableEq, Repr

/-- Why a meaning stops. No step of the machine raises one: commands report status codes (spec/60_exceptions.md R128). -/
inductive Fault where
  /-- Raised by every meaning when the pending-command latch is empty. The engine's step is enabled only while BUSY = 1
  (spec/60_exceptions.md R130), so no `step` raises it. Safe (log entry 8). -/
  | engineIdle
  deriving DecidableEq, Repr

/-- Why a command has no meaning here. -/
inductive Refusal where
  /-- Raised by an arm of `exec` whose command is not modelled. Safe; no arm raises it now. -/
  | notModelled (mnemonic : String)
  deriving DecidableEq, Repr

/-- The state: spec/10_state.md R16's list, then the model's own fields. -/
structure State where
  args         : Args
  irqEn        : Bool
  lastCode     : Code
  lastOp       : Byte
  irq          : Irq
  bytesWritten : Word
  result       : Word
  slots        : List Slot
  rsa          : RsaKey
  group        : Group
  point        : Point
  backend      : Backend
  pending      : Option Pending
  ram          : Memory
  cfg          : Config
  entropy      : Entropy
  inputs       : List Input
  reply        : Option BusReply
  deriving DecidableEq, Repr

/-- STATUS.BUSY: 1 while the pending-command latch is full (spec/10_state.md R27, R40; log entry 7). -/
def State.busy (s : State) : Bool := s.pending.isSome

/-- The state after power-on reset (spec/10_state.md R43) in the configuration `cfg`, with Data RAM `ram`. -/
def State.resetWith (cfg : Config) (ram : Memory) : State where
  args := Vector.replicate 8 0
  irqEn := false
  lastCode := .ok
  lastOp := 0
  irq := ⟨false, false, false, false⟩
  bytesWritten := 0
  result := 0
  slots := List.replicate cfg.nctx Slot.cleared
  rsa := .empty
  group := .empty
  point := .empty
  backend := ⟨false, false⟩
  pending := none
  ram := ram
  cfg := cfg
  entropy := ⟨[], 0⟩
  inputs := []
  reply := none

/-- The machine right after power-on reset (spec/10_state.md R43), in the configuration of log entry 2 and with the Data
RAM contents of log entry 3. -/
def State.reset : State := State.resetWith Config.default ⟨[]⟩

end Sys2Proof.Machine
end

