-- ==== Sys2Proof/Machine/Ops.lean ====
section
/-! DEFINITION. The shared operations: the Data RAM, the context slots, the entropy stream, completing a command
(CCE-1's form of taking an exception: spec/60_exceptions.md R130, R131, R140), and the two resets. -/

namespace Sys2Proof.Machine

/-! ## Data RAM -/

/-- The byte listed for an offset, or what an unlisted offset reads as. -/
def readCells : List Host.Cell → Nat → Byte
  | [], _ => Memory.unlisted
  | (k, v) :: rest, a => if k = a then v else readCells rest a

/-- Store one byte and keep the list canonical. -/
def writeCells : List Host.Cell → Nat → Byte → List Host.Cell
  | [], a, b => if b = Memory.unlisted then [] else [(a, b)]
  | (k, v) :: rest, a, b =>
    if a < k then (if b = Memory.unlisted then (k, v) :: rest else (a, b) :: (k, v) :: rest)
    else if a = k then (if b = Memory.unlisted then rest else (a, b) :: rest)
    else (k, v) :: writeCells rest a b

/-- The byte at Data RAM offset `a` (spec/20_memory.md R46). -/
def Memory.read (m : Memory) (a : Nat) : Byte := readCells m.cells a

/-- Write the byte at Data RAM offset `a`. -/
def Memory.write (m : Memory) (a : Nat) (b : Byte) : Memory := ⟨writeCells m.cells a b⟩

/-- `MemRead(a, n)`: the bytes `[a, a+n)` (spec/00_scope.md R12). -/
def Memory.readBytes (m : Memory) (a : Nat) : Nat → List Byte
  | 0 => []
  | n + 1 => m.read a :: m.readBytes (a + 1) n

/-- `MemWrite(a, |bs|, bs)` applied: byte `i` of `bs` goes to offset `a + i` (spec/00_scope.md R12). -/
def Memory.writeBytes (m : Memory) (a : Nat) : List Byte → Memory
  | [] => m
  | b :: bs => (m.write a b).writeBytes (a + 1) bs

/-- The offsets of a cell list rise strictly from `lo` on, stay below `size`, and no cell holds the unlisted value. -/
def canonicalCells (size : Nat) : Nat → List Host.Cell → Bool
  | _, [] => true
  | lo, (k, v) :: rest =>
    decide (lo ≤ k) && decide (k < size) && decide (v ≠ Memory.unlisted) && canonicalCells size (k + 1) rest

/-- The canonical form of a Data RAM of `size` bytes: equal contents are equal data. -/
def Memory.wf (size : Nat) (m : Memory) : Bool := canonicalCells size 0 m.cells

/-! ## Context slots -/

/-- Slot `i` (spec/10_state.md R32). -/
def State.slot (s : State) (i : Nat) : Slot := s.slots.getD i Slot.cleared

/-- Replace slot `i`. -/
def State.setSlot (s : State) (i : Nat) (c : Slot) : State := { s with slots := s.slots.set i c }

/-- The first CIPHER_INIT after power-on makes the one-time selection (spec/10_state.md R34; spec/40_cipher.md R82). -/
def State.latchBackend (s : State) : State :=
  if s.backend.locked then s else { s with backend := ⟨true, s.cfg.accelAvail⟩ }

/-! ## ENTROPY -/

/-- Draw from the fixed part of the stream until a nonzero byte comes (spec/41_rsa.md R101); `none` when it runs out. -/
def drawQueue : List Byte → Nat → Option (Byte × Entropy)
  | [], _ => none
  | b :: q, pos => if b = 0 then drawQueue q (pos + 1) else some (b, ⟨q, pos + 1⟩)

/-- The stream position of the next free nonzero byte, from position `pos` on. -/
def nextFree (pos : Nat) : Nat := pos + Config.entropyGap pos

/-- A nonzero byte as the stream yields it: a raw 0 stands for 1 (log entry 14). -/
def nonzero (b : Byte) : Byte := if b = 0 then 1 else b

/-- One nonzero draw: zero draws are discarded and drawn again (spec/41_rsa.md R101). -/
def Entropy.draw (e : Entropy) : Byte × Entropy :=
  match drawQueue e.queue e.pos with
  | some r => r
  | none =>
    let at' := nextFree (e.pos + e.queue.length)
    (nonzero (Config.entropyByte at'), ⟨[], at' + 1⟩)

/-- `n` nonzero draws in order, and where the stream then stands. -/
def Entropy.drawMany : Nat → Entropy → List Byte × Entropy
  | 0, e => ([], e)
  | n + 1, e =>
    let (b, e1) := e.draw
    let (bs, e2) := Entropy.drawMany n e1
    (b :: bs, e2)

/-! ## Completing a command -/

/-- How a command's rule ends: with OK, having updated the engine state, with output bytes for `dst` and a RESULT; or
with a status code, leaving the state changes that survive (spec/00_scope.md R13; spec/60_exceptions.md R131). -/
inductive CmdResult where
  | ok    (s : State) (dst : Nat) (out : List Byte) (res : Word)
  | raise (code : Code) (s : State)

/-- The rest of the engine's step (spec/60_exceptions.md R130): apply the staged bytes, set the completion registers,
empty the latch. -/
def complete (p : Pending) : CmdResult → State
  | .ok s dst out res =>
    { s with
      ram := s.ram.writeBytes dst out
      bytesWritten := BitVec.ofNat 32 out.length
      result := res
      lastCode := .ok
      lastOp := wordOp p.word
      irq := { s.irq with done := true }
      pending := none }
  | .raise code s =>
    { s with
      bytesWritten := 0
      result := 0
      lastCode := code
      lastOp := wordOp p.word
      irq := { s.irq with done := true, err := true }
      pending := none }

/-- Run a command's rule on the ARG snapshot and complete it. It is enabled only while BUSY = 1
(spec/60_exceptions.md R130; log entry 8). -/
def runCommand (s : State) (rule : Args → CmdResult) : Host.Outcome State Fault Refusal :=
  match s.pending with
  | none => .fault .engineIdle
  | some p => .next (complete p (rule p.args))

/-- An illegal command word completes with IllegalCommand and changes no other state (spec/60_exceptions.md R132). -/
def illegalCommand (s : State) : Host.Outcome State Fault Refusal :=
  runCommand s fun _ => .raise .illegalCommand s

/-- One numbered check of a rule: raise `code` unless it passes (spec/60_exceptions.md R133). -/
def require (passes : Bool) (code : Code) : Except Code Unit :=
  if passes then .ok () else .error code

/-- The value of a component that must be present. -/
def present (v : Option Nat) (code : Code) : Except Code Nat :=
  match v with
  | some n => .ok n
  | none => .error code

/-! ## Resets -/

/-- Soft reset (spec/70_reset_and_hazards.md R151; spec/10_state.md R43): everything but BACKEND and the Data RAM. -/
def State.softReset (s : State) : State :=
  { s with
    args := Vector.replicate 8 0
    irqEn := false
    lastCode := .ok
    lastOp := 0
    irq := ⟨false, false, false, false⟩
    bytesWritten := 0
    result := 0
    slots := List.replicate s.cfg.nctx Slot.cleared
    rsa := .empty
    group := .empty
    point := .empty
    pending := none }

/-- Power-on reset (spec/70_reset_and_hazards.md R150): as soft reset, and BACKEND cleared, and the Data RAM holds `ram`
(log entry 4); the environment (configuration, stream position, events to come, last reply) goes on. -/
def State.powerOn (s : State) (ram : List Byte) : State :=
  { s.softReset with
    backend := ⟨false, false⟩
    ram := (Memory.mk []).writeBytes 0 (ram.take s.cfg.dramSize) }

end Sys2Proof.Machine
end

