-- ==== Sys2Proof/Machine/Operands.lean ====
section
/-! DEFINITION. Numbers and byte strings (spec/00_scope.md R10, R11), and every operand a command reads from its ARG
snapshot (spec/30_encoding.md R65, R67). -/

namespace Sys2Proof.Machine

/-! ## Byte strings and numbers -/

/-- `A ⊕ B` (spec/00_scope.md R10). -/
def xorBytes (a b : List Byte) : List Byte := List.zipWith (· ^^^ ·) a b

/-- `OS2I(B)`: the big-endian value (spec/00_scope.md R11). -/
def os2i (bs : List Byte) : Nat := bs.foldl (fun acc b => acc * 256 + b.toNat) 0

/-- `I2OS(v, k)`: the `k`-byte big-endian string (spec/00_scope.md R11). -/
def i2os (v : Nat) : Nat → List Byte
  | 0 => []
  | k + 1 => i2os (v / 256) k ++ [BitVec.ofNat 8 v]

/-- `bytelen(v)`: the least `k` with `v < 256^k` (spec/00_scope.md R11). -/
def bytelen (v : Nat) : Nat := if v = 0 then 0 else v.log2 / 8 + 1

/-- The first `n` bytes, with zeros after them when there are fewer. -/
def fit (n : Nat) (bs : List Byte) : List Byte := bs.take n ++ zeros (n - bs.length)

/-- `buf[0..|new|) ← new`, the bytes after it unchanged. -/
def overlay (new buf : List Byte) : List Byte := new ++ buf.drop new.length

/-! ## Operand registers (spec/30_encoding.md R67) -/

/-- ARG0: source address. -/
def srcAddr (x : Args) : Nat := x[0].toNat
/-- ARG1: source length. -/
def srcLen (x : Args) : Nat := x[1].toNat
/-- ARG2: destination address. -/
def dstAddr (x : Args) : Nat := x[2].toNat
/-- ARG3: destination capacity. -/
def dstCap (x : Args) : Nat := x[3].toNat
/-- ARG4: the per-command value (component index, output length, curve id). -/
def argVal (x : Args) : Nat := x[4].toNat
/-- ARG5: second source address. -/
def src2Addr (x : Args) : Nat := x[5].toNat
/-- ARG6: second source length. -/
def src2Len (x : Args) : Nat := x[6].toNat

/-- CFG.ALG (spec/40_cipher.md R80). -/
def cfgAlg (x : Args) : Byte := x[4].extractLsb' 0 8
/-- CFG.MODE. -/
def cfgMode (x : Args) : BitVec 4 := x[4].extractLsb' 8 4
/-- CFG.DIR. -/
def cfgDir (x : Args) : Bool := x[4].getLsbD 12
/-- CFG.PAD_EN. -/
def cfgPadEn (x : Args) : Bool := x[4].getLsbD 13
/-- CFG's reserved bits. -/
def cfgReserved (x : Args) : BitVec 18 := x[4].extractLsb' 14 18

/-! ## Data RAM regions -/

/-- `region(addr, len)`: `addr + len ≤ DRAM_SIZE`, without wrapping (spec/20_memory.md R54). -/
def region (s : State) (addr len : Nat) : Bool := addr + len ≤ s.cfg.dramSize

/-- The source region (ARG0, ARG1) is inside the Data RAM. -/
def srcOk (s : State) (x : Args) : Bool := region s (srcAddr x) (srcLen x)

/-- The destination region (ARG2, ARG3) is inside the Data RAM. -/
def dstOk (s : State) (x : Args) : Bool := region s (dstAddr x) (dstCap x)

/-- The bytes of the source region, as they stood at acceptance (spec/20_memory.md R55). -/
def srcBytes (s : State) (x : Args) : List Byte := s.ram.readBytes (srcAddr x) (srcLen x)

/-- `ReadInt(addr, len)` (spec/41_rsa.md R93): OutOfMemory for an operand wider than the datapath. -/
def readInt (s : State) (addr len : Nat) : Except Code Nat := do
  require (len ≤ s.cfg.bnMax) .outOfMemory
  return os2i (s.ram.readBytes addr len)

/-! ## The shapes of a rule's end -/

/-- A rule that only writes output bytes, at the destination address: the rest of the state stays. -/
def emit (s : State) (x : Args) : Except Code (List Byte) → CmdResult
  | .ok out => .ok s (dstAddr x) out 0
  | .error code => .raise code s

/-- A rule that only updates engine state: it writes no byte, and RESULT is 0. -/
def update (s : State) : Except Code State → CmdResult
  | .ok s' => .ok s' 0 [] 0
  | .error code => .raise code s

/-- A rule that only sets RESULT. -/
def report (s : State) : Except Code Word → CmdResult
  | .ok res => .ok s 0 [] res
  | .error code => .raise code s

end Sys2Proof.Machine
end

