-- ==== Sys2Proof/Machine/Flags.lean ====
section
/-! DEFINITION. The readable registers as words: status flags, context status, key and group status, the interrupt
output (spec/10_state.md R23 to R39; spec/60_exceptions.md R129, R139). Fields stand from bit 31 down. -/

namespace Sys2Proof.Machine

/-- The number of a status code (spec/60_exceptions.md R129). -/
def Code.num : Code → Byte
  | .ok => 0x00
  | .invalidKey => 0x01
  | .invalidParameters => 0x02
  | .bufferTooSmall => 0x03
  | .badPadding => 0x04
  | .valueTooLarge => 0x05
  | .outOfMemory => 0x06
  | .unsupportedPadding => 0x07
  | .primeCheckFailed => 0x08
  | .keyInconsistent => 0x09
  | .illegalCommand => 0x0A

/-- The code of a chaining mode (spec/40_cipher.md R76). -/
def Mode.num : Mode → BitVec 4
  | .ecb => 0
  | .cbc => 1
  | .pcbc => 2
  | .cfb => 3
  | .ofb => 4
  | .ctr => 5
  | .gcm => 6

/-- One bit of a word. -/
def bit (b : Bool) : BitVec 1 := BitVec.ofBool b

/-- ID (spec/10_state.md R23). -/
def idWord : Word := 0x43434531

/-- CAPS (spec/10_state.md R24). -/
def capsWord (c : Config) : Word :=
  0#13 ++ bit c.accelAvail ++ bit true ++ bit true ++ BitVec.ofNat 8 maxBs ++ 0#3 ++ BitVec.ofNat 5 c.nctx

/-- STATUS (spec/10_state.md R27). -/
def statusWord (s : State) : Word :=
  0#8 ++ s.lastOp ++ s.lastCode.num ++ 0#7 ++ bit s.busy

/-- IRQ_STATUS (spec/10_state.md R28). -/
def irqWord (i : Irq) : Word := 0#28 ++ bit i.ramlock ++ bit i.overrun ++ bit i.err ++ bit i.done

/-- CTRL (spec/10_state.md R26): SOFT_RESET reads 0. -/
def ctrlWord (s : State) : Word := 0#31 ++ bit s.irqEn

/-- BACKEND (spec/10_state.md R34). -/
def backendWord (b : Backend) : Word := 0#30 ++ bit b.accelSel ++ bit b.locked

/-- CTXSTAT of a slot (spec/10_state.md R33). -/
def slotWord (c : Slot) : Word :=
  0#1 ++ BitVec.ofNat 7 c.bs ++ 0#1 ++ BitVec.ofNat 7 c.fill ++ c.alg ++ c.mode.num
    ++ bit c.pad ++ bit c.dir ++ bit c.ended ++ bit c.valid

/-- CTXSTATi: 0 for `i ≥ NCTX` (spec/10_state.md R33). -/
def ctxStatWord (s : State) (i : Nat) : Word := if i < s.cfg.nctx then slotWord (s.slot i) else 0

/-- The CRT quintet is present (spec/10_state.md R36). -/
def RsaKey.crt (k : RsaKey) : Bool :=
  k.p.isSome && k.q.isSome && k.dmp.isSome && k.dmq.isSome && k.coef.isSome

/-- NLEN: `k = bytelen(N)` when N is present, else 0 (spec/10_state.md R36; spec/41_rsa.md R92). -/
def RsaKey.nlen (k : RsaKey) : Nat :=
  match k.n with
  | some n => bytelen n
  | none => 0

/-- RSA_KEYSTAT (spec/10_state.md R36). -/
def keyStatWord (k : RsaKey) : Word :=
  0#6 ++ BitVec.ofNat 10 k.nlen ++ 0#7 ++ bit k.crt
    ++ bit k.coef.isSome ++ bit k.dmq.isSome ++ bit k.dmp.isSome ++ bit k.q.isSome
    ++ bit k.p.isSome ++ bit k.d.isSome ++ bit k.e.isSome ++ bit k.n.isSome

/-- EC_STAT (spec/10_state.md R39). -/
def ecStatWord (g : Group) (p : Point) : Word :=
  0#8 ++ g.curveId ++ 0#5 ++ bit g.named ++ bit p.inf ++ bit p.valid ++ bit g.form
    ++ bit g.eh.isSome ++ bit g.en.isSome ++ bit g.gy.isSome ++ bit g.gx.isSome
    ++ bit g.eb.isSome ++ bit g.ea.isSome ++ bit g.ep.isSome

/-- The interrupt output (spec/60_exceptions.md R139). -/
def State.irqLine (s : State) : Bool :=
  s.irqEn && (s.irq.done || s.irq.err || s.irq.overrun || s.irq.ramlock)

end Sys2Proof.Machine
end

