-- ==== Sys2Proof/Machine/Bus.lean ====
section
/-! DEFINITION. The host bus: register and Data RAM transactions (spec/20_memory.md R44 to R53; spec/10_state.md R17 to
R29; spec/60_exceptions.md R135 to R137). -/

namespace Sys2Proof.Machine

/-- Bytes moved by an access (spec/20_memory.md R47). -/
def Width.bytes : Width → Nat
  | .w8 => 1
  | .w16 => 2
  | .w32 => 4

/-- Where an access goes: a register offset, a Data RAM offset, or nowhere (a bus error). -/
inductive BusTarget where
  | reg (off : Nat)
  | ram (addr : Nat)
  | error
  deriving DecidableEq, Repr

/-- The host offset of the Data RAM (spec/20_memory.md R44). -/
def ramBase : Nat := 0x4000

/-- The address map and the alignment rules (spec/20_memory.md R44, R50, R51). -/
def busTarget (cfg : Config) (off : Nat) (w : Width) : BusTarget :=
  if off < 0x1000 then
    if w = .w32 ∧ off % 4 = 0 then .reg off else .error
  else if ramBase ≤ off ∧ off + w.bytes ≤ ramBase + cfg.dramSize ∧ off % w.bytes = 0 then .ram (off - ramBase)
  else .error

/-- The little-endian value of up to four bytes (spec/20_memory.md R48). -/
def leValue : List Byte → Nat
  | [] => 0
  | b :: bs => b.toNat + 256 * leValue bs

/-- The `n` low bytes of a number, the least significant first (spec/20_memory.md R48). -/
def leBytes (v : Nat) : Nat → List Byte
  | 0 => []
  | n + 1 => BitVec.ofNat 8 v :: leBytes (v / 256) n

/-! ## Registers -/

/-- A register read (spec/10_state.md R17 to R39): no side effect; whatever the table does not list reads 0. -/
def readReg (s : State) (off : Nat) : Word :=
  match off with
  | 0x000 => idWord
  | 0x004 => capsWord s.cfg
  | 0x008 => BitVec.ofNat 32 s.cfg.dramSize
  | 0x00C => BitVec.ofNat 32 s.cfg.bnMax
  | 0x010 => ctrlWord s
  | 0x014 => statusWord s
  | 0x018 => irqWord s.irq
  | 0x020 => s.bytesWritten
  | 0x024 => s.result
  | 0x028 => backendWord s.backend
  | 0x02C => keyStatWord s.rsa
  | 0x030 => ecStatWord s.group s.point
  | _ =>
    if 0x040 ≤ off ∧ off < 0x060 then s.args.getD ((off - 0x040) / 4) 0
    else if 0x080 ≤ off ∧ off < 0x0C0 then ctxStatWord s ((off - 0x080) / 4)
    else 0

/-- A write to CTRL (spec/10_state.md R26; spec/70_reset_and_hazards.md R151). -/
def writeCtrl (s : State) (v : Word) : State :=
  if v.getLsbD 1 then
    if s.busy then { s with irqEn := v.getLsbD 0, irq := { s.irq with overrun := true } }
    else s.softReset
  else { s with irqEn := v.getLsbD 0 }

/-- A write to IRQ_STATUS clears the bits written 1 (spec/10_state.md R28). -/
def writeIrq (s : State) (v : Word) : State :=
  { s with irq :=
    { done := s.irq.done && !v.getLsbD 0
      err := s.irq.err && !v.getLsbD 1
      overrun := s.irq.overrun && !v.getLsbD 2
      ramlock := s.irq.ramlock && !v.getLsbD 3 } }

/-- A write to CMD: accepted when idle, dropped with OVERRUN when busy (spec/10_state.md R29; spec/60_exceptions.md R136). -/
def writeCmd (s : State) (v : Word) : State :=
  if s.busy then { s with irq := { s.irq with overrun := true } }
  else { s with pending := some ⟨v, s.args⟩ }

/-- A register write (spec/10_state.md R18, R19): read-only, reserved and unlisted offsets ignore it. -/
def writeReg (s : State) (off : Nat) (v : Word) : State :=
  match off with
  | 0x010 => writeCtrl s v
  | 0x018 => writeIrq s v
  | 0x01C => writeCmd s v
  | _ =>
    if 0x040 ≤ off ∧ off < 0x060 then { s with args := s.args.setIfInBounds ((off - 0x040) / 4) v }
    else s

/-! ## Data RAM -/

/-- A Data RAM access while busy sets RAMLOCK and does nothing else (spec/20_memory.md R53). -/
def State.ramLocked (s : State) : State := { s with irq := { s.irq with ramlock := true } }

/-- The state and the reply after a host read (spec/20_memory.md R47, R48, R53). -/
def busRead (s : State) (off : Nat) (w : Width) : State × BusReply :=
  match busTarget s.cfg off w with
  | .error => (s, .busError)
  | .reg r => (s, .data (readReg s r))
  | .ram a =>
    if s.busy then (s.ramLocked, .data 0)
    else (s, .data (BitVec.ofNat 32 (leValue (s.ram.readBytes a w.bytes))))

/-- The state and the reply after a host write (spec/20_memory.md R47, R48, R53); a write narrower than 32 bits moves the
low bits of `v` (log entry 19). -/
def busWrite (s : State) (off : Nat) (w : Width) (v : Word) : State × BusReply :=
  match busTarget s.cfg off w with
  | .error => (s, .busError)
  | .reg r => (writeReg s r v, .ok)
  | .ram a =>
    if s.busy then (s.ramLocked, .ok)
    else ({ s with ram := s.ram.writeBytes a (leBytes v.toNat w.bytes) }, .ok)

/-- One host transaction: its effect, and its reply kept for the host (log entry 17). -/
def busStep (s : State) (op : BusOp) : State :=
  let (s', r) := match op with
    | .read off w => busRead s off w
    | .write off w v => busWrite s off w v
  { s' with reply := some r }

end Sys2Proof.Machine
end

