-- ==== Sys2Proof/Machine/Transform.lean ====
section
/-! DEFINITION. The block-transform interface and the chaining modes (spec/40_cipher.md R74 to R81, R83). -/

namespace Sys2Proof.Machine

/-- `rotl8`: rotate a byte string left by one byte (spec/95_test_vectors.md section 0.1). -/
def rotLeft : List Byte → List Byte
  | [] => []
  | b :: bs => bs ++ [b]

/-- `rotr8`: its inverse. -/
def rotRight (bs : List Byte) : List Byte := (rotLeft bs.reverse).reverse

/-- `T.ks(key, ivblk)` (spec/40_cipher.md R74). A block transform ignores the IV block. -/
def transformKs (t : Descriptor) (key iv : List Byte) : Option (List Byte) :=
  match t.algo with
  | .rotXor => some key
  | .xorKey => some key
  | .external n => Config.externalKs n key (if t.stream then iv else zeros t.bs)

/-- The result of a backend's function as R74 allows it: `T.bs` bytes, and a block transform returns `TS` unchanged. -/
def normalised (t : Descriptor) (ts : List Byte) (r : List Byte × List Byte) : List Byte × List Byte :=
  (fit t.bs r.1, if t.stream then r.2 else ts)

/-- `T.enc(ts, b)` (spec/40_cipher.md R74). -/
def transformEnc (t : Descriptor) (ts b : List Byte) : List Byte × List Byte :=
  normalised t ts <|
    match t.algo with
    | .rotXor => (rotLeft (xorBytes b ts), ts)
    | .xorKey => (xorBytes b ts, ts)
    | .external n => Config.externalEnc n ts b

/-- `T.dec(ts, b)` (spec/40_cipher.md R74). -/
def transformDec (t : Descriptor) (ts b : List Byte) : List Byte × List Byte :=
  normalised t ts <|
    match t.algo with
    | .rotXor => (xorBytes (rotRight b) ts, ts)
    | .xorKey => (xorBytes b ts, ts)
    | .external n => Config.externalDec n ts b

/-- The round-trip property of a descriptor, on the transform states `used` that a key schedule gives and encryption leads to.
A block transform decrypts what it encrypted (spec/40_cipher.md R74). A stream transform does so on a partial block too, which
it processes zero-extended (R85), and then stands where the encryption stood: what R90 (a) needs of it (log entry 23). -/
def RoundTrips (t : Descriptor) (used : List Byte → Prop) : Prop :=
  (∀ key iv ts, t.keyLens.contains key.length = true → transformKs t key iv = some ts → used ts) ∧
  (∀ ts b, used ts → b.length = t.bs → used (transformEnc t ts b).2) ∧
  (∀ ts part, used ts → part.length = t.bs ∨ (t.stream = true ∧ part.length ≤ t.bs) →
    let rest := zeros (t.bs - part.length)
    let sent := transformEnc t ts (part ++ rest)
    let back := transformDec t ts (sent.1.take part.length ++ rest)
    back.1.take part.length = part ∧ (part.length = t.bs → back.2 = sent.2))

/-- `TRANSFORMS(alg)`, when the code is mapped (spec/00_scope.md R6, R7). -/
def lookupTransform (cfg : Config) (alg : Byte) : Option Descriptor :=
  (cfg.transforms.find? fun t => t.1 == alg).map (·.2)

/-- The transform attached to a slot. A valid slot's code is always mapped; for any other the functions are free
(log entry 18). -/
def slotTransform (cfg : Config) (c : Slot) : Descriptor :=
  (lookupTransform cfg c.alg).getD { bs := c.bs, keyLens := [], stream := false, algo := .external 0 }

/-! ## Modes -/

/-- The mode of a MODE code; 7..15 are reserved (spec/40_cipher.md R76). -/
def modeOf (code : BitVec 4) : Option Mode :=
  match code.toNat with
  | 0 => some .ecb
  | 1 => some .cbc
  | 2 => some .pcbc
  | 3 => some .cfb
  | 4 => some .ofb
  | 5 => some .ctr
  | 6 => some .gcm
  | _ => none

/-- BLOCK_STYLE = ECB, CBC, PCBC (spec/40_cipher.md R76). -/
def Mode.blockStyle : Mode → Bool
  | .ecb | .cbc | .pcbc => true
  | .cfb | .ofb | .ctr | .gcm => false

/-- REQUIRES_IV = every mode but ECB (spec/40_cipher.md R76). -/
def Mode.requiresIv : Mode → Bool
  | .ecb => false
  | .cbc | .pcbc | .cfb | .ofb | .ctr | .gcm => true

/-- The effective padding flag (spec/40_cipher.md R81). -/
def effectivePad (t : Descriptor) (mode : Mode) (padEn : Bool) : Bool :=
  if mode.blockStyle && !t.stream then padEn else false

/-- `CtrInc(R, bs)`: the last `min(8, bs)` bytes count, big-endian, and wrap without a carry out
(spec/40_cipher.md R78). -/
def ctrInc (r : List Byte) (bs : Nat) : List Byte :=
  let w := min 8 bs
  r.take (bs - w) ++ i2os ((os2i (r.drop (bs - w)) + 1) % 256 ^ w) w

/-- What one block gives: the output block, the new feedback register, the new transform state. -/
structure BlockOut where
  y  : List Byte
  r  : List Byte
  ts : List Byte
  deriving DecidableEq, Repr

/-- `BlockStep` (spec/40_cipher.md R77; R79 for GCM). `dir` is 0 for encrypt. -/
def blockStep (t : Descriptor) (mode : Mode) (dir : Bool) (bs : Nat) (r ts b : List Byte) : BlockOut :=
  match mode with
  | .ecb =>
    let (y, ts') := if dir then transformDec t ts b else transformEnc t ts b
    ⟨y, r, ts'⟩
  | .cbc =>
    if dir then
      let (z, ts') := transformDec t ts b
      ⟨xorBytes z r, b, ts'⟩
    else
      let (y, ts') := transformEnc t ts (xorBytes b r)
      ⟨y, y, ts'⟩
  | .pcbc =>
    if dir then
      let (z, ts') := transformDec t ts b
      let y := xorBytes z r
      ⟨y, xorBytes b y, ts'⟩
    else
      let (y, ts') := transformEnc t ts (xorBytes b r)
      ⟨y, xorBytes b y, ts'⟩
  | .cfb =>
    let (k, ts') := transformEnc t ts r
    let y := xorBytes k b
    ⟨y, if dir then b else y, ts'⟩
  | .ofb =>
    let (k, ts') := transformEnc t ts r
    ⟨xorBytes k b, k, ts'⟩
  | .ctr | .gcm =>
    let (k, ts') := transformEnc t ts r
    ⟨xorBytes k b, ctrInc r bs, ts'⟩

/-- The blocks of a CIPHER_UPDATE one after the other (spec/40_cipher.md R84): `n` blocks of `bs` bytes of `data`. -/
def runBlocks (t : Descriptor) (mode : Mode) (dir : Bool) (bs : Nat) :
    Nat → List Byte → List Byte → List Byte → BlockOut
  | 0, r, ts, _ => ⟨[], r, ts⟩
  | n + 1, r, ts, data =>
    let o := blockStep t mode dir bs r ts (data.take bs)
    let rest := runBlocks t mode dir bs n o.r o.ts (data.drop bs)
    ⟨o.y ++ rest.y, rest.r, rest.ts⟩

/-- `Keep(c, total)`: how many bytes an Update leaves buffered (spec/40_cipher.md R83). -/
def keep (c : Slot) (total : Nat) : Nat :=
  if c.pad && c.dir then (if total = 0 then 0 else (total - 1) % c.bs + 1) else total % c.bs

end Sys2Proof.Machine
end

