-- ==== Sys2Proof/Machine/Cipher.lean ====
section
/-! DEFINITION. The five cipher commands (spec/40_cipher.md R82 to R87). Numbers in comments are the rule's checks. -/

namespace Sys2Proof.Machine

/-! ## CIPHER_INIT (R82) -/

/-- Checks (2) to (8) of CIPHER_INIT and the slot it sets up (spec/40_cipher.md R82). -/
def cipherInitSlot (s : State) (x : Args) : Except Code Slot := do
  require (cfgReserved x == 0) .invalidParameters                        -- (2)
  let mode ← match modeOf (cfgMode x) with
    | some m => Except.ok m
    | none => .error .invalidParameters                                  -- (2)
  let t ← match lookupTransform s.cfg (cfgAlg x) with
    | some t => Except.ok t
    | none => .error .invalidKey                                         -- (3)
  require (!t.stream || mode == .ecb) .invalidParameters                 -- (4)
  require (region s (srcAddr x) (srcLen x)) .invalidParameters           -- (5)
  let needIv := mode.requiresIv || t.stream
  require (!needIv || region s (src2Addr x) t.bs) .invalidParameters     -- (6)
  require (srcLen x ≤ s.cfg.maxKey && t.keyLens.contains (srcLen x)) .invalidKey   -- (7)
  let key := srcBytes s x
  let iv := if needIv then s.ram.readBytes (src2Addr x) t.bs else zeros t.bs
  let ts ← match transformKs t key iv with
    | some ts => Except.ok ts
    | none => .error .invalidKey                                         -- (8)
  return { Slot.cleared with
    valid := true
    ended := false
    dir := cfgDir x
    pad := effectivePad t mode (cfgPadEn x)
    mode := mode
    alg := cfgAlg x
    bs := t.bs
    fill := 0
    mod1 := overlay (if mode.requiresIv then iv else zeros t.bs) Slot.cleared.mod1
    ts := some ts }

/-- The rule of CIPHER_INIT: the backend latch and the clear of the slot survive every failure after check (1). -/
def cipherInitRule (ctx : Nat) (s : State) (x : Args) : CmdResult :=
  if s.cfg.nctx ≤ ctx then .raise .invalidParameters s                   -- (1)
  else
    let s1 := s.latchBackend.setSlot ctx Slot.cleared
    match cipherInitSlot s x with
    | .ok c => .ok (s1.setSlot ctx c) 0 [] 0
    | .error code => .raise code s1

/-- CIPHER_INIT (spec/40_cipher.md R82). -/
def execCipherInit (ctx : Nat) (s : State) : Host.Outcome State Fault Refusal :=
  runCommand s (cipherInitRule ctx s)

/-! ## CIPHER_UPDATE (R84) -/

/-- `data` of CIPHER_UPDATE: the buffered bytes, then the new input. -/
def updateData (c : Slot) (input : List Byte) : List Byte := c.buf.take c.fill ++ input

/-- `nblk`: how many whole blocks CIPHER_UPDATE processes of `total` bytes. -/
def updateBlocks (c : Slot) (total : Nat) : Nat := (total - keep c total) / c.bs

/-- The blocks CIPHER_UPDATE runs, from the slot's feedback register and transform state (spec/40_cipher.md R84). -/
def updateRun (cfg : Config) (c : Slot) (input : List Byte) : BlockOut :=
  let data := updateData c input
  runBlocks (slotTransform cfg c) c.mode c.dir c.bs (updateBlocks c data.length)
    (c.mod1.take c.bs) (c.ts.getD []) data

/-- The slot after CIPHER_UPDATE: MOD1, TS, BUF and FILL (spec/40_cipher.md R84). -/
def updateSlot (cfg : Config) (c : Slot) (input : List Byte) : Slot :=
  let data := updateData c input
  let kept := keep c data.length
  let o := updateRun cfg c input
  { c with
    mod1 := overlay o.r c.mod1
    ts := some o.ts
    buf := overlay (data.drop (data.length - kept)) c.buf
    fill := kept }

/-- Checks (1) to (6) of CIPHER_UPDATE, in order (spec/40_cipher.md R84). -/
def cipherUpdateChecks (ctx : Nat) (s : State) (x : Args) : Except Code Unit := do
  require (ctx < s.cfg.nctx) .invalidParameters                          -- (1)
  let c := s.slot ctx
  require c.valid .invalidParameters                                     -- (2)
  require (!c.ended) .invalidParameters                                  -- (3)
  require (srcOk s x) .invalidParameters                                 -- (4)
  require (dstOk s x) .invalidParameters                                 -- (5)
  require (updateBlocks c (updateData c (srcBytes s x)).length * c.bs ≤ dstCap x) .bufferTooSmall   -- (6)

/-- The rule of CIPHER_UPDATE. -/
def cipherUpdateRule (ctx : Nat) (s : State) (x : Args) : CmdResult :=
  match cipherUpdateChecks ctx s x with
  | .error code => .raise code s
  | .ok () =>
    let c := s.slot ctx
    .ok (s.setSlot ctx (updateSlot s.cfg c (srcBytes s x))) (dstAddr x) (updateRun s.cfg c (srcBytes s x)).y 0

/-- CIPHER_UPDATE (spec/40_cipher.md R84). -/
def execCipherUpdate (ctx : Nat) (s : State) : Host.Outcome State Fault Refusal :=
  runCommand s (cipherUpdateRule ctx s)

/-! ## CIPHER_FINAL (R85) -/

/-- The last block of a padded encryption: BUF's bytes and `p = BS − FILL` pad bytes of value `p`. -/
def padBlock (c : Slot) : List Byte :=
  c.buf.take c.fill ++ List.replicate (c.bs - c.fill) (BitVec.ofNat 8 (c.bs - c.fill))

/-- Padded decryption: checks (4) and (5), and the plaintext without its padding. Only the last byte is checked. -/
def finalUnpad (t : Descriptor) (c : Slot) : Except Code BlockOut := do
  require (c.fill == c.bs) .badPadding                                   -- (4)
  let o := blockStep t c.mode c.dir c.bs (c.mod1.take c.bs) (c.ts.getD []) (c.buf.take c.bs)
  let l := (o.y.getD (c.bs - 1) 0).toNat
  require (l != 0 && decide (l ≤ c.bs)) .badPadding                      -- (5)
  return { o with y := o.y.take (c.bs - l) }

/-- No padding: the buffered bytes as a partial block, per mode, with check (6). -/
def finalPartial (t : Descriptor) (c : Slot) : Except Code BlockOut :=
  let r := c.mod1.take c.bs
  let ts := c.ts.getD []
  let part := c.buf.take c.fill
  if c.fill = 0 then .ok ⟨[], r, ts⟩
  else if c.mode.blockStyle && !t.stream then .error .invalidParameters  -- (6)
  else
    match c.mode with
    | .ecb =>                                                            -- a stream transform
      let block := part ++ zeros (c.bs - c.fill)
      let (y, ts') := if c.dir then transformDec t ts block else transformEnc t ts block
      .ok ⟨y.take c.fill, r, ts'⟩
    | .cfb | .cbc | .pcbc =>                                             -- a stream transform is in ECB only (R82)
      let (k, ts') := transformEnc t ts r
      .ok ⟨xorBytes (k.take c.fill) part, r, ts'⟩
    | .ofb =>
      let (k, ts') := transformEnc t ts r
      .ok ⟨xorBytes (k.take c.fill) part, k, ts'⟩
    | .ctr | .gcm =>
      let (k, ts') := transformEnc t ts r
      .ok ⟨xorBytes (k.take c.fill) part, ctrInc r c.bs, ts'⟩

/-- What CIPHER_FINAL outputs, by the padding and the direction of the slot (spec/40_cipher.md R85). -/
def finalOutput (t : Descriptor) (c : Slot) : Except Code BlockOut :=
  if c.pad then
    if c.dir then finalUnpad t c
    else .ok (blockStep t c.mode c.dir c.bs (c.mod1.take c.bs) (c.ts.getD []) (padBlock c))
  else finalPartial t c

/-- Checks (3) to (7) of CIPHER_FINAL, after ENDED ← 1. -/
def cipherFinalOut (s : State) (c : Slot) (x : Args) : Except Code BlockOut := do
  require (dstOk s x) .invalidParameters                                 -- (3)
  let o ← finalOutput (slotTransform s.cfg c) c                          -- (4) to (6)
  require (o.y.length ≤ dstCap x) .bufferTooSmall                        -- (7)
  return o

/-- The rule of CIPHER_FINAL: ENDED survives every failure from check (3) on; on an ended slot nothing happens. -/
def cipherFinalRule (ctx : Nat) (s : State) (x : Args) : CmdResult :=
  let c := s.slot ctx
  if s.cfg.nctx ≤ ctx then .raise .invalidParameters s                   -- (1)
  else if !c.valid then .raise .invalidParameters s                      -- (2)
  else if c.ended then .ok s 0 [] 0
  else
    match cipherFinalOut s c x with
    | .error code => .raise code (s.setSlot ctx { c with ended := true })
    | .ok o =>
      .ok (s.setSlot ctx { c with ended := true, mod1 := overlay o.r c.mod1, ts := some o.ts, fill := 0 })
        (dstAddr x) o.y 0

/-- CIPHER_FINAL (spec/40_cipher.md R85). -/
def execCipherFinal (ctx : Nat) (s : State) : Host.Outcome State Fault Refusal :=
  runCommand s (cipherFinalRule ctx s)

/-! ## CIPHER_RELEASE (R86) and CIPHER_READIV (R87) -/

/-- The rule of CIPHER_RELEASE: scrub the slot; releasing an invalid slot is OK and changes nothing (spec/40_cipher.md
R86, R89; log entry 16). -/
def cipherReleaseRule (ctx : Nat) (s : State) (_ : Args) : CmdResult :=
  update s do
    require (ctx < s.cfg.nctx) .invalidParameters                        -- (1)
    return s.setSlot ctx Slot.cleared

/-- CIPHER_RELEASE (spec/40_cipher.md R86). -/
def execCipherRelease (ctx : Nat) (s : State) : Host.Outcome State Fault Refusal :=
  runCommand s (cipherReleaseRule ctx s)

/-- The rule of CIPHER_READIV: copy the feedback register out (spec/40_cipher.md R87). -/
def cipherReadivRule (ctx : Nat) (s : State) (x : Args) : CmdResult :=
  emit s x do
    require (ctx < s.cfg.nctx) .invalidParameters                        -- (1)
    let c := s.slot ctx
    require c.valid .invalidParameters                                   -- (2)
    require (dstOk s x) .invalidParameters                               -- (3)
    require (c.bs ≤ dstCap x) .bufferTooSmall                            -- (4)
    return c.mod1.take c.bs

/-- CIPHER_READIV (spec/40_cipher.md R87). -/
def execCipherReadiv (ctx : Nat) (s : State) : Host.Outcome State Fault Refusal :=
  runCommand s (cipherReadivRule ctx s)

end Sys2Proof.Machine
end

