-- ==== Sys2Proof/Machine/Datapath.lean ====
section
/-! DEFINITION. The arithmetic of the RSA and EC datapaths: modular exponentiation, the CRT dispatcher, PKCS#1 v1.5
padding, the primality test, curve congruences and square roots (spec/41_rsa.md R91 to R102, R111; spec/42_ec.md R114). -/

namespace Sys2Proof.Machine

/-! ## Modular exponentiation -/

/-- `b^e mod m` by square and multiply, for exponents below `2^fuel`. -/
def modpowFuel : Nat → Nat → Nat → Nat → Nat
  | 0, _, _, m => 1 % m
  | fuel + 1, b, e, m =>
    let h := modpowFuel fuel (b * b % m) (e / 2) m
    if e % 2 = 1 then b * h % m else h

/-- `modpow(b, e, m) = b^e mod m`, with `b^0 = 1` (spec/00_scope.md R11; spec/41_rsa.md R91). That this computes
`b^e mod m` is `modpow_eq_pow_mod` in Laws/Numbers.lean. -/
def modpow (b e m : Nat) : Nat := modpowFuel (e.log2 + 1) b e m

/-! ## RSA transforms -/

/-- `Public(m)` (spec/41_rsa.md R96). -/
def publicOp (n e m : Nat) : Except Code Nat := do
  require (m < n) .valueTooLarge
  return modpow m e n

/-- CRT recombination `h·q + m2` with `h = coef·(m1 − m2) mod p`, non-negative even when `m1 < m2` (spec/41_rsa.md R97). -/
def crtCombine (p q dmp dmq coef c : Nat) : Nat :=
  let m1 := modpow c dmp p
  let m2 := modpow c dmq q
  let h := (((coef : Int) * ((m1 : Int) - (m2 : Int))) % (p : Int)).toNat
  h * q + m2

/-- The exponent part of a private key: the CRT quintet, or D (spec/41_rsa.md R97, R99). -/
inductive PrivatePart where
  | crt (p q dmp dmq coef : Nat)
  | plain (d : Nat)
  deriving DecidableEq, Repr

/-- The CRT path is taken whenever the quintet is present; else D must be present (spec/41_rsa.md R97, R99). -/
def RsaKey.privatePart (k : RsaKey) : Option PrivatePart :=
  match k.p, k.q, k.dmp, k.dmq, k.coef with
  | some p, some q, some dmp, some dmq, some coef => some (.crt p q dmp dmq coef)
  | _, _, _, _, _ => k.d.map .plain

/-- `Private(c)` (spec/41_rsa.md R97). -/
def privateOp (n : Nat) (part : PrivatePart) (c : Nat) : Except Code Nat := do
  require (c < n) .valueTooLarge
  match part with
  | .crt p q dmp dmq coef =>
    require (p != 0 && q != 0) .keyInconsistent
    let m := crtCombine p q dmp dmq coef c
    require (m < 256 ^ bytelen n) .keyInconsistent
    return m
  | .plain d => return modpow c d n

/-! ## PKCS#1 v1.5 -/

/-- `Pad1(data, k)`; needs `|data| + 3 ≤ k` (spec/41_rsa.md R101). -/
def pad1 (data : List Byte) (k : Nat) : List Byte :=
  [0x00, 0x01] ++ List.replicate (k - data.length - 3) 0xFF ++ [0x00] ++ data

/-- `Pad2(data, k)` and where ENTROPY then stands; needs `|data| + 3 ≤ k` (spec/41_rsa.md R101). -/
def pad2 (e : Entropy) (data : List Byte) (k : Nat) : List Byte × Entropy :=
  let (ps, e') := Entropy.drawMany (k - data.length - 3) e
  ([0x00, 0x02] ++ ps ++ [0x00] ++ data, e')

/-- After type byte 1: skip the run of 0xFF, which must end in 0x00; what follows is the data (spec/41_rsa.md R102). -/
def unpadRun1 : List Byte → Option (List Byte)
  | [] => none
  | b :: rest => if b = 0xFF then unpadRun1 rest else if b = 0x00 then some rest else none

/-- After type byte 2: skip to the first 0x00; what follows is the data (spec/41_rsa.md R102). -/
def unpadRun2 : List Byte → Option (List Byte)
  | [] => none
  | b :: rest => if b = 0x00 then some rest else unpadRun2 rest

/-- `Unpad(B)` (spec/41_rsa.md R102). Strings shorter than 3 bytes hold no terminator. -/
def unpad (block : List Byte) : Except Code (List Byte) :=
  let found := match block with
    | b0 :: b1 :: rest =>
      if b0 ≠ 0x00 then none
      else if b1 = 0x01 then unpadRun1 rest
      else if b1 = 0x02 then unpadRun2 rest
      else none
    | _ => none
  match found with
  | some data => .ok data
  | none => .error .badPadding

/-! ## Key checking -/

/-- Does some `d ≥ from` with `d² ≤ v` divide `v`? `fuel` bounds the search. -/
def hasDivisorFrom (v : Nat) : Nat → Nat → Bool
  | 0, _ => false
  | fuel + 1, d => if v < d * d then false else if v % d = 0 then true else hasDivisorFrom v fuel (d + 1)

/-- Trial division: `v` is prime (`isPrime_iff` in Laws/Numbers.lean). -/
def isPrime (v : Nat) : Bool := decide (2 ≤ v) && !hasDivisorFrom v v 2

/-- `PRIME_TEST` (spec/41_rsa.md R111): true on every prime, false below 2, a free value on an odd composite, and false on
an even composite (spec/41_rsa.md R112's example P = 62, DEDUCED; log entry 13). -/
def primeTest (v : Nat) : Bool :=
  if v < 2 then false
  else if isPrime v then true
  else if v % 2 = 0 then false
  else Config.compositeVerdict v

/-- `x = inv(q, p)`: `x` is in `[0, p)` and `q·x mod p = 1` (spec/00_scope.md R11). At most one `x` is
(`isInv_unique` in Laws/Numbers.lean). -/
def isInv (q p x : Nat) : Bool := decide (x < p) && q * x % p == 1

/-! ## Curves -/

/-- `OnCurve(x, y)`: `(y² − (x³ + a·x + b)) mod p = 0`, on the values as stored (spec/42_ec.md R114). -/
def onCurve (p a b x y : Nat) : Bool :=
  ((y : Int) ^ 2 - ((x : Int) ^ 3 + (a : Int) * (x : Int) + (b : Int))) % (p : Int) == 0

/-- The least `y` with `from ≤ y < from + fuel`, `y² mod p = rhs` and the given parity. -/
def leastRootFrom (p rhs parity : Nat) : Nat → Nat → Option Nat
  | 0, _ => none
  | fuel + 1, y => if y * y % p = rhs ∧ y % 2 = parity then some y else leastRootFrom p rhs parity fuel (y + 1)

/-- The least square root in `[0, p)` of the given parity (spec/42_ec.md R125). -/
def leastRoot (p rhs parity : Nat) : Option Nat := leastRootFrom p rhs parity p 0

end Sys2Proof.Machine
end

