-- ==== Sys2Proof/Machine/Ec.lean ====
section
/-! DEFINITION. The ten EC commands (spec/42_ec.md R116 to R125). Numbers in comments are the rule's checks. -/

namespace Sys2Proof.Machine

/-! ## Preconditions (R115) -/

/-- `Need` on EP alone: EP present and at least 3 (spec/42_ec.md R115). -/
def needField (g : Group) : Except Code Nat := do
  let p ← present g.ep .invalidParameters
  require (3 ≤ p) .invalidParameters
  return p

/-- The values of `Need({EP, EA, EB})` (spec/42_ec.md R115). -/
structure CurveParams where
  p : Nat
  a : Nat
  b : Nat
  deriving DecidableEq, Repr

/-- `Need({EP, EA, EB})` (spec/42_ec.md R115). -/
def needCurve (g : Group) : Except Code CurveParams := do
  let p ← needField g
  let a ← present g.ea .invalidParameters
  let b ← present g.eb .invalidParameters
  return ⟨p, a, b⟩

/-! ## Group commands -/

/-- Component `i` of the group register becomes `v`, present (spec/10_state.md R37). -/
def Group.load (g : Group) (i v : Nat) : Group :=
  match i with
  | 0 => { g with ep := some v }
  | 1 => { g with ea := some v }
  | 2 => { g with eb := some v }
  | 3 => { g with gx := some v }
  | 4 => { g with gy := some v }
  | 5 => { g with en := some v }
  | 6 => { g with eh := some v }
  | _ => g

/-- The rule of EC_LOADCOMP (spec/42_ec.md R116): the group is no longer a named one, and its point is invalid. -/
def ecLoadcompRule (s : State) (x : Args) : CmdResult :=
  update s do
    require (srcOk s x) .invalidParameters                               -- (1)
    require (argVal x ≤ 6) .invalidParameters                            -- (2)
    let v ← readInt s (srcAddr x) (srcLen x)                             -- (3)
    return { s with
      group := { s.group.load (argVal x) v with named := false, curveId := 0 }
      point := .empty }

/-- EC_LOADCOMP (spec/42_ec.md R116). -/
def execEcLoadcomp (s : State) : Host.Outcome State Fault Refusal :=
  runCommand s (ecLoadcompRule s)

/-- `CURVE_ROM(id)`, for an id of at most 8 bits (spec/42_ec.md R117). -/
def lookupCurve (cfg : Config) (id : Nat) : Option Curve :=
  if 255 < id then none else (cfg.curveRom.find? fun r => r.1.toNat == id).map (·.2)

/-- The group register loaded from a ROM record: all seven components present, NAMED = 1 (spec/42_ec.md R117). -/
def Group.ofCurve (r : Curve) (form : Bool) (id : Byte) : Group :=
  ⟨some r.p, some r.a, some r.b, some r.gx, some r.gy, some r.n, some r.h, form, true, id⟩

/-- The rule of EC_SETCURVE (spec/42_ec.md R117): FORM is not changed. -/
def ecSetcurveRule (s : State) (x : Args) : CmdResult :=
  update s <|
    match lookupCurve s.cfg (argVal x) with
    | none => .error .invalidParameters                                  -- (1)
    | some r => .ok { s with
        group := .ofCurve r s.group.form (BitVec.ofNat 8 (argVal x))
        point := .empty }

/-- EC_SETCURVE (spec/42_ec.md R117). -/
def execEcSetcurve (s : State) : Host.Outcome State Fault Refusal :=
  runCommand s (ecSetcurveRule s)

/-- The rule of EC_SETFORM (spec/42_ec.md R118). -/
def ecSetformRule (form : Nat) (s : State) (_ : Args) : CmdResult :=
  update s do
    require (form ≤ 1) .invalidParameters                                -- (1)
    return { s with group := { s.group with form := form == 1 } }

/-- EC_SETFORM (spec/42_ec.md R118). -/
def execEcSetform (form : Nat) (s : State) : Host.Outcome State Fault Refusal :=
  runCommand s (ecSetformRule form s)

/-- The rule of EC_CLEARGROUP (spec/42_ec.md R119). -/
def ecCleargroupRule (s : State) (_ : Args) : CmdResult :=
  update s (.ok { s with group := .empty, point := .empty })

/-- EC_CLEARGROUP (spec/42_ec.md R119). -/
def execEcCleargroup (s : State) : Host.Outcome State Fault Refusal :=
  runCommand s (ecCleargroupRule s)

/-- The rule of EC_CHECKGROUP (spec/42_ec.md R120): the generator satisfies the congruence; nothing else is checked. -/
def ecCheckgroupRule (s : State) (_ : Args) : CmdResult :=
  report s do
    let e ← needCurve s.group                                            -- (1)
    let gx ← present s.group.gx .invalidParameters                       -- (1)
    let gy ← present s.group.gy .invalidParameters                       -- (1)
    return if onCurve e.p e.a e.b gx gy then 1 else 0

/-- EC_CHECKGROUP (spec/42_ec.md R120). -/
def execEcCheckgroup (s : State) : Host.Outcome State Fault Refusal :=
  runCommand s (ecCheckgroupRule s)

/-! ## Point commands -/

/-- The rule of EC_PT_SETXY (spec/42_ec.md R121): no validation. -/
def ecPtSetxyRule (s : State) (x : Args) : CmdResult :=
  update s do
    require (srcOk s x) .invalidParameters                               -- (1)
    require (region s (src2Addr x) (src2Len x)) .invalidParameters       -- (1)
    let _ ← needField s.group                                            -- (2)
    let px ← readInt s (srcAddr x) (srcLen x)                            -- (3)
    let py ← readInt s (src2Addr x) (src2Len x)                          -- (3)
    return { s with point := ⟨true, false, px, py⟩ }

/-- EC_PT_SETXY (spec/42_ec.md R121). -/
def execEcPtSetxy (s : State) : Host.Outcome State Fault Refusal :=
  runCommand s (ecPtSetxyRule s)

/-- The rule of EC_PT_SETINF (spec/42_ec.md R122). -/
def ecPtSetinfRule (s : State) (_ : Args) : CmdResult :=
  update s do
    let _ ← needField s.group                                            -- (1)
    return { s with point := ⟨true, true, 0, 0⟩ }

/-- EC_PT_SETINF (spec/42_ec.md R122). -/
def execEcPtSetinf (s : State) : Host.Outcome State Fault Refusal :=
  runCommand s (ecPtSetinfRule s)

/-- Point validation: infinity, or reduced coordinates on the curve (spec/42_ec.md R123). -/
def pointOnCurve (e : CurveParams) (p : Point) : Bool :=
  p.inf || (decide (p.x < e.p) && decide (p.y < e.p) && onCurve e.p e.a e.b p.x p.y)

/-- The rule of EC_PT_CHECK (spec/42_ec.md R123). -/
def ecPtCheckRule (s : State) (_ : Args) : CmdResult :=
  report s do
    let e ← needCurve s.group                                            -- (1)
    require s.point.valid .invalidParameters                             -- (2)
    return if pointOnCurve e s.point then 1 else 0

/-- EC_PT_CHECK (spec/42_ec.md R123). -/
def execEcPtCheck (s : State) : Host.Outcome State Fault Refusal :=
  runCommand s (ecPtCheckRule s)

/-- The octet string of an affine point, `l` bytes a coordinate (spec/42_ec.md R124). -/
def encodeAffine (compressed : Bool) (l px py : Nat) : List Byte :=
  if compressed then BitVec.ofNat 8 (2 + py % 2) :: i2os px l
  else 0x04 :: (i2os px l ++ i2os py l)

/-- The rule of EC_PT_ENCODE (spec/42_ec.md R124). -/
def ecPtEncodeRule (s : State) (x : Args) : CmdResult :=
  emit s x do
    require (dstOk s x) .invalidParameters                               -- (1)
    let p ← needField s.group                                            -- (2)
    require s.point.valid .invalidParameters                             -- (3)
    let l := bytelen p
    require (s.point.inf || (decide (s.point.x < 256 ^ l) && decide (s.point.y < 256 ^ l))) .invalidParameters   -- (4)
    let out := if s.point.inf then [0x00] else encodeAffine s.group.form l s.point.x s.point.y
    require (out.length ≤ dstCap x) .bufferTooSmall                      -- (5)
    return out

/-- EC_PT_ENCODE (spec/42_ec.md R124). -/
def execEcPtEncode (s : State) : Host.Outcome State Fault Refusal :=
  runCommand s (ecPtEncodeRule s)

/-- An uncompressed point: reduced coordinates on the curve (spec/42_ec.md R125). -/
def decodeUncompressed (e : CurveParams) (px py : Nat) : Option Point :=
  if px < e.p ∧ py < e.p ∧ onCurve e.p e.a e.b px py then some ⟨true, false, px, py⟩ else none

/-- A compressed point: the least root of the given parity (spec/42_ec.md R125). -/
def decodeCompressed (e : CurveParams) (parity px : Nat) : Option Point :=
  if px < e.p then
    (leastRoot e.p ((px ^ 3 + e.a * px + e.b) % e.p) parity).map fun py => ⟨true, false, px, py⟩
  else none

/-- The point an octet string stands for (spec/42_ec.md R125); `none` when it is malformed, of the wrong length,
unreduced or off the curve. -/
def decodePoint (e : CurveParams) (octets : List Byte) : Option Point :=
  let l := bytelen e.p
  match octets with
  | [] => none
  | b0 :: rest =>
    if rest.length = 0 ∧ b0 = 0x00 then some ⟨true, true, 0, 0⟩
    else if rest.length = 2 * l ∧ b0 = 0x04 then
      decodeUncompressed e (os2i (rest.take l)) (os2i (rest.drop l))
    else if rest.length = l ∧ (b0 = 0x02 ∨ b0 = 0x03) then
      decodeCompressed e (b0.toNat - 2) (os2i rest)
    else none

/-- The rule of EC_PT_DECODE (spec/42_ec.md R125): accepts either form whatever FORM is. -/
def ecPtDecodeRule (s : State) (x : Args) : CmdResult :=
  update s do
    require (srcOk s x) .invalidParameters                               -- (1)
    let e ← needCurve s.group                                            -- (2)
    match decodePoint e (srcBytes s x) with
    | some pt => return { s with point := pt }
    | none => .error .invalidParameters                                  -- (3)

/-- EC_PT_DECODE (spec/42_ec.md R125). -/
def execEcPtDecode (s : State) : Host.Outcome State Fault Refusal :=
  runCommand s (ecPtDecodeRule s)

end Sys2Proof.Machine
end

