-- ==== Sys2Proof/Machine/Rsa.lean ====
section
/-! DEFINITION. The twelve RSA commands (spec/41_rsa.md R94 to R112). Numbers in comments are the rule's checks. -/

namespace Sys2Proof.Machine

/-! ## The key register -/

/-- Component `i` of the key register becomes `v`, present (spec/10_state.md R35). -/
def RsaKey.load (k : RsaKey) (i v : Nat) : RsaKey :=
  match i with
  | 0 => { k with n := some v }
  | 1 => { k with e := some v }
  | 2 => { k with d := some v }
  | 3 => { k with p := some v }
  | 4 => { k with q := some v }
  | 5 => { k with dmp := some v }
  | 6 => { k with dmq := some v }
  | 7 => { k with coef := some v }
  | _ => k

/-- The rule of RSA_LOADCOMP (spec/41_rsa.md R94). -/
def rsaLoadcompRule (s : State) (x : Args) : CmdResult :=
  update s do
    require (srcOk s x) .invalidParameters                               -- (1)
    require (argVal x ≤ 7) .invalidParameters                            -- (2)
    let v ← readInt s (srcAddr x) (srcLen x)                             -- (3)
    return { s with rsa := s.rsa.load (argVal x) v }

/-- RSA_LOADCOMP (spec/41_rsa.md R94). -/
def execRsaLoadcomp (s : State) : Host.Outcome State Fault Refusal :=
  runCommand s (rsaLoadcompRule s)

/-- The rule of RSA_CLEARKEY (spec/41_rsa.md R95). -/
def rsaClearkeyRule (s : State) (_ : Args) : CmdResult :=
  update s (.ok { s with rsa := .empty })

/-- RSA_CLEARKEY (spec/41_rsa.md R95). -/
def execRsaClearkey (s : State) : Host.Outcome State Fault Refusal :=
  runCommand s (rsaClearkeyRule s)

/-! ## Transforms -/

/-- Both regions, the source first (spec/41_rsa.md R98). -/
def regions (s : State) (x : Args) : Except Code Unit := do
  require (srcOk s x) .invalidParameters
  require (dstOk s x) .invalidParameters

/-- The public key: N and E must be present (spec/41_rsa.md R98). -/
def publicKey (s : State) : Except Code (Nat × Nat) := do
  let n ← present s.rsa.n .invalidKey
  let e ← present s.rsa.e .invalidKey
  return (n, e)

/-- The private key: N must be present, and the CRT quintet or D (spec/41_rsa.md R99). -/
def privateKey (s : State) : Except Code (Nat × PrivatePart) := do
  let n ← present s.rsa.n .invalidKey
  match s.rsa.privatePart with
  | some part => return (n, part)
  | none => .error .invalidKey

/-- The rule of RSA_PUBLIC: the bytes it writes (spec/41_rsa.md R98). -/
def rsaPublicOut (s : State) (x : Args) : Except Code (List Byte) := do
  regions s x                                                            -- (1)
  let (n, e) ← publicKey s                                               -- (2)
  let m ← readInt s (srcAddr x) (srcLen x)                               -- (3)
  let c ← publicOp n e m                                                 -- (4)
  require (bytelen n ≤ dstCap x) .bufferTooSmall                         -- (5)
  return i2os c (bytelen n)

/-- The rule of RSA_PRIVATE: the bytes it writes (spec/41_rsa.md R99). -/
def rsaPrivateOut (s : State) (x : Args) : Except Code (List Byte) := do
  regions s x                                                            -- (1)
  let (n, part) ← privateKey s                                           -- (2)
  let c ← readInt s (srcAddr x) (srcLen x)                               -- (3)
  let m ← privateOp n part c                                             -- (4)
  require (bytelen n ≤ dstCap x) .bufferTooSmall                         -- (5)
  return i2os m (bytelen n)

/-- The rule of RSA_PUBLIC (spec/41_rsa.md R98). -/
def rsaPublicRule (s : State) (x : Args) : CmdResult :=
  emit s x (rsaPublicOut s x)

/-- RSA_PUBLIC (spec/41_rsa.md R98). -/
def execRsaPublic (s : State) : Host.Outcome State Fault Refusal :=
  runCommand s (rsaPublicRule s)

/-- The rule of RSA_PRIVATE (spec/41_rsa.md R99). -/
def rsaPrivateRule (s : State) (x : Args) : CmdResult :=
  emit s x (rsaPrivateOut s x)

/-- RSA_PRIVATE (spec/41_rsa.md R99). -/
def execRsaPrivate (s : State) : Host.Outcome State Fault Refusal :=
  runCommand s (rsaPrivateRule s)

/-! ## Padding -/

/-- A rule that writes padding drawn from ENTROPY: the stream advances only when the command completes OK
(spec/41_rsa.md R100, R104). -/
def emitDrawn (s : State) (x : Args) : Except Code (List Byte × Entropy) → CmdResult
  | .ok (out, e) => .ok { s with entropy := e } (dstAddr x) out 0
  | .error code => .raise code s

/-- Checks (1) to (3) of RSA_PAD1 and RSA_PAD2 (spec/41_rsa.md R103, R104). -/
def padChecks (s : State) (x : Args) : Except Code Unit := do
  regions s x                                                            -- (1)
  require (srcLen x + 3 ≤ argVal x) .invalidParameters                   -- (2)
  require (argVal x ≤ dstCap x) .bufferTooSmall                          -- (3)

/-- The rule of RSA_PAD1 (spec/41_rsa.md R103). -/
def rsaPad1Rule (s : State) (x : Args) : CmdResult :=
  emit s x do
    padChecks s x
    return pad1 (srcBytes s x) (argVal x)

/-- RSA_PAD1 (spec/41_rsa.md R103). -/
def execRsaPad1 (s : State) : Host.Outcome State Fault Refusal :=
  runCommand s (rsaPad1Rule s)

/-- The rule of RSA_PAD2 (spec/41_rsa.md R104). -/
def rsaPad2Rule (s : State) (x : Args) : CmdResult :=
  emitDrawn s x do
    padChecks s x
    return pad2 s.entropy (srcBytes s x) (argVal x)

/-- RSA_PAD2 (spec/41_rsa.md R104). -/
def execRsaPad2 (s : State) : Host.Outcome State Fault Refusal :=
  runCommand s (rsaPad2Rule s)

/-- The data of a block after `Unpad`, if it fits the capacity (the last checks of spec/41_rsa.md R105, R108, R110). -/
def unpadInto (x : Args) (block : List Byte) : Except Code (List Byte) := do
  let data ← unpad block
  require (data.length ≤ dstCap x) .bufferTooSmall
  return data

/-- The rule of RSA_UNPAD (spec/41_rsa.md R105). -/
def rsaUnpadRule (s : State) (x : Args) : CmdResult :=
  emit s x do
    regions s x                                                          -- (1)
    unpadInto x (srcBytes s x)                                           -- (2), (3)

/-- RSA_UNPAD (spec/41_rsa.md R105). -/
def execRsaUnpad (s : State) : Host.Outcome State Fault Refusal :=
  runCommand s (rsaUnpadRule s)

/-! ## Combined operations -/

/-- The rule of RSA_PUBENC (spec/41_rsa.md R107); selector 0 is RSA_PUBLIC, 2..15 are UnsupportedPadding (R106). -/
def rsaPubencRule (pad : Nat) (s : State) (x : Args) : CmdResult :=
  if 2 ≤ pad then .raise .unsupportedPadding s                         -- (1)
  else if pad = 0 then emit s x (rsaPublicOut s x)
  else emitDrawn s x do
    regions s x                                                        -- (2)
    let (n, e) ← publicKey s                                           -- (3)
    require (srcLen x + 3 ≤ bytelen n) .invalidParameters              -- (4)
    require (bytelen n ≤ dstCap x) .bufferTooSmall                     -- (5)
    let (blk, ent) := pad2 s.entropy (srcBytes s x) (bytelen n)
    let c ← publicOp n e (os2i blk)
    return (i2os c (bytelen n), ent)

/-- RSA_PUBENC (spec/41_rsa.md R107). -/
def execRsaPubenc (pad : Nat) (s : State) : Host.Outcome State Fault Refusal :=
  runCommand s (rsaPubencRule pad s)

/-- The rule of RSA_PRIVDEC (spec/41_rsa.md R108); selector 0 is RSA_PRIVATE. -/
def rsaPrivdecRule (pad : Nat) (s : State) (x : Args) : CmdResult :=
  if 2 ≤ pad then .raise .unsupportedPadding s                         -- (1)
  else if pad = 0 then emit s x (rsaPrivateOut s x)
  else emit s x do
    regions s x                                                        -- (2)
    let (n, part) ← privateKey s                                       -- (3)
    let c ← readInt s (srcAddr x) (srcLen x)                           -- (4)
    let m ← privateOp n part c                                         -- (5)
    unpadInto x (i2os m (bytelen n))                                   -- (6), (7)

/-- RSA_PRIVDEC (spec/41_rsa.md R108). -/
def execRsaPrivdec (pad : Nat) (s : State) : Host.Outcome State Fault Refusal :=
  runCommand s (rsaPrivdecRule pad s)

/-- The rule of RSA_PRIVENC (spec/41_rsa.md R109); selector 0 is RSA_PRIVATE. -/
def rsaPrivencRule (pad : Nat) (s : State) (x : Args) : CmdResult :=
  if 2 ≤ pad then .raise .unsupportedPadding s                         -- (1)
  else if pad = 0 then emit s x (rsaPrivateOut s x)
  else emit s x do
    regions s x                                                        -- (2)
    let (n, part) ← privateKey s                                       -- (3)
    require (srcLen x + 3 ≤ bytelen n) .invalidParameters              -- (4)
    require (bytelen n ≤ dstCap x) .bufferTooSmall                     -- (5)
    let m ← privateOp n part (os2i (pad1 (srcBytes s x) (bytelen n)))  -- (6)
    return i2os m (bytelen n)

/-- RSA_PRIVENC (spec/41_rsa.md R109). -/
def execRsaPrivenc (pad : Nat) (s : State) : Host.Outcome State Fault Refusal :=
  runCommand s (rsaPrivencRule pad s)

/-- The rule of RSA_PUBDEC (spec/41_rsa.md R110); selector 0 is RSA_PUBLIC. -/
def rsaPubdecRule (pad : Nat) (s : State) (x : Args) : CmdResult :=
  if 2 ≤ pad then .raise .unsupportedPadding s                         -- (1)
  else if pad = 0 then emit s x (rsaPublicOut s x)
  else emit s x do
    regions s x                                                        -- (2)
    let (n, e) ← publicKey s                                           -- (3)
    let m ← readInt s (srcAddr x) (srcLen x)                           -- (4)
    let v ← publicOp n e m                                             -- (5)
    unpadInto x (i2os v (bytelen n))                                   -- (6), (7)

/-- RSA_PUBDEC (spec/41_rsa.md R110). -/
def execRsaPubdec (pad : Nat) (s : State) : Host.Outcome State Fault Refusal :=
  runCommand s (rsaPubdecRule pad s)

/-! ## Key check -/

/-- `D mod (prime − 1)` must equal the CRT exponent, when both are present (spec/41_rsa.md R112). -/
def exponentAgrees (d crt : Option Nat) (prime : Nat) : Bool :=
  match d, crt with
  | some d, some r => d % (prime - 1) == r
  | _, _ => true

/-- COEF must be present and be `inv(Q, P)` (spec/41_rsa.md R112). -/
def coefAgrees (coef : Option Nat) (q p : Nat) : Bool :=
  match coef with
  | some c => isInv q p c
  | none => false

/-- Only the public components are present (spec/41_rsa.md R112). -/
def RsaKey.publicOnly (k : RsaKey) : Bool :=
  k.d.isNone && k.p.isNone && k.q.isNone && k.dmp.isNone && k.dmq.isNone && k.coef.isNone

/-- KeyCheck: the RESULT, or the code of the first failing check (spec/41_rsa.md R112). -/
def checkKey (k : RsaKey) : Except Code Word := do
  let n ← present k.n .invalidKey                                        -- (1)
  let e ← present k.e .invalidKey                                        -- (1)
  require (e % 2 != 0 && e != 1) .keyInconsistent                        -- (2)
  if k.publicOnly then return 2
  else
    match k.p, k.q with
    | none, none => return 1
    | some p, some q =>
      require (primeTest p && primeTest q) .primeCheckFailed             -- (4)
      require (p * q == n) .keyInconsistent                              -- (5)
      require (exponentAgrees k.d k.dmp p) .keyInconsistent              -- (6)
      require (exponentAgrees k.d k.dmq q) .keyInconsistent              -- (7)
      require (coefAgrees k.coef q p) .keyInconsistent                   -- (8)
      return 1
    | _, _ => .error .keyInconsistent                                    -- (3)

/-- The rule of RSA_CHECKKEY (spec/41_rsa.md R112). -/
def rsaCheckkeyRule (s : State) (_ : Args) : CmdResult :=
  report s (checkKey s.rsa)

/-- RSA_CHECKKEY (spec/41_rsa.md R112). -/
def execRsaCheckkey (s : State) : Host.Outcome State Fault Refusal :=
  runCommand s (rsaCheckkeyRule s)

end Sys2Proof.Machine
end

