-- ==== Sys2Proof/Machine/Dispatch.lean ====
section
/-! DEFINITION. One arm per command (spec/30_encoding.md R66). -/

namespace Sys2Proof.Machine

def exec (i : Instr) (s : State) : Host.Outcome State Fault Refusal :=
  match i with
  | .cipherInit ctx => Sys2Proof.Machine.execCipherInit ctx s
  | .cipherUpdate ctx => Sys2Proof.Machine.execCipherUpdate ctx s
  | .cipherFinal ctx => Sys2Proof.Machine.execCipherFinal ctx s
  | .cipherRelease ctx => Sys2Proof.Machine.execCipherRelease ctx s
  | .cipherReadiv ctx => Sys2Proof.Machine.execCipherReadiv ctx s
  | .rsaLoadcomp => Sys2Proof.Machine.execRsaLoadcomp s
  | .rsaClearkey => Sys2Proof.Machine.execRsaClearkey s
  | .rsaPublic => Sys2Proof.Machine.execRsaPublic s
  | .rsaPrivate => Sys2Proof.Machine.execRsaPrivate s
  | .rsaPad1 => Sys2Proof.Machine.execRsaPad1 s
  | .rsaPad2 => Sys2Proof.Machine.execRsaPad2 s
  | .rsaUnpad => Sys2Proof.Machine.execRsaUnpad s
  | .rsaPubenc pad => Sys2Proof.Machine.execRsaPubenc pad s
  | .rsaPrivdec pad => Sys2Proof.Machine.execRsaPrivdec pad s
  | .rsaPrivenc pad => Sys2Proof.Machine.execRsaPrivenc pad s
  | .rsaPubdec pad => Sys2Proof.Machine.execRsaPubdec pad s
  | .rsaCheckkey => Sys2Proof.Machine.execRsaCheckkey s
  | .ecLoadcomp => Sys2Proof.Machine.execEcLoadcomp s
  | .ecSetcurve => Sys2Proof.Machine.execEcSetcurve s
  | .ecSetform form => Sys2Proof.Machine.execEcSetform form s
  | .ecCleargroup => Sys2Proof.Machine.execEcCleargroup s
  | .ecCheckgroup => Sys2Proof.Machine.execEcCheckgroup s
  | .ecPtSetxy => Sys2Proof.Machine.execEcPtSetxy s
  | .ecPtSetinf => Sys2Proof.Machine.execEcPtSetinf s
  | .ecPtCheck => Sys2Proof.Machine.execEcPtCheck s
  | .ecPtEncode => Sys2Proof.Machine.execEcPtEncode s
  | .ecPtDecode => Sys2Proof.Machine.execEcPtDecode s

end Sys2Proof.Machine
end

