-- ==== Sys2Proof/Machine/Step.lean ====
section
/-! DEFINITION. One transition of the machine: a host transaction, the engine's step, or a power-on reset
(spec/00_scope.md R8; spec/60_exceptions.md R130, R134; log entries 5 and 6). -/

namespace Sys2Proof.Machine

/-- The engine's turn (spec/60_exceptions.md R130): decode and run the pending command; nothing while idle (R149;
log entry 9). -/
def engineStep (s : State) : Host.Outcome State Fault Refusal :=
  match s.pending with
  | none => .next s
  | some p =>
    match decode p.word with
    | .ok i => exec i s
    | .error _ => illegalCommand s

/-- One transition: the next event of `inputs`, or the engine's turn when there is none (log entry 5). -/
def step (s : State) : Host.Outcome State Fault Refusal :=
  match s.inputs with
  | [] => engineStep s
  | .bus op :: rest => .next (busStep { s with inputs := rest } op)
  | .engine :: rest => engineStep { s with inputs := rest }
  | .powerOn ram :: rest => .next (State.powerOn { s with inputs := rest } ram)

/-- `s` with the command word `w` accepted and the engine to move next (log entry 6): the very next step runs it on the
ARG registers as they stand. -/
def State.withFetchWord (s : State) (nbits w : Nat) : State :=
  { s with
    pending := some ⟨BitVec.ofNat 32 (w % 2 ^ nbits), s.args⟩
    inputs := .engine :: s.inputs }

end Sys2Proof.Machine
end

