-- ==== Sys2Proof/Safety.lean ====
section
/-! DEFINITION. The states a run can be in: what every step keeps and State.reset has, in the terms the statements use.
Each clause cites the rule that gives it. -/

namespace Sys2Proof.Machine

/-- A component, if present, fits the datapath (spec/10_state.md R35, R37). -/
def fits (bnMax : Nat) (v : Option Nat) : Bool := v.all fun n => decide (n < 256 ^ bnMax)

/-- Every RSA component fits (spec/10_state.md R35). -/
abbrev RsaKey.wf (cfg : Config) (k : RsaKey) : Prop :=
  ∀ v ∈ [k.n, k.e, k.d, k.p, k.q, k.dmp, k.dmq, k.coef], fits cfg.bnMax v = true

/-- Every EC component fits; a named group is the ROM's, and CURVE_ID is 0 otherwise (spec/10_state.md R37;
spec/42_ec.md R116, R117). -/
abbrev Group.wf (cfg : Config) (g : Group) : Prop :=
  (∀ v ∈ [g.ep, g.ea, g.eb, g.gx, g.gy, g.en, g.eh], fits cfg.bnMax v = true) ∧
  (g.named = false → g.curveId = 0) ∧
  (g.named = true → (lookupCurve cfg g.curveId.toNat).map (fun r => Group.ofCurve r g.form g.curveId) = some g)

/-- The point register (spec/10_state.md R38): cleared while invalid, at the origin while infinite, fitting the datapath,
and only set over a usable field (spec/42_ec.md R115). -/
abbrev Point.wf (cfg : Config) (g : Group) (p : Point) : Prop :=
  (p.valid = false → p = Point.empty) ∧
  (p.inf = true → p.x = 0 ∧ p.y = 0) ∧
  (p.x < 256 ^ cfg.bnMax ∧ p.y < 256 ^ cfg.bnMax) ∧
  (p.valid = true → 3 ≤ g.ep.getD 0)

/-- A context slot (spec/10_state.md R32; spec/40_cipher.md R81, R82, R83, R87). -/
abbrev Slot.wf (cfg : Config) (c : Slot) : Prop :=
  (c.buf.length = maxBs ∧ c.mod1.length = maxBs ∧ c.mod2 = zeros maxBs) ∧
  (c.valid = false → c = Slot.cleared) ∧
  (c.valid = true →
    (lookupTransform cfg c.alg).isSome = true ∧ c.ts.isSome = true ∧
    c.bs = (slotTransform cfg c).bs ∧
    c.fill ≤ c.bs ∧ (c.fill = c.bs → c.pad = true ∧ c.dir = true) ∧
    (c.pad = true → c.mode.blockStyle = true ∧ (slotTransform cfg c).stream = false) ∧
    ((slotTransform cfg c).stream = true → c.mode = .ecb) ∧
    (c.mode = .ecb → c.mod1 = zeros maxBs))

/-- The backend latch (spec/10_state.md R34). -/
abbrev Backend.wf (cfg : Config) (b : Backend) : Prop :=
  (b.locked = false → b.accelSel = false) ∧ (b.locked = true → b.accelSel = cfg.accelAvail)

/-- The completion registers (spec/10_state.md R30, R31): never more bytes than the Data RAM has, and nothing after an
error; RESULT is 0, 1 or 2. -/
abbrev State.completionWf (s : State) : Prop :=
  s.bytesWritten.toNat ≤ s.cfg.dramSize ∧ s.result.toNat ≤ 2 ∧
  (s.lastCode ≠ .ok → s.bytesWritten = 0 ∧ s.result = 0)

/-- A state that a legally configured CCE-1 can be in. -/
structure State.Wf (s : State) : Prop where
  legal      : s.cfg.legal
  slotCount  : s.slots.length = s.cfg.nctx
  slots      : ∀ c ∈ s.slots, c.wf s.cfg
  ram        : s.ram.wf s.cfg.dramSize = true
  rsa        : s.rsa.wf s.cfg
  group      : s.group.wf s.cfg
  point      : s.point.wf s.cfg s.group
  backend    : s.backend.wf s.cfg
  completion : s.completionWf

end Sys2Proof.Machine
end

