-- ==== Sys2Proof/Certificates/Slice0/Obligations.lean ====
section
/-! DEFINITION. The statements for the provers, and the terms they are written in (namespace Sys2Proof.Spec): the completion
registers, the first failing check, the host's transactions, and the spec's own formulas. -/

namespace Sys2Proof.Spec
open Sys2Proof.Machine

/-! ## How a command ends (spec/60_exceptions.md R130, R131, R133) -/

/-- `s` after a command completed OK, having written `bytes` bytes, with RESULT `result`. -/
def completed (s : State) (p : Pending) (bytes : Nat) (result : Word) : State :=
  { s with
    bytesWritten := BitVec.ofNat 32 bytes
    result := result
    lastCode := .ok
    lastOp := p.word.extractLsb' 0 8
    irq := { s.irq with done := true }
    pending := none }

/-- `s` after a command completed OK and wrote `out` at Data RAM offset `dst`. -/
def wrote (s : State) (p : Pending) (dst : Nat) (out : List Byte) : State :=
  completed { s with ram := s.ram.writeBytes dst out } p out.length 0

/-- `s` after a command completed with the error code `code`. -/
def failed (s : State) (p : Pending) (code : Code) : State :=
  { s with
    bytesWritten := 0
    result := 0
    lastCode := code
    lastOp := p.word.extractLsb' 0 8
    irq := { s.irq with done := true, err := true }
    pending := none }

/-- The code of the first check of a rule that does not pass. -/
def firstFailing : List (Bool × Code) → Option Code
  | [] => none
  | (passes, code) :: rest => if passes then firstFailing rest else some code

/-- Command `i` in state `s` ends in `onOk` when every check passes, and in `onFail` of the first failing check's code
otherwise. -/
def Runs (i : Instr) (s : State) (checks : List (Bool × Code)) (onOk : State) (onFail : Code → State) : Prop :=
  (firstFailing checks = none → exec i s = .next onOk) ∧
  (∀ code, firstFailing checks = some code → exec i s = .next (onFail code))

/-- A region taken from two ARG values is inside the Data RAM (spec/20_memory.md R54). -/
def inside (s : State) (addr len : Word) : Bool := decide (addr.toNat + len.toNat ≤ s.cfg.dramSize)

/-- The bytes of a region (spec/00_scope.md R12). -/
def bytesAt (s : State) (addr len : Word) : List Byte := s.ram.readBytes addr.toNat len.toNat

/-- The host performs transaction `op` in `s`, leaving `t`; `s.inputs` are the events to come after it. -/
def Bus (s : State) (op : BusOp) (t : State) : Prop :=
  step { s with inputs := .bus op :: s.inputs } = .next t

/-- The engine takes its turn in `s`, leaving `t`; `s.inputs` are the events to come after it. -/
def Turn (s t : State) : Prop :=
  step { s with inputs := .engine :: s.inputs } = .next t

/-- What a failing command with word `w` changes beside the completion registers (spec/60_exceptions.md R131 (b), (c)). -/
def survivors (s : State) (w : Word) : State :=
  match decode w with
  | .ok (.cipherInit c) =>
    if c < s.cfg.nctx then
      { s with
        backend := if s.backend.locked then s.backend else { locked := true, accelSel := s.cfg.accelAvail }
        slots := s.slots.set c Slot.cleared }
    else s
  | .ok (.cipherFinal c) =>
    if c < s.cfg.nctx ∧ (s.slot c).valid then { s with slots := s.slots.set c { s.slot c with ended := true } } else s
  | _ => s

/-- The commands that write to the Data RAM: those with a destination in the table of spec/30_encoding.md R67. -/
def storing : Instr → Bool
  | .cipherUpdate _ | .cipherFinal _ | .cipherReadiv _ => true
  | .rsaPublic | .rsaPrivate | .rsaPad1 | .rsaPad2 | .rsaUnpad => true
  | .rsaPubenc _ | .rsaPrivdec _ | .rsaPrivenc _ | .rsaPubdec _ => true
  | .ecPtEncode => true
  | _ => false

/-! ## Encodings (spec/30_encoding.md R66, R69) -/

/-- One row of the opcode table: mask, match, and the command of selector S. -/
structure Row where
  mask  : Word
  value : Word
  instr : Nat → Instr

/-- The rows of R66 whose command uses S. -/
def selectorRows : List Row :=
  [ ⟨0xFFFFF0FF, 0x01, .cipherInit⟩, ⟨0xFFFFF0FF, 0x02, .cipherUpdate⟩, ⟨0xFFFFF0FF, 0x03, .cipherFinal⟩
  , ⟨0xFFFFF0FF, 0x04, .cipherRelease⟩, ⟨0xFFFFF0FF, 0x05, .cipherReadiv⟩, ⟨0xFFFFF0FF, 0x17, .rsaPubenc⟩
  , ⟨0xFFFFF0FF, 0x18, .rsaPrivdec⟩, ⟨0xFFFFF0FF, 0x19, .rsaPrivenc⟩, ⟨0xFFFFF0FF, 0x1A, .rsaPubdec⟩
  , ⟨0xFFFFF0FF, 0x22, .ecSetform⟩ ]

/-- The rows of R66 whose command requires S = 0. -/
def plainRows : List Row :=
  [ ⟨0xFFFFFFFF, 0x10, fun _ => .rsaLoadcomp⟩, ⟨0xFFFFFFFF, 0x11, fun _ => .rsaClearkey⟩
  , ⟨0xFFFFFFFF, 0x12, fun _ => .rsaPublic⟩, ⟨0xFFFFFFFF, 0x13, fun _ => .rsaPrivate⟩
  , ⟨0xFFFFFFFF, 0x14, fun _ => .rsaPad1⟩, ⟨0xFFFFFFFF, 0x15, fun _ => .rsaPad2⟩
  , ⟨0xFFFFFFFF, 0x16, fun _ => .rsaUnpad⟩, ⟨0xFFFFFFFF, 0x1B, fun _ => .rsaCheckkey⟩
  , ⟨0xFFFFFFFF, 0x20, fun _ => .ecLoadcomp⟩, ⟨0xFFFFFFFF, 0x21, fun _ => .ecSetcurve⟩
  , ⟨0xFFFFFFFF, 0x23, fun _ => .ecCleargroup⟩, ⟨0xFFFFFFFF, 0x24, fun _ => .ecCheckgroup⟩
  , ⟨0xFFFFFFFF, 0x25, fun _ => .ecPtSetxy⟩, ⟨0xFFFFFFFF, 0x26, fun _ => .ecPtSetinf⟩
  , ⟨0xFFFFFFFF, 0x27, fun _ => .ecPtCheck⟩, ⟨0xFFFFFFFF, 0x28, fun _ => .ecPtEncode⟩
  , ⟨0xFFFFFFFF, 0x29, fun _ => .ecPtDecode⟩ ]

/-- The opcode table of R66 as mask and match rows (R69). -/
def rows : List Row := selectorRows ++ plainRows

/-- A word matches a row. -/
def Row.Matches (r : Row) (w : Word) : Prop := w &&& r.mask = r.value

/-- R68's three reasons to reject a word, on its fields: RES, OP, S. -/
def illegalWord (w : Word) : Bool :=
  let op := w.toNat % 256
  let sel := w.toNat / 256 % 16
  w.toNat / 4096 != 0 ||
  (op == 0 || (0x06 ≤ op && op ≤ 0x0F) || (0x1C ≤ op && op ≤ 0x1F) || decide (0x2A ≤ op)) ||
  (sel != 0 && ((0x10 ≤ op && op ≤ 0x16) || op == 0x1B || op == 0x20 || op == 0x21 || decide (0x23 ≤ op)))

/-! ## Cipher engine -/

/-- The backend latch after a CIPHER_INIT was executed (spec/10_state.md R34). -/
def selected (s : State) : Backend :=
  if s.backend.locked then s.backend else { locked := true, accelSel := s.cfg.accelAvail }

/-- The mode of a code 0..6 (spec/40_cipher.md R76). -/
def modeNamed (code : Nat) : Mode := [Mode.ecb, .cbc, .pcbc, .cfb, .ofb, .ctr, .gcm].getD code .ecb

/-- BLOCK_STYLE (spec/40_cipher.md R76). -/
def blockStyle (m : Mode) : Bool := m == .ecb || m == .cbc || m == .pcbc

/-- `Keep(c, total)` (spec/40_cipher.md R83). -/
def kept (c : Slot) (total : Nat) : Nat :=
  if c.pad ∧ c.dir then (if total = 0 then 0 else (total - 1) % c.bs + 1) else total % c.bs

/-- The loop of CIPHER_UPDATE (spec/40_cipher.md R84): blocks 0 .. n−1 of `data`, output, R and ts carried along. -/
def blockLoop (t : Descriptor) (c : Slot) (data : List Byte) (n : Nat) : List Byte × List Byte × List Byte :=
  (List.range n).foldl
    (fun (out, r, ts) j =>
      let o := blockStep t c.mode c.dir c.bs r ts ((data.drop (j * c.bs)).take c.bs)
      (out ++ o.y, o.r, o.ts))
    ([], c.mod1.take c.bs, c.ts.getD [])

/-- What CIPHER_FINAL computes (spec/40_cipher.md R85): `out`, `R`, `ts`. In a padded decrypt the output is cut by the last
byte of the plaintext block. -/
def lastOutput (t : Descriptor) (c : Slot) : List Byte × List Byte × List Byte :=
  let r := c.mod1.take c.bs
  let ts := c.ts.getD []
  let part := c.buf.take c.fill
  if c.pad ∧ ¬ c.dir then
    let o := blockStep t c.mode c.dir c.bs r ts (part ++ List.replicate (c.bs - c.fill) (BitVec.ofNat 8 (c.bs - c.fill)))
    (o.y, o.r, o.ts)
  else if c.pad then
    let o := blockStep t c.mode c.dir c.bs r ts (c.buf.take c.bs)
    (o.y.take (c.bs - (o.y.getD (c.bs - 1) 0).toNat), o.r, o.ts)
  else if c.fill = 0 then ([], r, ts)
  else if c.mode = .ecb then
    let z := (if c.dir then transformDec else transformEnc) t ts (part ++ zeros (c.bs - c.fill))
    (z.1.take c.fill, r, z.2)
  else
    let z := transformEnc t ts r
    (xorBytes (z.1.take c.fill) part,
      if c.mode = .ofb then z.1 else if c.mode = .ctr ∨ c.mode = .gcm then ctrInc r c.bs else r, z.2)

/-- `L`: the claimed pad length of a padded decrypt (spec/40_cipher.md R85). -/
def padLength (t : Descriptor) (c : Slot) : Nat :=
  ((blockStep t c.mode c.dir c.bs (c.mod1.take c.bs) (c.ts.getD []) (c.buf.take c.bs)).y.getD (c.bs - 1) 0).toNat

/-- What of a slot a later command can observe (spec/10_state.md R41; spec/40_cipher.md R84): everything but BUF beyond
FILL. -/
def observable (c : Slot) : Slot := { c with buf := c.buf.take c.fill }

/-- A stream of CIPHER_UPDATEs on slot `ctx`. Before each one the host fills the Data RAM with `e.1` and the ARG registers
with `e.2`. Gives the last state, the concatenated input and the concatenated output read back, if every Update is OK. -/
def feed (ctx : Nat) : State → List (Memory × Args) → Option (State × List Byte × List Byte)
  | s, [] => some (s, [], [])
  | s, (m, x) :: rest =>
    match exec (.cipherUpdate ctx) { s with ram := m, pending := some ⟨encode (.cipherUpdate ctx), x⟩ } with
    | .next t =>
      if t.lastCode = .ok then
        (feed ctx t rest).map fun (u, i, o) =>
          (u, m.readBytes x[0].toNat x[1].toNat ++ i, t.ram.readBytes x[2].toNat t.bytesWritten.toNat ++ o)
      else none
    | _ => none

/-- A CIPHER_FINAL on slot `ctx` with Data RAM `m` and ARG registers `x`: its code and the output read back. -/
def finish (ctx : Nat) (s : State) (m : Memory) (x : Args) : Option (Code × List Byte) :=
  match exec (.cipherFinal ctx) { s with ram := m, pending := some ⟨encode (.cipherFinal ctx), x⟩ } with
  | .next t => some (t.lastCode, t.ram.readBytes x[2].toNat t.bytesWritten.toNat)
  | _ => none

/-- A CIPHER_INIT on slot `ctx` with Data RAM `m` and ARG registers `x`, when it completes OK. -/
def start (ctx : Nat) (s : State) (m : Memory) (x : Args) : Option State :=
  match exec (.cipherInit ctx) { s with ram := m, pending := some ⟨encode (.cipherInit ctx), x⟩ } with
  | .next t => if t.lastCode = .ok then some t else none
  | _ => none

/-- `s` with every GCM slot turned into a CTR slot. -/
def asCtr (s : State) : State :=
  { s with slots := s.slots.map fun c => if c.mode = .gcm then { c with mode := .ctr } else c }

/-! ## RSA datapath -/

/-- The eight components in index order (spec/10_state.md R35). -/
def keyComponents (k : RsaKey) : List (Option Nat) := [k.n, k.e, k.d, k.p, k.q, k.dmp, k.dmq, k.coef]

/-- The CRT quintet is present (spec/10_state.md R36). -/
def quintet (k : RsaKey) : Bool :=
  k.p.isSome && k.q.isSome && k.dmp.isSome && k.dmq.isSome && k.coef.isSome

/-- `Private(c)` (spec/41_rsa.md R97), when its checks pass. -/
def privateValue (k : RsaKey) (c : Nat) : Nat :=
  if quintet k then
    let p := k.p.getD 0
    let q := k.q.getD 0
    let m1 := c ^ k.dmp.getD 0 % p
    let m2 := c ^ k.dmq.getD 0 % q
    (((k.coef.getD 0 : Int) * ((m1 : Int) - (m2 : Int))) % (p : Int)).toNat * q + m2
  else c ^ k.d.getD 0 % k.n.getD 0

/-- The two guards of the CRT path (spec/41_rsa.md R97). -/
def privateGuards (k : RsaKey) (c : Nat) : List (Bool × Code) :=
  [ (!quintet k || (k.p != some 0 && k.q != some 0), .keyInconsistent)
  , (!quintet k || decide (privateValue k c < 256 ^ bytelen (k.n.getD 0)), .keyInconsistent) ]

/-- The key has what a private transform needs (spec/41_rsa.md R99). -/
def privateReady (k : RsaKey) : Bool := k.n.isSome && (quintet k || k.d.isSome)

/-- A type-1 block with `n` pad bytes: `00 01 ff … ff 00 ‖ data` (spec/41_rsa.md R101). -/
def type1 (n : Nat) (data : List Byte) : List Byte := [0x00, 0x01] ++ List.replicate n 0xFF ++ [0x00] ++ data

/-- A type-2 block with padding string `ps`: `00 02 ‖ ps ‖ 00 ‖ data` (spec/41_rsa.md R101). -/
def type2 (ps data : List Byte) : List Byte := [0x00, 0x02] ++ ps ++ [0x00] ++ data

/-- A type-1 or type-2 block and its data (spec/41_rsa.md R102). -/
def Padded (block data : List Byte) : Prop :=
  (∃ n, block = type1 n data) ∨ (∃ ps, (∀ b ∈ ps, b ≠ 0) ∧ block = type2 ps data)

/-- `ps` was drawn from the stream at `e`, leaving it at `e'` (spec/41_rsa.md R100, R101): no byte is zero; where the fixed
part of the stream has enough nonzero bytes, `ps` is what is left of the draws after the zero draws are discarded, the last
draw being a nonzero one. -/
def Drawn (e : Entropy) (ps : List Byte) (e' : Entropy) : Prop :=
  (∀ b ∈ ps, b ≠ 0) ∧
  (ps.length ≤ (e.queue.filter (· ≠ 0)).length →
    ∃ used, e.queue = used ++ e'.queue ∧ ps = used.filter (· ≠ 0) ∧ e'.pos = e.pos + used.length ∧
      (used = [] ∨ used.getLast? ≠ some 0))

/-- A consistent RSA key (spec/41_rsa.md R113) with the numbers `n e d p q`: N and E are present, and either the quintet is
consistent or it is not all present and D is. -/
def Consistent (k : RsaKey) (n e d p q : Nat) : Prop :=
  p.Prime ∧ q.Prime ∧ p ≠ q ∧ n = p * q ∧ e * d % Nat.lcm (p - 1) (q - 1) = 1 % Nat.lcm (p - 1) (q - 1) ∧
  k.n = some n ∧ k.e = some e ∧
  ((quintet k = false ∧ k.d = some d) ∨
   (k.p = some p ∧ k.q = some q ∧ k.dmp = some (d % (p - 1)) ∧ k.dmq = some (d % (q - 1)) ∧
    ∃ c, k.coef = some c ∧ c < p ∧ q * c % p = 1))

/-- The CRT formula of R97 gives `v^D mod N` for this `v`: always with odd primes, and with a prime 2 when `v` is odd. For an
even `v` and a prime 2 the formula takes `v^0 = 1` modulo 2, and R97's last clause and R113 fail (log entry 22). -/
def CrtExact (k : RsaKey) (p q v : Nat) : Prop := quintet k = true → (p = 2 ∨ q = 2) → v % 2 = 1

/-! ## EC unit -/

/-- The seven components in index order (spec/10_state.md R37). -/
def groupComponents (g : Group) : List (Option Nat) := [g.ep, g.ea, g.eb, g.gx, g.gy, g.en, g.eh]

/-- `OnCurve(x, y)` (spec/42_ec.md R114): EP divides y² − (x³ + EA·x + EB). -/
def liesOn (g : Group) (x y : Nat) : Bool :=
  decide ((g.ep.getD 0 : Int) ∣ (y : Int) ^ 2 - ((x : Int) ^ 3 + (g.ea.getD 0 : Int) * x + (g.eb.getD 0 : Int)))

/-- `Need({EP})` (spec/42_ec.md R115). -/
def fieldReady (g : Group) : Bool := g.ep.isSome && decide (3 ≤ g.ep.getD 0)

/-- `Need({EP, EA, EB})` (spec/42_ec.md R115). -/
def curveReady (g : Group) : Bool := fieldReady g && g.ea.isSome && g.eb.isSome

/-- The octets `b` stand for the point `pt` (spec/42_ec.md R125): infinity; two reduced coordinates on the curve; or a
reduced x and the parity of the least y in [0, EP) with y² = x³ + EA·x + EB mod EP and that parity. -/
def Decodes (g : Group) (b : List Byte) (pt : Point) : Prop :=
  let p := g.ep.getD 0
  let l := bytelen p
  let root (x y parity : Nat) : Prop :=
    y < p ∧ y ^ 2 % p = (x ^ 3 + g.ea.getD 0 * x + g.eb.getD 0) % p ∧ y % 2 = parity
  (b = [0x00] ∧ pt = ⟨true, true, 0, 0⟩) ∨
  (∃ x y, x < p ∧ y < p ∧ liesOn g x y = true ∧ b = 0x04 :: (i2os x l ++ i2os y l) ∧ pt = ⟨true, false, x, y⟩) ∨
  (∃ x y parity, x < p ∧ parity ≤ 1 ∧ root x y parity ∧ (∀ y', y' < y → ¬ root x y' parity) ∧
    b = BitVec.ofNat 8 (2 + parity) :: i2os x l ∧ pt = ⟨true, false, x, y⟩)

/-! ## Reset (spec/10_state.md R43) -/

/-- The values of the table of R43 that both resets give. -/
def IsReset (s : State) : Prop :=
  ((∀ k (h : k < 8), s.args[k] = 0) ∧ s.irqEn = false ∧ s.pending = none ∧ s.lastCode = .ok ∧ s.lastOp = 0) ∧
  (s.irq.done = false ∧ s.irq.err = false ∧ s.irq.overrun = false ∧ s.irq.ramlock = false) ∧
  (s.bytesWritten = 0 ∧ s.result = 0) ∧
  (s.slots.length = s.cfg.nctx ∧
    ∀ c ∈ s.slots,
      (c.valid = false ∧ c.ended = false ∧ c.dir = false ∧ c.pad = false) ∧
      (c.mode = .ecb ∧ c.alg = 0 ∧ c.bs = 0 ∧ c.fill = 0) ∧
      (c.buf = zeros 64 ∧ c.mod1 = zeros 64 ∧ c.mod2 = zeros 64 ∧ c.ts = none)) ∧
  (∀ v ∈ keyComponents s.rsa, v = none) ∧
  ((∀ v ∈ groupComponents s.group, v = none) ∧ s.group.form = false ∧ s.group.named = false ∧ s.group.curveId = 0) ∧
  (s.point.valid = false ∧ s.point.inf = false ∧ s.point.x = 0 ∧ s.point.y = 0)

/-! ## Registers -/

/-- The numbers of the status codes (spec/60_exceptions.md R129). -/
def codeNumber : Code → Nat
  | .ok => 0
  | .invalidKey => 1
  | .invalidParameters => 2
  | .bufferTooSmall => 3
  | .badPadding => 4
  | .valueTooLarge => 5
  | .outOfMemory => 6
  | .unsupportedPadding => 7
  | .primeCheckFailed => 8
  | .keyInconsistent => 9
  | .illegalCommand => 10

/-- The numbers of the modes (spec/40_cipher.md R76). -/
def modeNumber : Mode → Nat
  | .ecb => 0
  | .cbc => 1
  | .pcbc => 2
  | .cfb => 3
  | .ofb => 4
  | .ctr => 5
  | .gcm => 6

/-- A 32-bit read of register `off` answers `v` and changes nothing else. -/
def Reads (s : State) (off v : Nat) : Prop :=
  ∃ w : Word, w.toNat = v ∧ Bus s (.read off .w32) { s with reply := some (.data w) }

/-- A transaction that R51 lets pass: an aligned register word, or naturally aligned bytes of the Data RAM. -/
def legalAccess (s : State) (off : Nat) (w : Width) : Bool :=
  (decide (off < 0x1000) && w == .w32 && off % 4 == 0) ||
  (decide (0x4000 ≤ off) && decide (off + w.bytes ≤ 0x4000 + s.cfg.dramSize) && off % w.bytes == 0)

end Sys2Proof.Spec

section Statements
open Sys2Proof Sys2Proof.Machine Sys2Proof.Spec

/-! # Encodings -/

/-- The example encodings of spec/30_encoding.md R73. -/
def Obligations.ExampleEncodings : Prop :=
  decode 0x00000001 = .ok (.cipherInit 0) ∧ decode 0x00000102 = .ok (.cipherUpdate 1) ∧
  decode 0x00000303 = .ok (.cipherFinal 3) ∧ decode 0x00000013 = .ok .rsaPrivate ∧
  decode 0x00000117 = .ok (.rsaPubenc 1) ∧ decode 0x00000122 = .ok (.ecSetform 1) ∧
  decode 0x00001028 = .error .reservedBits ∧ decode 0x00010002 = .error .reservedBits ∧
  decode 0x00000006 = .error .unassignedOp ∧ decode 0x00000128 = .error .unusedSelector

/-- Decoding and encoding are inverse: a word decodes to a command exactly when the command is well-formed and the word is
its encoding (spec/30_encoding.md R64, R66, R68). -/
def Obligations.DecodeAndEncodeAgree : Prop :=
  ∀ (w : Word) (i : Instr), decode w = .ok i ↔ i.wf ∧ encode i = w

/-- spec/30_encoding.md R69: a word that matches a row decodes to the row's command with S = w[11:8]; no word matches two
rows; a word that matches no row completes with IllegalCommand. -/
def Obligations.DecoderMatchesMaskTable : Prop :=
  (∀ r ∈ rows, ∀ w : Word, r.Matches w → decode w = .ok (r.instr (w.extractLsb' 8 4).toNat)) ∧
  rows.Pairwise (fun r r' => ∀ w : Word, ¬ (r.Matches w ∧ r'.Matches w)) ∧
  (∀ (s : State) (p : Pending), s.pending = some p → (∀ r ∈ rows, ¬ r.Matches p.word) →
    Turn s (failed s p .illegalCommand))

/-- spec/60_exceptions.md R132: a word with RES nonzero, an OP outside the map, or S nonzero for a command that does not use
S, completes with IllegalCommand and changes no other state; every other word is a command; the example 0x00001028. -/
def Obligations.IllegalWordsComplete : Prop :=
  (∀ (s : State) (p : Pending), s.pending = some p → illegalWord p.word = true →
    Turn s (failed s p .illegalCommand)) ∧
  (∀ w : Word, illegalWord w = false ↔ ∃ i, decode w = .ok i) ∧
  (∀ (s : State) (p : Pending), s.pending = some p → p.word = 0x00001028 →
    ∃ t, Turn s t ∧ statusWord t = 0x00280A00)

/-! # The step -/

/-- When the accepted word decodes to command `i`, the engine's turn is `exec i` (spec/60_exceptions.md R130), whether the
turn is the next event or no event is left (the model's choice, log entry 5); `withFetchWord` sets up exactly that (log
entry 6). -/
def Obligations.StepRunsDecodedCommand : Prop :=
  (∀ (s : State) (p : Pending) (i : Instr), s.pending = some p → decode p.word = .ok i →
    step { s with inputs := .engine :: s.inputs } = exec i s ∧ (s.inputs = [] → step s = exec i s)) ∧
  (∀ (s : State) (nbits w : Nat) (i : Instr), decode (BitVec.ofNat 32 (w % 2 ^ nbits)) = .ok i →
    step (s.withFetchWord nbits w) = exec i { s with pending := some ⟨BitVec.ofNat 32 (w % 2 ^ nbits), s.args⟩ })

/-- No step of the machine stops: every state has a next state (spec/60_exceptions.md R128, R130). One event is used up, and
the configuration stays: the model's choices, log entries 5 and 1. While nothing is pending, a turn of the engine changes
nothing (spec/60_exceptions.md R149; the model's reading, log entry 9). -/
def Obligations.StepAlwaysAnswersNext : Prop :=
  (∀ s : State, ∃ t, step s = .next t ∧ t.inputs = s.inputs.tail ∧ t.cfg = s.cfg) ∧
  (∀ s : State, s.pending = none → Turn s s)

/-- The completion registers after any command, legal or not (spec/60_exceptions.md R130), and what no command changes: the
ARG registers, IRQ_EN, OVERRUN, RAMLOCK (spec/10_state.md R20, R28), and the model's own cfg, inputs and reply. -/
def Obligations.EveryCommandCompletes : Prop :=
  ∀ (s : State) (p : Pending), s.pending = some p → ∃ t, Turn s t ∧
    t.pending = none ∧ t.lastOp = p.word.extractLsb' 0 8 ∧ t.irq.done = true ∧
    t.irq.err = (s.irq.err || t.lastCode != .ok) ∧ (t.lastCode ≠ .ok → t.bytesWritten = 0 ∧ t.result = 0) ∧
    t.irq.overrun = s.irq.overrun ∧ t.irq.ramlock = s.irq.ramlock ∧ t.args = s.args ∧ t.irqEn = s.irqEn ∧
    t.cfg = s.cfg ∧ t.inputs = s.inputs ∧ t.reply = s.reply

/-- The state after power-on reset is one of the states of `State.Wf`, in every legal configuration and with every canonical
Data RAM. `State.reset` is one too; that clause rests on the model's choice of its configuration and Data RAM (log entries 2
and 3). -/
def Obligations.ResetIsWellFormed : Prop :=
  (∀ (cfg : Config) (ram : Memory), cfg.legal → ram.wf cfg.dramSize = true → (State.resetWith cfg ram).Wf) ∧
  State.reset.Wf

/-- Every step keeps `State.Wf`: the Data RAM canonical, the slots, key, group, point and backend registers as their rules
allow, BYTES_WRITTEN within the Data RAM, RESULT at most 2, and both 0 after an error. -/
def Obligations.StepKeepsWellFormed : Prop :=
  ∀ s t : State, s.Wf → step s = .next t → t.Wf

/-- spec/60_exceptions.md R131: a command that completes with a code other than OK leaves every state as it was, but for the
completion registers and the changes `survivors` lists. -/
def Obligations.FailedCommandLeavesState : Prop :=
  ∀ (s t : State) (p : Pending), s.pending = some p → Turn s t → t.lastCode ≠ .ok →
    t = failed (survivors s p.word) p t.lastCode

/-- spec/10_state.md R21: acceptance copies ARG0..ARG7 into the latch; a command reads only that copy; a host write to an ARG
register, busy or not, changes that register and leaves the latch alone. -/
def Obligations.CommandReadsOnlyItsSnapshot : Prop :=
  (∀ (s : State) (w : Word), s.pending = none →
    Bus s (.write 0x01C .w32 w) { s with pending := some ⟨w, s.args⟩, reply := some .ok }) ∧
  (∀ (i : Instr) (s t : State) (live : Args), exec i s = .next t →
    exec i { s with args := live } = .next { t with args := live }) ∧
  (∀ (s : State) (k : Nat) (h : k < 8) (v : Word),
    Bus s (.write (0x040 + 4 * k) .w32 v) { s with args := s.args.set k v h, reply := some .ok })

/-- The backend latch (spec/10_state.md R34): only a power-on reset clears it, and only the first CIPHER_INIT with
CTX < NCTX, whatever its outcome, sets it, to ACCEL_AVAIL; no host transaction changes it. That the engine moves when no event
is left, and that an idle engine's turn changes nothing, are the model's choice and reading (log entries 5 and 9). -/
def Obligations.BackendIsSelectedOnce : Prop :=
  ∀ s t : State, step s = .next t →
    t.backend =
      match s.inputs, s.pending with
      | .powerOn _ :: _, _ => ⟨false, false⟩
      | .bus _ :: _, _ => s.backend
      | _, none => s.backend
      | _, some p =>
        match decode p.word with
        | .ok (.cipherInit c) => if c < s.cfg.nctx then selected s else s.backend
        | _ => s.backend

/-- spec/40_cipher.md R75: the backend selection never changes a result. -/
def Obligations.BackendNeverChangesResults : Prop :=
  ∀ (i : Instr) (s t : State) (b : Backend), exec i s = .next t →
    ∃ b', exec i { s with backend := b } = .next { t with backend := b' }

/-! # Frames -/

/-- What the cipher commands leave alone: the other slots, the RSA key, the EC group and point, the ENTROPY position; and,
but for CIPHER_INIT, the backend latch. RESULT is 0 (spec/40_cipher.md section 4; spec/10_state.md R31). -/
def Obligations.CipherCommandsFrame : Prop :=
  ∀ (i : Instr) (ctx : Nat) (s t : State),
    i ∈ [Instr.cipherInit ctx, .cipherUpdate ctx, .cipherFinal ctx, .cipherRelease ctx, .cipherReadiv ctx] →
    exec i s = .next t →
      (∀ j, j ≠ ctx → t.slot j = s.slot j) ∧ t.slots.length = s.slots.length ∧
      t.rsa = s.rsa ∧ t.group = s.group ∧ t.point = s.point ∧ t.entropy = s.entropy ∧ t.result = 0 ∧
      (i ≠ .cipherInit ctx → t.backend = s.backend)

/-- What the RSA commands leave alone: every slot, the EC group and point, the backend latch; the key register, but for
RSA_LOADCOMP and RSA_CLEARKEY; the ENTROPY position, but for RSA_PAD2 and RSA_PUBENC with S = 1 (spec/41_rsa.md R94, R95,
R100). RESULT is 0 but after RSA_CHECKKEY (spec/10_state.md R31). -/
def Obligations.RsaCommandsFrame : Prop :=
  ∀ (i : Instr) (s t : State), 0x10 ≤ i.opcode.toNat → i.opcode.toNat ≤ 0x1B → exec i s = .next t →
    t.slots = s.slots ∧ t.group = s.group ∧ t.point = s.point ∧ t.backend = s.backend ∧
    (i ≠ .rsaLoadcomp → i ≠ .rsaClearkey → t.rsa = s.rsa) ∧
    (i ≠ .rsaPad2 → i ≠ .rsaPubenc 1 → t.entropy = s.entropy) ∧
    (i ≠ .rsaCheckkey → t.result = 0)

/-- What the EC commands leave alone: every slot, the RSA key, the backend latch, the ENTROPY position; the group register,
but for the commands that set it; FORM, but for EC_SETFORM and EC_CLEARGROUP; the point register, but for the commands that
set or invalidate it (spec/42_ec.md R116 to R125). RESULT is 0 but after EC_CHECKGROUP and EC_PT_CHECK (spec/10_state.md
R31). -/
def Obligations.EcCommandsFrame : Prop :=
  ∀ (i : Instr) (s t : State), 0x20 ≤ i.opcode.toNat → exec i s = .next t →
    t.slots = s.slots ∧ t.rsa = s.rsa ∧ t.backend = s.backend ∧ t.entropy = s.entropy ∧
    (i.opcode ∉ [0x20, 0x21, 0x22, 0x23] → t.group = s.group) ∧
    (i.opcode ∉ [0x22, 0x23] → t.group.form = s.group.form) ∧
    (i.opcode ∈ [0x22, 0x24, 0x27, 0x28] → t.point = s.point) ∧
    (i.opcode ∉ [0x24, 0x27] → t.result = 0)

/-- A command without a destination writes no byte: every Data RAM byte reads as before, and BYTES_WRITTEN is 0
(spec/30_encoding.md R67; spec/20_memory.md R46). -/
def Obligations.CommandsWithoutDestinationLeaveRam : Prop :=
  ∀ (i : Instr) (s t : State), storing i = false → exec i s = .next t →
    (∀ a, t.ram.read a = s.ram.read a) ∧ t.bytesWritten = 0

/-- A command with a destination writes at most the bytes `[dst, dst + n)`, where dst is ARG2 of the snapshot and n is the
value it leaves in BYTES_WRITTEN, never more than the capacity in ARG3; every other byte reads as before
(spec/20_memory.md R55). -/
def Obligations.CommandsWriteOnlyReportedBytes : Prop :=
  ∀ (i : Instr) (s t : State) (p : Pending), s.Wf → s.pending = some p → storing i = true → exec i s = .next t →
    (∀ a, a < p.args[2].toNat ∨ p.args[2].toNat + t.bytesWritten.toNat ≤ a → t.ram.read a = s.ram.read a) ∧
    t.bytesWritten.toNat ≤ p.args[3].toNat ∧
    (t.bytesWritten ≠ 0 → p.args[2].toNat + t.bytesWritten.toNat ≤ s.cfg.dramSize)

/-! # Cipher engine -/

/-- The table of spec/40_cipher.md R77, row by row, with E and D for T.enc and T.dec. -/
def Obligations.BlockStepTable : Prop :=
  ∀ (t : Descriptor) (bs : Nat) (r ts b : List Byte),
    let E := fun x => transformEnc t ts x
    let D := fun x => transformDec t ts x
    let xor := xorBytes
    blockStep t .ecb false bs r ts b = ⟨(E b).1, r, (E b).2⟩ ∧
    blockStep t .ecb true bs r ts b = ⟨(D b).1, r, (D b).2⟩ ∧
    blockStep t .cbc false bs r ts b = ⟨(E (xor b r)).1, (E (xor b r)).1, (E (xor b r)).2⟩ ∧
    blockStep t .cbc true bs r ts b = ⟨xor (D b).1 r, b, (D b).2⟩ ∧
    blockStep t .pcbc false bs r ts b = ⟨(E (xor b r)).1, xor b (E (xor b r)).1, (E (xor b r)).2⟩ ∧
    blockStep t .pcbc true bs r ts b = ⟨xor (D b).1 r, xor b (xor (D b).1 r), (D b).2⟩ ∧
    blockStep t .cfb false bs r ts b = ⟨xor (E r).1 b, xor (E r).1 b, (E r).2⟩ ∧
    blockStep t .cfb true bs r ts b = ⟨xor (E r).1 b, b, (E r).2⟩ ∧
    (∀ dir, blockStep t .ofb dir bs r ts b = ⟨xor (E r).1 b, (E r).1, (E r).2⟩) ∧
    (∀ dir, blockStep t .ctr dir bs r ts b = ⟨xor (E r).1 b, ctrInc r bs, (E r).2⟩) ∧
    (∀ dir, blockStep t .gcm dir bs r ts b = ⟨xor (E r).1 b, ctrInc r bs, (E r).2⟩)

/-- spec/40_cipher.md R78: the last `min(8, bs)` bytes count big-endian and wrap; the bytes before them do not change. -/
def Obligations.CounterCountsLowBytes : Prop :=
  ∀ (r : List Byte) (bs : Nat), r.length = bs →
    let w := min 8 bs
    (ctrInc r bs).length = bs ∧
    (ctrInc r bs).take (bs - w) = r.take (bs - w) ∧
    os2i ((ctrInc r bs).drop (bs - w)) = (os2i (r.drop (bs - w)) + 1) % 256 ^ w

/-- spec/40_cipher.md R79: MODE 6 behaves as MODE 5. A cipher command does to a state with its GCM slots read as CTR slots
what it does to the state itself, and CIPHER_INIT with MODE 5 sets up what it sets up with MODE 6. -/
def Obligations.GcmBehavesAsCtr : Prop :=
  (∀ (i : Instr) (ctx : Nat) (s t : State),
    i ∈ [Instr.cipherUpdate ctx, .cipherFinal ctx, .cipherRelease ctx, .cipherReadiv ctx] →
    exec i s = .next t → exec i (asCtr s) = .next (asCtr t)) ∧
  (∀ (ctx : Nat) (s t : State) (p : Pending), s.pending = some p → p.args[4].extractLsb' 8 4 = 6 →
    exec (.cipherInit ctx) s = .next t →
    exec (.cipherInit ctx) (asCtr { s with pending := some { p with args := p.args.set 4 (p.args[4] - 0x100) } }) =
      .next (asCtr t))

/-- spec/40_cipher.md R82: CIPHER_INIT, its encoding, its eight checks in order, the slot it sets up, the backend latch, and
the clear of the slot that survives every failure after check (1). -/
def Obligations.CipherInitSetsUpContext : Prop :=
  (∀ ctx, ctx < 16 → decode (BitVec.ofNat 32 (0x01 + ctx * 256)) = .ok (.cipherInit ctx)) ∧
  ∀ (ctx : Nat) (s : State) (p : Pending), s.pending = some p →
    let x := p.args
    let mapped := lookupTransform s.cfg (x[4].extractLsb' 0 8)
    let t := mapped.getD ⟨0, [], false, .rotXor⟩
    let mode := (x[4].extractLsb' 8 4).toNat
    let needIv := mode != 0 || t.stream
    let iv := if needIv then s.ram.readBytes x[5].toNat t.bs else zeros t.bs
    let ts := transformKs t (bytesAt s x[0] x[1]) iv
    let cleared : State := { s with backend := selected s, slots := s.slots.set ctx Slot.cleared }
    let slot : Slot :=
      { valid := true, ended := false, dir := x[4].getLsbD 12
        pad := x[4].getLsbD 13 && blockStyle (modeNamed mode) && !t.stream
        mode := modeNamed mode, alg := x[4].extractLsb' 0 8, bs := t.bs, fill := 0
        buf := zeros 64, mod1 := (if mode = 0 then zeros t.bs else iv) ++ zeros (64 - t.bs), mod2 := zeros 64, ts := ts }
    (∀ d, mapped = some d → d.wf) →
    Runs (.cipherInit ctx) s
      [ (decide (ctx < s.cfg.nctx), .invalidParameters)
      , (x[4].extractLsb' 14 18 == 0 && decide (mode ≤ 6), .invalidParameters)
      , (mapped.isSome, .invalidKey)
      , (!t.stream || mode == 0, .invalidParameters)
      , (inside s x[0] x[1], .invalidParameters)
      , (!needIv || decide (x[5].toNat + t.bs ≤ s.cfg.dramSize), .invalidParameters)
      , (decide (x[1].toNat ≤ s.cfg.maxKey) && t.keyLens.contains x[1].toNat, .invalidKey)
      , (ts.isSome, .invalidKey) ]
      (completed { s with backend := selected s, slots := s.slots.set ctx slot } p 0 0)
      (fun code => failed (if ctx < s.cfg.nctx then cleared else s) p code)

/-- spec/40_cipher.md R84 with R83: CIPHER_UPDATE, its encoding, its six checks in order, the blocks it runs, the bytes it
writes and what it leaves in the slot. -/
def Obligations.CipherUpdateProcessesBlocks : Prop :=
  (∀ ctx, ctx < 16 → decode (BitVec.ofNat 32 (0x02 + ctx * 256)) = .ok (.cipherUpdate ctx)) ∧
  ∀ (ctx : Nat) (s : State) (p : Pending), s.pending = some p →
    let x := p.args
    let c := s.slot ctx
    let data := c.buf.take c.fill ++ bytesAt s x[0] x[1]
    let keep := kept c data.length
    let nblk := (data.length - keep) / c.bs
    let done := blockLoop (slotTransform s.cfg c) c data nblk
    let slot : Slot :=
      { c with
        mod1 := done.2.1 ++ c.mod1.drop done.2.1.length
        ts := some done.2.2
        buf := data.drop (data.length - keep) ++ c.buf.drop keep
        fill := keep }
    Runs (.cipherUpdate ctx) s
      [ (decide (ctx < s.cfg.nctx), .invalidParameters)
      , (c.valid, .invalidParameters)
      , (!c.ended, .invalidParameters)
      , (inside s x[0] x[1], .invalidParameters)
      , (inside s x[2] x[3], .invalidParameters)
      , (decide (nblk * c.bs ≤ x[3].toNat), .bufferTooSmall) ]
      (wrote { s with slots := s.slots.set ctx slot } p x[2].toNat done.1)
      (failed s p)

/-- spec/40_cipher.md R85: CIPHER_FINAL, its encoding, its checks in order with the ENDED ← 1 that survives them, its output
per padding and mode, and its idempotence. -/
def Obligations.CipherFinalEndsContext : Prop :=
  (∀ ctx, ctx < 16 → decode (BitVec.ofNat 32 (0x03 + ctx * 256)) = .ok (.cipherFinal ctx)) ∧
  ∀ (ctx : Nat) (s : State) (p : Pending), s.pending = some p →
    let x := p.args
    let c := s.slot ctx
    let t := slotTransform s.cfg c
    let last := lastOutput t c
    let found : List (Bool × Code) :=
      [(decide (ctx < s.cfg.nctx), .invalidParameters), (c.valid, .invalidParameters)]
    let content : List (Bool × Code) :=
      [ (inside s x[2] x[3], .invalidParameters)
      , (!(c.pad && c.dir) || c.fill == c.bs, .badPadding)
      , (!(c.pad && c.dir) || (padLength t c != 0 && decide (padLength t c ≤ c.bs)), .badPadding)
      , (c.pad || c.fill == 0 || !blockStyle c.mode || t.stream, .invalidParameters)
      , (decide (last.1.length ≤ x[3].toNat), .bufferTooSmall) ]
    let ended : State := { s with slots := s.slots.set ctx { c with ended := true } }
    let finished : Slot :=
      { c with ended := true, mod1 := last.2.1 ++ c.mod1.drop last.2.1.length, ts := some last.2.2, fill := 0 }
    if c.ended then Runs (.cipherFinal ctx) s found (completed s p 0 0) (failed s p)
    else Runs (.cipherFinal ctx) s (found ++ content)
      (wrote { s with slots := s.slots.set ctx finished } p x[2].toNat last.1)
      (fun code => failed (if ctx < s.cfg.nctx ∧ c.valid then ended else s) p code)

/-- spec/40_cipher.md R86 and R87: CIPHER_RELEASE clears the slot, valid or not; CIPHER_READIV writes the BS used bytes of
MOD1 and changes no context. Encodings and checks in order. -/
def Obligations.CipherReleaseAndReadiv : Prop :=
  (∀ ctx, ctx < 16 → decode (BitVec.ofNat 32 (0x04 + ctx * 256)) = .ok (.cipherRelease ctx) ∧
    decode (BitVec.ofNat 32 (0x05 + ctx * 256)) = .ok (.cipherReadiv ctx)) ∧
  ∀ (ctx : Nat) (s : State) (p : Pending), s.pending = some p →
    let x := p.args
    let c := s.slot ctx
    Runs (.cipherRelease ctx) s
      [(decide (ctx < s.cfg.nctx), .invalidParameters)]
      (completed { s with slots := s.slots.set ctx Slot.cleared } p 0 0) (failed s p) ∧
    Runs (.cipherReadiv ctx) s
      [ (decide (ctx < s.cfg.nctx), .invalidParameters)
      , (c.valid, .invalidParameters)
      , (inside s x[2] x[3], .invalidParameters)
      , (decide (c.bs ≤ x[3].toNat), .bufferTooSmall) ]
      (wrote s p x[2].toNat (c.mod1.take c.bs)) (failed s p)

/-- The context state machine of spec/40_cipher.md R89, and R88: DIR (and MODE, ALG, BS, PAD) stay until a new
CIPHER_INIT. -/
def Obligations.ContextStateMachine : Prop :=
  ∀ (ctx : Nat) (s t : State), s.Wf → ctx < s.cfg.nctx →
    let c := s.slot ctx
    let d := t.slot ctx
    (exec (.cipherInit ctx) s = .next t →
      (t.lastCode = .ok → d.valid = true ∧ d.ended = false) ∧ (t.lastCode ≠ .ok → d = Slot.cleared)) ∧
    (exec (.cipherRelease ctx) s = .next t → t.lastCode = .ok ∧ d = Slot.cleared) ∧
    (∀ i ∈ [Instr.cipherUpdate ctx, .cipherFinal ctx, .cipherReadiv ctx], exec i s = .next t →
      (c.valid = false → t.lastCode = .invalidParameters ∧ d = c) ∧
      (d.valid = c.valid ∧ d.dir = c.dir ∧ d.mode = c.mode ∧ d.alg = c.alg ∧ d.bs = c.bs ∧ d.pad = c.pad)) ∧
    (exec (.cipherUpdate ctx) s = .next t → c.valid = true →
      (c.ended = false → d.ended = false) ∧ (c.ended = true → t.lastCode = .invalidParameters ∧ d = c)) ∧
    (exec (.cipherFinal ctx) s = .next t → c.valid = true →
      d.ended = true ∧ (c.ended = true → t.lastCode = .ok ∧ t.bytesWritten = 0 ∧ d = c)) ∧
    (exec (.cipherReadiv ctx) s = .next t → d = c)

/-- spec/40_cipher.md R90 (c), chunking independence: two streams of CIPHER_UPDATEs from equal contexts that were given the
same input in all, however it was divided and wherever it lay, wrote the same output in all, leave equal observable contexts,
and any CIPHER_FINAL after them ends with the same code and output. -/
def Obligations.ChunkingIndependence : Prop :=
  ∀ (ctx : Nat) (s s' u u' : State) (xs ys : List (Memory × Args)) (input out out' : List Byte),
    s.Wf → s'.Wf → s.cfg = s'.cfg → ctx < s.cfg.nctx → s.slot ctx = s'.slot ctx →
    (∀ e ∈ xs ++ ys, e.1.wf s.cfg.dramSize = true) →
    feed ctx s xs = some (u, input, out) → feed ctx s' ys = some (u', input, out') →
    out = out' ∧ observable (u.slot ctx) = observable (u'.slot ctx) ∧
    ∀ (m m' : Memory) (x : Args), m.wf s.cfg.dramSize = true → m'.wf s.cfg.dramSize = true →
      finish ctx u m x = finish ctx u' m' x

/-- spec/40_cipher.md R90 (a), round trip, for every transform with the round-trip property `RoundTrips`: a block transform's
is R74's; a stream transform's is the model's reading of what R90 (a) counts on (log entry 23). What a context encrypts
(CIPHER_INIT, any CIPHER_UPDATEs, a CIPHER_FINAL, all OK), a context with the same ALG, MODE, PAD_EN, key and IV and DIR = 1
decrypts to the same bytes, and its CIPHER_FINAL is OK when its destination is in the Data RAM and wide enough. -/
def Obligations.CipherRoundTrip : Prop :=
  ∀ (ctx ctx' : Nat) (s s' a a' b b' : State) (t : Descriptor) (me md mf mg : Memory) (xe xd xf xg : Args)
    (es ds : List (Memory × Args)) (plain c1 c2 p1 : List Byte) (used : List Byte → Prop),
    s.Wf → s'.Wf → s.cfg = s'.cfg → ctx < s.cfg.nctx → ctx' < s.cfg.nctx →
    lookupTransform s.cfg (xe[4].extractLsb' 0 8) = some t → RoundTrips t used →
    xe[4].getLsbD 12 = false → xd[4] = xe[4] ||| 0x1000 →
    me.readBytes xe[0].toNat xe[1].toNat = md.readBytes xd[0].toNat xd[1].toNat →
    (xe[4].extractLsb' 8 4 ≠ 0 ∨ t.stream = true → me.readBytes xe[5].toNat t.bs = md.readBytes xd[5].toNat t.bs) →
    (∀ e ∈ es ++ ds, e.1.wf s.cfg.dramSize = true) →
    me.wf s.cfg.dramSize = true → md.wf s.cfg.dramSize = true →
    mf.wf s.cfg.dramSize = true → mg.wf s.cfg.dramSize = true →
    start ctx s me xe = some a → feed ctx a es = some (b, plain, c1) → finish ctx b mf xf = some (.ok, c2) →
    start ctx' s' md xd = some a' → feed ctx' a' ds = some (b', c1 ++ c2, p1) →
    xg[2].toNat + xg[3].toNat ≤ s.cfg.dramSize → plain.length ≤ xg[3].toNat →
    ∃ p2, finish ctx' b' mg xg = some (.ok, p2) ∧ p1 ++ p2 = plain

/-! # RSA datapath -/

/-- spec/41_rsa.md R94 and R95: RSA_LOADCOMP sets one component, by index, to the big-endian value of the source;
RSA_CLEARKEY makes every component absent. Encodings and checks in order. -/
def Obligations.RsaLoadcompAndClearkey : Prop :=
  decode 0x00000010 = .ok .rsaLoadcomp ∧ decode 0x00000011 = .ok .rsaClearkey ∧
  ∀ (s : State) (p : Pending), s.pending = some p →
    let x := p.args
    (∃ k, keyComponents k = (keyComponents s.rsa).set x[4].toNat (some (os2i (bytesAt s x[0] x[1]))) ∧
      Runs .rsaLoadcomp s
        [ (inside s x[0] x[1], .invalidParameters)
        , (decide (x[4].toNat ≤ 7), .invalidParameters)
        , (decide (x[1].toNat ≤ s.cfg.bnMax), .outOfMemory) ]
        (completed { s with rsa := k } p 0 0) (failed s p)) ∧
    (∃ k, (∀ v ∈ keyComponents k, v = none) ∧ exec .rsaClearkey s = .next (completed { s with rsa := k } p 0 0))

/-- spec/41_rsa.md R98 with R96: RSA_PUBLIC writes `m^E mod N` as k bytes. Encoding and checks in order. -/
def Obligations.RsaPublicTransform : Prop :=
  decode 0x00000012 = .ok .rsaPublic ∧
  ∀ (s : State) (p : Pending), s.pending = some p →
    let x := p.args
    let n := s.rsa.n.getD 0
    let m := os2i (bytesAt s x[0] x[1])
    Runs .rsaPublic s
      [ (inside s x[0] x[1], .invalidParameters)
      , (inside s x[2] x[3], .invalidParameters)
      , (s.rsa.n.isSome && s.rsa.e.isSome, .invalidKey)
      , (decide (x[1].toNat ≤ s.cfg.bnMax), .outOfMemory)
      , (decide (m < n), .valueTooLarge)
      , (decide (bytelen n ≤ x[3].toNat), .bufferTooSmall) ]
      (wrote s p x[2].toNat (i2os (m ^ s.rsa.e.getD 0 % n) (bytelen n))) (failed s p)

/-- spec/41_rsa.md R99: RSA_PRIVATE writes Private(c), by the CRT formula of R97 when the quintet is present and as
`c^D mod N` otherwise, as k bytes. Encoding and checks in order. -/
def Obligations.RsaPrivateTransform : Prop :=
  decode 0x00000013 = .ok .rsaPrivate ∧
  ∀ (s : State) (p : Pending), s.pending = some p →
    let x := p.args
    let n := s.rsa.n.getD 0
    let c := os2i (bytesAt s x[0] x[1])
    Runs .rsaPrivate s
      ([ (inside s x[0] x[1], .invalidParameters)
       , (inside s x[2] x[3], .invalidParameters)
       , (privateReady s.rsa, .invalidKey)
       , (decide (x[1].toNat ≤ s.cfg.bnMax), .outOfMemory)
       , (decide (c < n), .valueTooLarge) ] ++ privateGuards s.rsa c ++
       [ (decide (bytelen n ≤ x[3].toNat), .bufferTooSmall) ])
      (wrote s p x[2].toNat (i2os (privateValue s.rsa c) (bytelen n))) (failed s p)

/-- spec/41_rsa.md R103 and R104 with R101: RSA_PAD1 writes the type-1 block; RSA_PAD2 writes a type-2 block with a padding
string drawn from ENTROPY, which a failing command does not touch. `Drawn` says what a draw may give in the model's form of
ENTROPY (the model's choice, log entry 14). Encodings and checks in order. -/
def Obligations.RsaPadBlocks : Prop :=
  decode 0x00000014 = .ok .rsaPad1 ∧ decode 0x00000015 = .ok .rsaPad2 ∧
  ∀ (s : State) (p : Pending), s.pending = some p →
    let x := p.args
    let data := bytesAt s x[0] x[1]
    let n := x[4].toNat - x[1].toNat - 3
    let checks : List (Bool × Code) :=
      [ (inside s x[0] x[1], .invalidParameters)
      , (inside s x[2] x[3], .invalidParameters)
      , (decide (x[1].toNat + 3 ≤ x[4].toNat), .invalidParameters)
      , (decide (x[4].toNat ≤ x[3].toNat), .bufferTooSmall) ]
    Runs .rsaPad1 s checks
      (wrote s p x[2].toNat (type1 n data)) (failed s p) ∧
    ∃ (ps : List Byte) (e : Entropy), ps.length = n ∧ Drawn s.entropy ps e ∧
      Runs .rsaPad2 s checks
        (wrote { s with entropy := e } p x[2].toNat (type2 ps data)) (failed s p)

/-- spec/41_rsa.md R105 with R102: RSA_UNPAD writes the data of a type-1 or type-2 block; any other block is BadPadding.
Encoding and checks in order. -/
def Obligations.RsaUnpadBlocks : Prop :=
  decode 0x00000016 = .ok .rsaUnpad ∧
  ∀ (s : State) (p : Pending), s.pending = some p →
    let x := p.args
    let block := bytesAt s x[0] x[1]
    let regions : List (Bool × Code) :=
      [(inside s x[0] x[1], .invalidParameters), (inside s x[2] x[3], .invalidParameters)]
    (∀ data, Padded block data →
      Runs .rsaUnpad s (regions ++ [(decide (data.length ≤ x[3].toNat), .bufferTooSmall)])
        (wrote s p x[2].toNat data) (failed s p)) ∧
    ((¬ ∃ data, Padded block data) →
      Runs .rsaUnpad s (regions ++ [(false, .badPadding)]) s (failed s p))

/-- spec/41_rsa.md R107: RSA_PUBENC. S = 0 is RSA_PUBLIC; S = 1 encrypts a type-2 block of the data; S of 2 and more is
UnsupportedPadding before any other check. `Drawn` says what a draw may give in the model's form of ENTROPY (the model's
choice, log entry 14). -/
def Obligations.RsaPublicEncrypt : Prop :=
  (∀ pad, pad < 16 → decode (BitVec.ofNat 32 (0x17 + pad * 256)) = .ok (.rsaPubenc pad)) ∧
  ∀ (s : State) (p : Pending), s.pending = some p →
    let x := p.args
    let n := s.rsa.n.getD 0
    let k := bytelen n
    (∀ pad, 2 ≤ pad → exec (.rsaPubenc pad) s = .next (failed s p .unsupportedPadding)) ∧
    exec (.rsaPubenc 0) s = exec .rsaPublic s ∧
    ∃ (ps : List Byte) (e : Entropy), ps.length = k - x[1].toNat - 3 ∧ Drawn s.entropy ps e ∧
      let block := type2 ps (bytesAt s x[0] x[1])
      Runs (.rsaPubenc 1) s
        [ (inside s x[0] x[1], .invalidParameters)
        , (inside s x[2] x[3], .invalidParameters)
        , (s.rsa.n.isSome && s.rsa.e.isSome, .invalidKey)
        , (decide (x[1].toNat + 3 ≤ k), .invalidParameters)
        , (decide (k ≤ x[3].toNat), .bufferTooSmall) ]
        (wrote { s with entropy := e } p x[2].toNat (i2os (os2i block ^ s.rsa.e.getD 0 % n) k)) (failed s p)

/-- spec/41_rsa.md R108: RSA_PRIVDEC. S = 0 is RSA_PRIVATE; S = 1 unpads the private transform of the source; S of 2 and more
is UnsupportedPadding. -/
def Obligations.RsaPrivateDecrypt : Prop :=
  (∀ pad, pad < 16 → decode (BitVec.ofNat 32 (0x18 + pad * 256)) = .ok (.rsaPrivdec pad)) ∧
  ∀ (s : State) (p : Pending), s.pending = some p →
    let x := p.args
    let n := s.rsa.n.getD 0
    let c := os2i (bytesAt s x[0] x[1])
    let block := i2os (privateValue s.rsa c) (bytelen n)
    let checks : List (Bool × Code) :=
      [ (inside s x[0] x[1], .invalidParameters)
      , (inside s x[2] x[3], .invalidParameters)
      , (privateReady s.rsa, .invalidKey)
      , (decide (x[1].toNat ≤ s.cfg.bnMax), .outOfMemory)
      , (decide (c < n), .valueTooLarge) ] ++ privateGuards s.rsa c
    (∀ pad, 2 ≤ pad → exec (.rsaPrivdec pad) s = .next (failed s p .unsupportedPadding)) ∧
    exec (.rsaPrivdec 0) s = exec .rsaPrivate s ∧
    (∀ data, Padded block data →
      Runs (.rsaPrivdec 1) s (checks ++ [(decide (data.length ≤ x[3].toNat), .bufferTooSmall)])
        (wrote s p x[2].toNat data) (failed s p)) ∧
    ((¬ ∃ data, Padded block data) →
      Runs (.rsaPrivdec 1) s (checks ++ [(false, .badPadding)]) s (failed s p))

/-- spec/41_rsa.md R109: RSA_PRIVENC. S = 0 is RSA_PRIVATE; S = 1 is the private transform of the type-1 block of the data; S
of 2 and more is UnsupportedPadding. -/
def Obligations.RsaPrivateEncrypt : Prop :=
  (∀ pad, pad < 16 → decode (BitVec.ofNat 32 (0x19 + pad * 256)) = .ok (.rsaPrivenc pad)) ∧
  ∀ (s : State) (p : Pending), s.pending = some p →
    let x := p.args
    let n := s.rsa.n.getD 0
    let k := bytelen n
    let block := type1 (k - x[1].toNat - 3) (bytesAt s x[0] x[1])
    (∀ pad, 2 ≤ pad → exec (.rsaPrivenc pad) s = .next (failed s p .unsupportedPadding)) ∧
    exec (.rsaPrivenc 0) s = exec .rsaPrivate s ∧
    Runs (.rsaPrivenc 1) s
      ([ (inside s x[0] x[1], .invalidParameters)
       , (inside s x[2] x[3], .invalidParameters)
       , (privateReady s.rsa, .invalidKey)
       , (decide (x[1].toNat + 3 ≤ k), .invalidParameters)
       , (decide (k ≤ x[3].toNat), .bufferTooSmall) ] ++ privateGuards s.rsa (os2i block))
      (wrote s p x[2].toNat (i2os (privateValue s.rsa (os2i block)) k)) (failed s p)

/-- spec/41_rsa.md R110: RSA_PUBDEC. S = 0 is RSA_PUBLIC; S = 1 unpads the public transform of the source; S of 2 and more is
UnsupportedPadding. -/
def Obligations.RsaPublicDecrypt : Prop :=
  (∀ pad, pad < 16 → decode (BitVec.ofNat 32 (0x1A + pad * 256)) = .ok (.rsaPubdec pad)) ∧
  ∀ (s : State) (p : Pending), s.pending = some p →
    let x := p.args
    let n := s.rsa.n.getD 0
    let m := os2i (bytesAt s x[0] x[1])
    let block := i2os (m ^ s.rsa.e.getD 0 % n) (bytelen n)
    let checks : List (Bool × Code) :=
      [ (inside s x[0] x[1], .invalidParameters)
      , (inside s x[2] x[3], .invalidParameters)
      , (s.rsa.n.isSome && s.rsa.e.isSome, .invalidKey)
      , (decide (x[1].toNat ≤ s.cfg.bnMax), .outOfMemory)
      , (decide (m < n), .valueTooLarge) ]
    (∀ pad, 2 ≤ pad → exec (.rsaPubdec pad) s = .next (failed s p .unsupportedPadding)) ∧
    exec (.rsaPubdec 0) s = exec .rsaPublic s ∧
    (∀ data, Padded block data →
      Runs (.rsaPubdec 1) s (checks ++ [(decide (data.length ≤ x[3].toNat), .bufferTooSmall)])
        (wrote s p x[2].toNat data) (failed s p)) ∧
    ((¬ ∃ data, Padded block data) →
      Runs (.rsaPubdec 1) s (checks ++ [(false, .badPadding)]) s (failed s p))

/-- spec/41_rsa.md R112 with R111: RSA_CHECKKEY, its encoding, its eight checks in order, and RESULT 2 for a public-only key,
1 otherwise. -/
def Obligations.RsaKeyCheck : Prop :=
  decode 0x0000001B = .ok .rsaCheckkey ∧
  ∀ (s : State) (p : Pending), s.pending = some p →
    let k := s.rsa
    let n := k.n.getD 0
    let e := k.e.getD 0
    let d := k.d.getD 0
    let pr := k.p.getD 0
    let q := k.q.getD 0
    let onlyPublic := [k.d, k.p, k.q, k.dmp, k.dmq, k.coef].all (·.isNone)
    let basic : List (Bool × Code) :=
      [ (k.n.isSome && k.e.isSome, .invalidKey), (e % 2 != 0 && e != 1, .keyInconsistent) ]
    let factors : List (Bool × Code) := [(k.p.isSome == k.q.isSome, .keyInconsistent)]
    let full : List (Bool × Code) :=
      [ (primeTest pr && primeTest q, .primeCheckFailed)
      , (pr * q == n, .keyInconsistent)
      , (k.d.isNone || k.dmp.isNone || d % (pr - 1) == k.dmp.getD 0, .keyInconsistent)
      , (k.d.isNone || k.dmq.isNone || d % (q - 1) == k.dmq.getD 0, .keyInconsistent)
      , (k.coef.isSome && decide (k.coef.getD 0 < pr) && q * k.coef.getD 0 % pr == 1, .keyInconsistent) ]
    Runs .rsaCheckkey s
      (if onlyPublic then basic else if k.p.isNone then basic ++ factors else basic ++ factors ++ full)
      (completed s p 0 (if onlyPublic then 2 else 1)) (failed s p)

/-- spec/41_rsa.md R113 (b): with a consistent key, RSA_PRIVATE by the CRT path does exactly what it does with N and D alone.
With a prime 2 the statement leaves out even operands, where R97's formula disagrees with R113 (the model's reading, log entry
22). -/
def Obligations.CrtEqualsPlainExponentiation : Prop :=
  ∀ (s t : State) (pd : Pending) (n e d p q : Nat), s.pending = some pd → Consistent s.rsa n e d p q →
    quintet s.rsa = true → CrtExact s.rsa p q (os2i (bytesAt s pd.args[0] pd.args[1])) →
    exec .rsaPrivate s = .next t →
    let plain : RsaKey := { RsaKey.empty with n := some n, d := some d }
    exec .rsaPrivate { s with rsa := plain } = .next { t with rsa := plain }

/-- spec/41_rsa.md R113 (a): with a consistent key, RSA_PRIVATE on the k bytes RSA_PUBLIC wrote gives back the
number. With a prime 2 in the CRT quintet the statement leaves out even numbers (the model's reading, log entry 22). -/
def Obligations.PrivateInvertsPublic : Prop :=
  ∀ (s t : State) (pd : Pending) (n e d p q : Nat) (w : Word) (x : Args), s.Wf → s.pending = some pd →
    Consistent s.rsa n e d p q → CrtExact s.rsa p q (os2i (bytesAt s pd.args[0] pd.args[1])) →
    exec .rsaPublic s = .next t → t.lastCode = .ok →
    x[0] = pd.args[2] → x[1].toNat = bytelen n → inside s x[2] x[3] = true → bytelen n ≤ x[3].toNat →
    ∃ u, exec .rsaPrivate { t with pending := some ⟨w, x⟩ } = .next u ∧ u.lastCode = .ok ∧
      u.bytesWritten.toNat = bytelen n ∧
      os2i (u.ram.readBytes x[2].toNat (bytelen n)) = os2i (bytesAt s pd.args[0] pd.args[1])

/-- spec/41_rsa.md R113 (c): with a consistent key, RSA_PRIVDEC with S = 1 inverts RSA_PUBENC with S = 1, and RSA_PUBDEC with
S = 1 inverts RSA_PRIVENC with S = 1, whatever ENTROPY yields. With a prime 2 in the CRT quintet the statement leaves out data
whose value is even (the model's reading, log entry 22). -/
def Obligations.PaddedRoundTrips : Prop :=
  ∀ (there back : Instr), (there, back) ∈ [(Instr.rsaPubenc 1, Instr.rsaPrivdec 1), (.rsaPrivenc 1, .rsaPubdec 1)] →
  ∀ (s t : State) (pd : Pending) (n e d p q : Nat) (w : Word) (x : Args), s.Wf → s.pending = some pd →
    Consistent s.rsa n e d p q → CrtExact s.rsa p q (os2i (bytesAt s pd.args[0] pd.args[1])) →
    exec there s = .next t → t.lastCode = .ok →
    x[0] = pd.args[2] → x[1].toNat = bytelen n → inside s x[2] x[3] = true → pd.args[1].toNat ≤ x[3].toNat →
    ∃ u, exec back { t with pending := some ⟨w, x⟩ } = .next u ∧ u.lastCode = .ok ∧
      u.bytesWritten = pd.args[1] ∧
      u.ram.readBytes x[2].toNat pd.args[1].toNat = bytesAt s pd.args[0] pd.args[1]

/-! # EC unit -/

/-- spec/42_ec.md R116: EC_LOADCOMP sets one component, by index; the group is no longer a named one, FORM stays, and the
point is invalid. Encoding and checks in order. -/
def Obligations.EcLoadcomp : Prop :=
  decode 0x00000020 = .ok .ecLoadcomp ∧
  ∀ (s : State) (p : Pending), s.pending = some p →
    let x := p.args
    ∃ g, groupComponents g = (groupComponents s.group).set x[4].toNat (some (os2i (bytesAt s x[0] x[1]))) ∧
      g.form = s.group.form ∧ g.named = false ∧ g.curveId = 0 ∧
      Runs .ecLoadcomp s
        [ (inside s x[0] x[1], .invalidParameters)
        , (decide (x[4].toNat ≤ 6), .invalidParameters)
        , (decide (x[1].toNat ≤ s.cfg.bnMax), .outOfMemory) ]
        (completed { s with group := g, point := ⟨false, false, 0, 0⟩ } p 0 0) (failed s p)

/-- spec/42_ec.md R117 and R127: EC_SETCURVE loads the ROM record of its id and invalidates the point, an id without a record
is InvalidParameters, and EC_CHECKGROUP after it gives RESULT = 1. -/
def Obligations.EcNamedCurves : Prop :=
  decode 0x00000021 = .ok .ecSetcurve ∧
  ∀ (s : State) (p : Pending), s.pending = some p →
    let id := p.args[4].toNat
    (s.cfg.curveRom.find? (fun r => r.1.toNat == id) = none →
      exec .ecSetcurve s = .next (failed s p .invalidParameters)) ∧
    (∀ code r, s.cfg.curveRom.find? (fun r => r.1.toNat == id) = some (code, r) →
      let loaded : State := completed { s with
        group := ⟨some r.p, some r.a, some r.b, some r.gx, some r.gy, some r.n, some r.h, s.group.form, true, code⟩
        point := ⟨false, false, 0, 0⟩ } p 0 0
      exec .ecSetcurve s = .next loaded ∧
      (s.cfg.legal → ∀ p', exec .ecCheckgroup { loaded with pending := some p' } = .next (completed loaded p' 0 1)))

/-- spec/42_ec.md R118 and R119: EC_SETFORM sets FORM and nothing else; EC_CLEARGROUP clears the group and the point.
Encodings and checks in order. -/
def Obligations.EcFormAndCleargroup : Prop :=
  (∀ form, form < 16 → decode (BitVec.ofNat 32 (0x22 + form * 256)) = .ok (.ecSetform form)) ∧
  decode 0x00000023 = .ok .ecCleargroup ∧
  ∀ (s : State) (p : Pending), s.pending = some p →
    (∀ form, Runs (.ecSetform form) s [(decide (form ≤ 1), .invalidParameters)]
      (completed { s with group := { s.group with form := decide (form = 1) } } p 0 0) (failed s p)) ∧
    (∃ g, (∀ v ∈ groupComponents g, v = none) ∧ g.form = false ∧ g.named = false ∧ g.curveId = 0 ∧
      exec .ecCleargroup s = .next (completed { s with group := g, point := ⟨false, false, 0, 0⟩ } p 0 0))

/-- spec/42_ec.md R120 and R123: EC_CHECKGROUP and EC_PT_CHECK report 1 or 0 in RESULT: the generator on the curve; the point
at infinity, or reduced and on the curve. Encodings and checks in order. -/
def Obligations.EcChecks : Prop :=
  decode 0x00000024 = .ok .ecCheckgroup ∧ decode 0x00000027 = .ok .ecPtCheck ∧
  ∀ (s : State) (p : Pending), s.pending = some p →
    let g := s.group
    let pt := s.point
    let prime := g.ep.getD 0
    Runs .ecCheckgroup s [(curveReady g && g.gx.isSome && g.gy.isSome, .invalidParameters)]
      (completed s p 0 (if liesOn g (g.gx.getD 0) (g.gy.getD 0) then 1 else 0)) (failed s p) ∧
    Runs .ecPtCheck s [(curveReady g, .invalidParameters), (pt.valid, .invalidParameters)]
      (completed s p 0
        (if pt.inf = true ∨ (pt.x < prime ∧ pt.y < prime ∧ liesOn g pt.x pt.y = true) then 1 else 0))
      (failed s p)

/-- spec/42_ec.md R121 and R122: EC_PT_SETXY stores two coordinates unvalidated; EC_PT_SETINF sets the point at infinity.
Encodings and checks in order. -/
def Obligations.EcSetPoint : Prop :=
  decode 0x00000025 = .ok .ecPtSetxy ∧ decode 0x00000026 = .ok .ecPtSetinf ∧
  ∀ (s : State) (p : Pending), s.pending = some p →
    let x := p.args
    Runs .ecPtSetxy s
      [ (inside s x[0] x[1], .invalidParameters)
      , (inside s x[5] x[6], .invalidParameters)
      , (fieldReady s.group, .invalidParameters)
      , (decide (x[1].toNat ≤ s.cfg.bnMax) && decide (x[6].toNat ≤ s.cfg.bnMax), .outOfMemory) ]
      (completed { s with point := ⟨true, false, os2i (bytesAt s x[0] x[1]), os2i (bytesAt s x[5] x[6])⟩ } p 0 0)
      (failed s p) ∧
    Runs .ecPtSetinf s [(fieldReady s.group, .invalidParameters)]
      (completed { s with point := ⟨true, true, 0, 0⟩ } p 0 0) (failed s p)

/-- spec/42_ec.md R124: EC_PT_ENCODE writes the point in the form FORM selects. Encoding and checks in order. -/
def Obligations.EcPointEncode : Prop :=
  decode 0x00000028 = .ok .ecPtEncode ∧
  ∀ (s : State) (p : Pending), s.pending = some p →
    let x := p.args
    let pt := s.point
    let l := bytelen (s.group.ep.getD 0)
    let out : List Byte :=
      if pt.inf then [0x00]
      else if s.group.form = false then 0x04 :: (i2os pt.x l ++ i2os pt.y l)
      else BitVec.ofNat 8 (2 + pt.y % 2) :: i2os pt.x l
    Runs .ecPtEncode s
      [ (inside s x[2] x[3], .invalidParameters)
      , (fieldReady s.group, .invalidParameters)
      , (pt.valid, .invalidParameters)
      , (pt.inf || (decide (pt.x < 256 ^ l) && decide (pt.y < 256 ^ l)), .invalidParameters)
      , (decide (out.length ≤ x[3].toNat), .bufferTooSmall) ]
      (wrote s p x[2].toNat out) (failed s p)

/-- spec/42_ec.md R125: EC_PT_DECODE sets the point the source octets stand for, in either form; octets that stand for no
point are InvalidParameters and leave the point. Encoding and checks in order. -/
def Obligations.EcPointDecode : Prop :=
  decode 0x00000029 = .ok .ecPtDecode ∧
  ∀ (s : State) (p : Pending), s.pending = some p →
    let x := p.args
    let octets := bytesAt s x[0] x[1]
    let ready : List (Bool × Code) :=
      [(inside s x[0] x[1], .invalidParameters), (curveReady s.group, .invalidParameters)]
    (∀ pt, Decodes s.group octets pt →
      Runs .ecPtDecode s ready (completed { s with point := pt } p 0 0) (failed s p)) ∧
    ((¬ ∃ pt, Decodes s.group octets pt) →
      Runs .ecPtDecode s (ready ++ [(false, .invalidParameters)]) s (failed s p))

/-- Over a prime field, EC_PT_DECODE on the octets EC_PT_ENCODE wrote, in either form, gives back the point, for the point at
infinity and for every reduced point on the curve (spec/42_ec.md R124, R125). -/
def Obligations.PointOctetsRoundTrip : Prop :=
  ∀ (s t : State) (p : Pending) (w : Word) (x : Args), s.Wf → s.pending = some p →
    (s.group.ep.getD 0).Prime → s.group.ea.isSome = true → s.group.eb.isSome = true →
    (s.point.inf = true ∨ (s.point.x < s.group.ep.getD 0 ∧ s.point.y < s.group.ep.getD 0 ∧
      liesOn s.group s.point.x s.point.y = true)) →
    exec .ecPtEncode s = .next t → t.lastCode = .ok →
    x[0] = p.args[2] → x[1] = t.bytesWritten →
    ∃ u, exec .ecPtDecode { t with pending := some ⟨w, x⟩ } = .next u ∧ u.lastCode = .ok ∧ u.point = s.point

/-! # Bus, registers, resets -/

/-- The constant, control and completion registers and the unlisted offsets read as spec/10_state.md R17, R19, R20, R23 to
R31, R34 say, and no such read changes any state (R18). -/
def Obligations.RegisterReads : Prop :=
  ∀ s : State, s.cfg.legal →
    Reads s 0x000 0x43434531 ∧
    Reads s 0x004 (s.cfg.nctx + 64 * 2 ^ 8 + 2 ^ 16 + 2 ^ 17 + s.cfg.accelAvail.toNat * 2 ^ 18) ∧
    Reads s 0x008 s.cfg.dramSize ∧ Reads s 0x00C s.cfg.bnMax ∧
    Reads s 0x010 s.irqEn.toNat ∧
    Reads s 0x014 (s.pending.isSome.toNat + codeNumber s.lastCode * 2 ^ 8 + s.lastOp.toNat * 2 ^ 16) ∧
    Reads s 0x018 (s.irq.done.toNat + s.irq.err.toNat * 2 + s.irq.overrun.toNat * 4 + s.irq.ramlock.toNat * 8) ∧
    Reads s 0x01C 0 ∧ Reads s 0x020 s.bytesWritten.toNat ∧ Reads s 0x024 s.result.toNat ∧
    Reads s 0x028 (s.backend.locked.toNat + s.backend.accelSel.toNat * 2) ∧
    (∀ k (h : k < 8), Reads s (0x040 + 4 * k) s.args[k].toNat) ∧
    (∀ off, off % 4 = 0 → (0x034 ≤ off ∧ off < 0x040) ∨ (0x060 ≤ off ∧ off < 0x080) ∨ (0x0C0 ≤ off ∧ off < 0x1000) →
      Reads s off 0)

/-- CTXSTAT0..15, RSA_KEYSTAT and EC_STAT show the contexts, the key and the group and point as spec/10_state.md R33, R36 and
R39 say; CTXSTATi is 0 for i ≥ NCTX and while VALID = 0. -/
def Obligations.ContextKeyAndGroupReads : Prop :=
  ∀ s : State, s.Wf →
    (∀ i, i < 16 →
      let c := s.slot i
      Reads s (0x080 + 4 * i)
        (if i < s.cfg.nctx ∧ c.valid then
          c.valid.toNat + c.ended.toNat * 2 + c.dir.toNat * 4 + c.pad.toNat * 8 + modeNumber c.mode * 2 ^ 4 +
            c.alg.toNat * 2 ^ 8 + c.fill * 2 ^ 16 + c.bs * 2 ^ 24
        else 0)) ∧
    Reads s 0x02C
      (s.rsa.n.isSome.toNat + s.rsa.e.isSome.toNat * 2 + s.rsa.d.isSome.toNat * 4 + s.rsa.p.isSome.toNat * 8 +
        s.rsa.q.isSome.toNat * 16 + s.rsa.dmp.isSome.toNat * 32 + s.rsa.dmq.isSome.toNat * 64 +
        s.rsa.coef.isSome.toNat * 128 + (quintet s.rsa).toNat * 2 ^ 8 +
        (if s.rsa.n.isSome then bytelen (s.rsa.n.getD 0) else 0) * 2 ^ 16) ∧
    Reads s 0x030
      (s.group.ep.isSome.toNat + s.group.ea.isSome.toNat * 2 + s.group.eb.isSome.toNat * 4 +
        s.group.gx.isSome.toNat * 8 + s.group.gy.isSome.toNat * 16 + s.group.en.isSome.toNat * 32 +
        s.group.eh.isSome.toNat * 64 + s.group.form.toNat * 2 ^ 7 + s.point.valid.toNat * 2 ^ 8 +
        s.point.inf.toNat * 2 ^ 9 + s.group.named.toNat * 2 ^ 10 + s.group.curveId.toNat * 2 ^ 16)

/-- A write to a read-only, reserved or unlisted register is ignored (spec/10_state.md R18, R19); a write to an ARG register
is read back (R20). -/
def Obligations.RegisterWrites : Prop :=
  (∀ (s : State) (off : Nat) (v : Word), off < 0x1000 → off % 4 = 0 → off ∉ [0x010, 0x018, 0x01C] →
    (off < 0x040 ∨ 0x060 ≤ off) → Bus s (.write off .w32 v) { s with reply := some .ok }) ∧
  (∀ (s : State) (k j : Nat) (hk : k < 8) (hj : j < 8) (v : Word), ∃ t,
    Bus s (.write (0x040 + 4 * k) .w32 v) t ∧
    Reads t (0x040 + 4 * j) (if j = k then v.toNat else s.args[j].toNat))

/-- spec/10_state.md R29 and spec/60_exceptions.md R136: a CMD write while idle is accepted with the ARG registers as they
stand; while busy a CMD write, or a CTRL write with SOFT_RESET = 1, is dropped and sets OVERRUN, the CTRL write still setting
IRQ_EN; CMD reads 0. -/
def Obligations.CmdAcceptanceAndOverrun : Prop :=
  ∀ (s : State) (v : Word),
    Reads s 0x01C 0 ∧
    (s.pending = none → Bus s (.write 0x01C .w32 v) { s with pending := some ⟨v, s.args⟩, reply := some .ok }) ∧
    (s.pending ≠ none →
      Bus s (.write 0x01C .w32 v) { s with irq := { s.irq with overrun := true }, reply := some .ok } ∧
      (v.getLsbD 1 = true → Bus s (.write 0x010 .w32 v)
        { s with irqEn := v.getLsbD 0, irq := { s.irq with overrun := true }, reply := some .ok }))

/-- spec/10_state.md R26 and spec/70_reset_and_hazards.md R151: CTRL. SOFT_RESET = 0 sets IRQ_EN; SOFT_RESET = 1 while idle
resets everything but BACKEND and the Data RAM; while busy it only sets IRQ_EN and OVERRUN; the register reads IRQ_EN. -/
def Obligations.CtrlAndSoftReset : Prop :=
  ∀ (s : State) (v : Word),
    Reads s 0x010 s.irqEn.toNat ∧
    (v.getLsbD 1 = false → Bus s (.write 0x010 .w32 v) { s with irqEn := v.getLsbD 0, reply := some .ok }) ∧
    (v.getLsbD 1 = true → s.pending = none → ∃ t, Bus s (.write 0x010 .w32 v) t ∧ IsReset t ∧
      t.backend = s.backend ∧ t.ram = s.ram ∧ t.cfg = s.cfg ∧ t.entropy = s.entropy ∧ t.inputs = s.inputs ∧
      t.reply = some .ok) ∧
    (v.getLsbD 1 = true → s.pending ≠ none → Bus s (.write 0x010 .w32 v)
      { s with irqEn := v.getLsbD 0, irq := { s.irq with overrun := true }, reply := some .ok })

/-- Power-on reset (spec/70_reset_and_hazards.md R150; spec/10_state.md R43): every value of the table, BACKEND cleared, and
the Data RAM holding any bytes whatever, the ones the event brings (log entry 4); State.reset has the table's values. -/
def Obligations.PowerOnReset : Prop :=
  (∀ (s : State) (ram : List Byte), ∃ t, step { s with inputs := .powerOn ram :: s.inputs } = .next t ∧ IsReset t ∧
    t.backend = ⟨false, false⟩ ∧ t.cfg = s.cfg ∧
    (ram.length = s.cfg.dramSize → ∀ a (h : a < ram.length), t.ram.read a = ram[a])) ∧
  IsReset State.reset ∧ State.reset.backend = ⟨false, false⟩

/-- spec/60_exceptions.md R139 with the W1C rule of spec/10_state.md R28: the interrupt output is IRQ_EN and any pending bit;
a write to IRQ_STATUS clears exactly the bits written 1; enabling raises the output at once, clearing every bit or IRQ_EN
lowers it. -/
def Obligations.InterruptOutput : Prop :=
  ∀ (s : State) (v : Word),
    let any := s.irq.done || s.irq.err || s.irq.overrun || s.irq.ramlock
    s.irqLine = (s.irqEn && any) ∧
    Bus s (.write 0x018 .w32 v)
      { s with
        irq := ⟨s.irq.done && !v.getLsbD 0, s.irq.err && !v.getLsbD 1, s.irq.overrun && !v.getLsbD 2,
          s.irq.ramlock && !v.getLsbD 3⟩
        reply := some .ok } ∧
    (∀ t, Bus s (.write 0x010 .w32 1) t → t.irqLine = any) ∧
    (∀ t, Bus s (.write 0x018 .w32 0xF) t → t.irqLine = false) ∧
    (∀ t, Bus s (.write 0x010 .w32 0) t → t.irqLine = false)

/-- spec/20_memory.md R51 with the map of R44 and the alignment of R50, and spec/60_exceptions.md R135: a transaction outside
the mapped ranges or misaligned is answered BusError and changes no state; every other one is answered otherwise. -/
def Obligations.BusErrorsChangeNothing : Prop :=
  ∀ (s : State) (off : Nat) (w : Width) (v : Word),
    (legalAccess s off w = false →
      Bus s (.read off w) { s with reply := some .busError } ∧
      Bus s (.write off w v) { s with reply := some .busError }) ∧
    (legalAccess s off w = true →
      (∃ t d, Bus s (.read off w) t ∧ t.reply = some (.data d)) ∧
      (∃ t, Bus s (.write off w v) t ∧ t.reply = some .ok))

/-- spec/20_memory.md R48: the bus is little-endian. While idle, a write of any width puts bits [8j+7:8j] of the data at
offset a + j and leaves every other byte, a read of any width gathers the bytes the same way, and the sizes mix. A narrow
write moves the low bits of the data word (the model's choice, log entry 19). -/
def Obligations.DataRamIsLittleEndian : Prop :=
  ∀ (s : State) (a : Nat) (w : Width), s.Wf → s.pending = none → legalAccess s (0x4000 + a) w = true →
    (∃ d : Word, Bus s (.read (0x4000 + a) w) { s with reply := some (.data d) } ∧
      d.toNat = ((List.range w.bytes).map fun j => (s.ram.read (a + j)).toNat * 2 ^ (8 * j)).sum) ∧
    (∀ v : Word, ∃ m : Memory,
      Bus s (.write (0x4000 + a) w v) { s with ram := m, reply := some .ok } ∧
      (∀ j, j < w.bytes → m.read (a + j) = v.extractLsb' (8 * j) 8) ∧
      (∀ b, b < a ∨ a + w.bytes ≤ b → m.read b = s.ram.read b))

/-- spec/60_exceptions.md R137: while busy, a Data RAM read gives 0 and a write is dropped, either one setting RAMLOCK, and
the running command is unaffected. -/
def Obligations.DataRamLockedWhileBusy : Prop :=
  ∀ (s : State) (a : Nat) (w : Width) (v : Word), s.pending ≠ none → legalAccess s (0x4000 + a) w = true →
    Bus s (.read (0x4000 + a) w) { s with irq := { s.irq with ramlock := true }, reply := some (.data 0) } ∧
    Bus s (.write (0x4000 + a) w v) { s with irq := { s.irq with ramlock := true }, reply := some .ok }

end Statements
end

