-- ==== Sys2Proof/Laws/Memory.lean ====
section
/-! SUPPORT. The Data RAM: a read after a write, every write keeps the canonical form, a canonical memory is determined by
its reads. -/

namespace Sys2Proof.Machine

/-! ## Reads -/

theorem readCells_of_lt {size lo : Nat} {cs : List Host.Cell} {a : Nat} (h : canonicalCells size lo cs = true) (ha : a < lo) :
    readCells cs a = Memory.unlisted := by
  induction cs generalizing lo with
  | nil => rfl
  | cons c rest ih =>
    obtain ⟨k, v⟩ := c
    simp only [canonicalCells, Bool.and_eq_true, decide_eq_true_eq] at h
    have hne : k ≠ a := by omega
    simp only [readCells, if_neg hne]
    exact ih h.2 (by omega)

theorem readCells_writeCells_same {size lo : Nat} {cs : List Host.Cell} {a : Nat} {b : Byte}
    (h : canonicalCells size lo cs = true) : readCells (writeCells cs a b) a = b := by
  induction cs generalizing lo with
  | nil => by_cases hb : b = Memory.unlisted <;> simp [writeCells, readCells, hb]
  | cons c rest ih =>
    obtain ⟨k, v⟩ := c
    simp only [canonicalCells, Bool.and_eq_true, decide_eq_true_eq] at h
    have hrest : a ≤ k → readCells rest a = Memory.unlisted := fun hk => readCells_of_lt h.2 (by omega)
    rcases Nat.lt_trichotomy a k with hlt | heq | hgt
    · have hne : k ≠ a := by omega
      by_cases hb : b = Memory.unlisted
      · simp [writeCells, readCells, hlt, hb, hne, hrest (by omega)]
      · simp [writeCells, readCells, hlt, hb]
    · subst heq
      by_cases hb : b = Memory.unlisted
      · simp [writeCells, hb, hrest]
      · simp [writeCells, readCells, hb]
    · have hne : k ≠ a := by omega
      have hne' : a ≠ k := by omega
      simp [writeCells, readCells, hne, hne', Nat.lt_asymm hgt, ih h.2]

theorem readCells_writeCells_other (cs : List Host.Cell) {a a' : Nat} (b : Byte) (hne : a' ≠ a) :
    readCells (writeCells cs a b) a' = readCells cs a' := by
  induction cs with
  | nil => by_cases hb : b = Memory.unlisted <;> simp [writeCells, readCells, hb, Ne.symm hne]
  | cons c rest ih =>
    obtain ⟨k, v⟩ := c
    simp only [writeCells]
    split
    · split
      · rfl
      · simp [readCells, Ne.symm hne]
    · split
      · subst_vars
        split <;> simp [readCells, Ne.symm hne]
      · simp [readCells, ih]

/-! ## The canonical form is kept -/

theorem canonicalCells_mono {size lo lo' : Nat} {cs : List Host.Cell} (hlo : lo' ≤ lo) (h : canonicalCells size lo cs = true) :
    canonicalCells size lo' cs = true := by
  cases cs with
  | nil => rfl
  | cons c rest =>
    obtain ⟨k, v⟩ := c
    simp only [canonicalCells, Bool.and_eq_true, decide_eq_true_eq] at h ⊢
    exact ⟨⟨⟨by omega, h.1.1.2⟩, h.1.2⟩, h.2⟩

theorem canonicalCells_writeCells {size lo : Nat} {cs : List Host.Cell} {a : Nat} (b : Byte)
    (h : canonicalCells size lo cs = true) (hlo : lo ≤ a) (ha : a < size) :
    canonicalCells size lo (writeCells cs a b) = true := by
  induction cs generalizing lo with
  | nil => by_cases hb : b = Memory.unlisted <;> simp [writeCells, canonicalCells, hb, hlo, ha]
  | cons c rest ih =>
    obtain ⟨k, v⟩ := c
    have h0 := h
    simp only [canonicalCells, Bool.and_eq_true, decide_eq_true_eq] at h
    obtain ⟨⟨⟨h1, h2⟩, h3⟩, h4⟩ := h
    simp only [writeCells]
    split
    · split
      · exact h0
      · rename_i hlt hb
        simp only [canonicalCells, Bool.and_eq_true, decide_eq_true_eq]
        exact ⟨⟨⟨hlo, ha⟩, hb⟩, ⟨⟨by omega, h2⟩, h3⟩, h4⟩
    · split
      · rename_i _ heq
        split
        · exact canonicalCells_mono (by omega) h4
        · rename_i hb
          simp only [canonicalCells, Bool.and_eq_true, decide_eq_true_eq]
          exact ⟨⟨⟨hlo, ha⟩, hb⟩, canonicalCells_mono (by omega) h4⟩
      · simp only [canonicalCells, Bool.and_eq_true, decide_eq_true_eq]
        exact ⟨⟨⟨h1, h2⟩, h3⟩, ih h4 (by omega)⟩

/-- A canonical memory is determined by its reads: equal contents are equal data. -/
theorem canonicalCells_ext {size lo : Nat} {cs ds : List Host.Cell} (hc : canonicalCells size lo cs = true)
    (hd : canonicalCells size lo ds = true) (h : ∀ a, readCells cs a = readCells ds a) : cs = ds := by
  induction cs generalizing lo ds with
  | nil =>
    cases ds with
    | nil => rfl
    | cons d rest =>
      obtain ⟨k, v⟩ := d
      simp only [canonicalCells, Bool.and_eq_true, decide_eq_true_eq] at hd
      have := h k
      simp only [readCells, if_true] at this
      exact absurd this.symm hd.1.2
  | cons c rest ih =>
    obtain ⟨k, v⟩ := c
    have hc0 := hc
    simp only [canonicalCells, Bool.and_eq_true, decide_eq_true_eq] at hc
    cases ds with
    | nil =>
      have := h k
      simp only [readCells, if_true] at this
      exact absurd this hc.1.2
    | cons d drest =>
      obtain ⟨k', v'⟩ := d
      have hd0 := hd
      simp only [canonicalCells, Bool.and_eq_true, decide_eq_true_eq] at hd
      have hkk : k = k' := by
        rcases Nat.lt_trichotomy k k' with hlt | heq | hgt
        · have h1 := h k
          have h2 : readCells ((k', v') :: drest) k = Memory.unlisted := by
            simp only [readCells, if_neg (by omega : k' ≠ k)]
            exact readCells_of_lt hd.2 (by omega)
          rw [h2] at h1
          simp only [readCells, if_true] at h1
          exact absurd h1 hc.1.2
        · exact heq
        · have h1 := h k'
          have h2 : readCells ((k, v) :: rest) k' = Memory.unlisted := by
            simp only [readCells, if_neg (by omega : k ≠ k')]
            exact readCells_of_lt hc.2 (by omega)
          rw [h2] at h1
          simp only [readCells, if_true] at h1
          exact absurd h1.symm hd.1.2
      subst hkk
      have hv : v = v' := by
        have := h k
        simpa only [readCells, if_true] using this
      subst hv
      congr 1
      apply ih hc.2 hd.2
      intro a
      by_cases hak : a < k + 1
      · rw [readCells_of_lt hc.2 hak, readCells_of_lt hd.2 hak]
      · have := h a
        simpa only [readCells, if_neg (by omega : k ≠ a)] using this

/-! ## One byte -/

/-- A read after a write to the same offset gives the byte written. -/
theorem Memory.read_write_same {size : Nat} {m : Memory} (h : m.wf size = true) (a : Nat) (b : Byte) :
    (m.write a b).read a = b := readCells_writeCells_same h

/-- A write leaves every other offset alone. -/
theorem Memory.read_write_other (m : Memory) {a a' : Nat} (b : Byte) (h : a' ≠ a) : (m.write a b).read a' = m.read a' :=
  readCells_writeCells_other m.cells b h

/-- A write inside the Data RAM keeps the canonical form. -/
theorem Memory.write_wf {size : Nat} {m : Memory} (h : m.wf size = true) {a : Nat} (b : Byte) (ha : a < size) :
    (m.write a b).wf size = true := canonicalCells_writeCells b h (Nat.zero_le a) ha

/-- Canonical memories that read the same are the same data. -/
theorem Memory.ext_reads {size : Nat} {m n : Memory} (hm : m.wf size = true) (hn : n.wf size = true)
    (h : ∀ a, m.read a = n.read a) : m = n := by
  obtain ⟨cs⟩ := m
  obtain ⟨ds⟩ := n
  congr 1
  exact canonicalCells_ext hm hn h

/-! ## Byte strings -/

@[simp] theorem Memory.writeBytes_nil (m : Memory) (a : Nat) : m.writeBytes a [] = m := rfl

@[simp] theorem Memory.length_readBytes (m : Memory) (a n : Nat) : (m.readBytes a n).length = n := by
  induction n generalizing a with
  | zero => rfl
  | succ n ih => simp [Memory.readBytes, ih]

/-- Byte `i` of a region read. -/
theorem Memory.getElem?_readBytes (m : Memory) (a n i : Nat) (h : i < n) : (m.readBytes a n)[i]? = some (m.read (a + i)) := by
  induction n generalizing a i with
  | zero => omega
  | succ n ih =>
    cases i with
    | zero => simp [Memory.readBytes]
    | succ i =>
      have := ih (a + 1) i (by omega)
      simp only [Memory.readBytes, List.getElem?_cons_succ, this]
      congr 2
      omega

/-- A region write leaves every offset outside the region alone. -/
theorem Memory.read_writeBytes_other (m : Memory) (bs : List Byte) (a a' : Nat) (h : a' < a ∨ a + bs.length ≤ a') :
    (m.writeBytes a bs).read a' = m.read a' := by
  induction bs generalizing m a with
  | nil => rfl
  | cons b bs ih =>
    simp only [List.length_cons] at h
    rw [Memory.writeBytes, ih _ _ (by omega), Memory.read_write_other _ _ (by omega)]

/-- A region write inside the Data RAM keeps the canonical form. -/
theorem Memory.writeBytes_wf {size : Nat} {m : Memory} (h : m.wf size = true) {a : Nat} (bs : List Byte)
    (ha : a + bs.length ≤ size) : (m.writeBytes a bs).wf size = true := by
  induction bs generalizing m a with
  | nil => exact h
  | cons b bs ih =>
    simp only [List.length_cons] at ha
    exact ih (Memory.write_wf h b (by omega)) (by omega)

/-- Byte `i` of a region written reads back. -/
theorem Memory.read_writeBytes_same {size : Nat} {m : Memory} (h : m.wf size = true) {a : Nat} (bs : List Byte)
    (ha : a + bs.length ≤ size) (i : Nat) (hi : i < bs.length) : (m.writeBytes a bs).read (a + i) = bs[i] := by
  induction bs generalizing m a i with
  | nil => simp at hi
  | cons b bs ih =>
    simp only [List.length_cons] at ha hi
    have hw : (m.write a b).wf size = true := Memory.write_wf h b (by omega)
    cases i with
    | zero =>
      rw [Memory.writeBytes, Memory.read_writeBytes_other _ _ _ _ (by omega)]
      exact Memory.read_write_same h a b
    | succ i =>
      have := ih hw (a := a + 1) (by omega) i (by omega)
      rw [Memory.writeBytes, show a + (i + 1) = a + 1 + i by omega, this]
      rfl

/-- Reading back a region that was written. -/
theorem Memory.readBytes_writeBytes {size : Nat} {m : Memory} (h : m.wf size = true) {a : Nat} (bs : List Byte)
    (ha : a + bs.length ≤ size) : (m.writeBytes a bs).readBytes a bs.length = bs := by
  apply List.ext_getElem?
  intro i
  by_cases hi : i < bs.length
  · rw [Memory.getElem?_readBytes _ _ _ _ hi, Memory.read_writeBytes_same h bs ha i hi, List.getElem?_eq_getElem hi]
  · rw [List.getElem?_eq_none (by simp; omega), List.getElem?_eq_none (by omega)]

/-- The empty memory is canonical. -/
theorem Memory.empty_wf (size : Nat) : (Memory.mk []).wf size = true := rfl

end Sys2Proof.Machine
end

