-- ==== Sys2Proof/Laws/Numbers.lean ====
section
/-! SUPPORT. Numbers and byte strings: OS2I and I2OS are inverse, bytelen is the least length, modpow is `b^e mod m`,
isPrime decides primality, PRIME_TEST keeps its contract, an inverse is unique. -/

namespace Sys2Proof.Machine

/-! ## OS2I and I2OS (spec/00_scope.md R11) -/

theorem foldl_os2i (bs : List Byte) (acc : Nat) :
    bs.foldl (fun acc b => acc * 256 + b.toNat) acc = acc * 256 ^ bs.length + os2i bs := by
  induction bs generalizing acc with
  | nil => simp [os2i]
  | cons b bs ih =>
    simp only [os2i, List.foldl_cons, List.length_cons]
    rw [ih, ih (0 * 256 + b.toNat)]
    ring

@[simp] theorem os2i_nil : os2i [] = 0 := rfl

theorem os2i_cons (b : Byte) (bs : List Byte) : os2i (b :: bs) = b.toNat * 256 ^ bs.length + os2i bs := by
  have := foldl_os2i bs (0 * 256 + b.toNat)
  simpa [os2i] using this

theorem os2i_append (a b : List Byte) : os2i (a ++ b) = os2i a * 256 ^ b.length + os2i b := by
  rw [os2i, List.foldl_append, foldl_os2i]
  rfl

/-- A string of `n` bytes is below `256^n`. -/
theorem os2i_lt (bs : List Byte) : os2i bs < 256 ^ bs.length := by
  induction bs with
  | nil => simp
  | cons b bs ih =>
    rw [os2i_cons, List.length_cons, pow_succ]
    have := b.isLt
    have hpos : 0 < 256 ^ bs.length := Nat.pow_pos (by omega)
    nlinarith

@[simp] theorem length_i2os (v k : Nat) : (i2os v k).length = k := by
  induction k generalizing v with
  | zero => rfl
  | succ k ih => simp [i2os, ih]

/-- `OS2I(I2OS(v, k)) = v` when `v < 256^k`. -/
theorem os2i_i2os (v k : Nat) (h : v < 256 ^ k) : os2i (i2os v k) = v := by
  induction k generalizing v with
  | zero => simp at h; subst h; rfl
  | succ k ih =>
    have hlt : v / 256 < 256 ^ k := by
      rw [pow_succ] at h
      exact Nat.div_lt_of_lt_mul (by omega)
    rw [i2os, os2i_append, ih _ hlt, os2i_cons]
    simp only [BitVec.toNat_ofNat, List.length_nil, List.length_cons, os2i_nil]
    omega

/-- `I2OS(OS2I(B), |B|) = B`. -/
theorem i2os_os2i (bs : List Byte) : i2os (os2i bs) bs.length = bs := by
  induction bs using List.reverseRecOn with
  | nil => rfl
  | append_singleton bs b ih =>
    have hb := b.isLt
    rw [os2i_append, List.length_append]
    simp only [List.length_cons, List.length_nil, Nat.zero_add, os2i_cons, os2i_nil, pow_zero, pow_one, mul_one,
      Nat.add_zero, i2os]
    rw [show (os2i bs * 256 + b.toNat) / 256 = os2i bs by omega, ih]
    congr 2
    apply BitVec.eq_of_toNat_eq
    simp only [BitVec.toNat_ofNat]
    omega

/-! ## bytelen (spec/00_scope.md R11) -/

/-- `v < 256^bytelen(v)`. -/
theorem lt_pow_bytelen (v : Nat) : v < 256 ^ bytelen v := by
  unfold bytelen
  split
  · subst_vars; simp
  · rename_i h
    have h1 := Nat.lt_log2_self (n := v)
    have h2 : 2 ^ (v.log2 + 1) ≤ 256 ^ (v.log2 / 8 + 1) := by
      rw [show (256 : Nat) = 2 ^ 8 by norm_num, ← pow_mul]
      exact Nat.pow_le_pow_right (by omega) (by omega)
    omega

/-- `bytelen(v)` is the least such length. -/
theorem bytelen_le {v k : Nat} (h : v < 256 ^ k) : bytelen v ≤ k := by
  unfold bytelen
  split
  · omega
  · rename_i hv
    have h1 : 2 ^ v.log2 ≤ v := Nat.log2_self_le hv
    rw [show (256 : Nat) = 2 ^ 8 by norm_num, ← pow_mul] at h
    have h2 : v.log2 < 8 * k := by
      by_contra hc
      exact absurd (Nat.pow_le_pow_right (n := 2) (by omega) (Nat.le_of_not_lt hc)) (by omega)
    omega

/-! ## modpow (spec/41_rsa.md R91) -/

theorem modpowFuel_eq (fuel b e m : Nat) (h : e < 2 ^ fuel) : modpowFuel fuel b e m = b ^ e % m := by
  induction fuel generalizing b e with
  | zero => simp at h; subst h; simp [modpowFuel]
  | succ fuel ih =>
    have he : e / 2 < 2 ^ fuel := by
      rw [pow_succ] at h
      omega
    have hsq : (b * b % m) ^ (e / 2) % m = b ^ (2 * (e / 2)) % m := by
      rw [← Nat.pow_mod, ← pow_two, ← pow_mul]
    simp only [modpowFuel, ih _ _ he, hsq]
    split
    · rename_i hodd
      have hmul : b * (b ^ (2 * (e / 2)) % m) % m = b * b ^ (2 * (e / 2)) % m := Nat.mul_mod_mod _ _ _
      rw [hmul, ← pow_succ']
      congr 2
      omega
    · congr 2
      omega

/-- `modpow(b, e, m) = b^e mod m`. -/
theorem modpow_eq_pow_mod (b e m : Nat) : modpow b e m = b ^ e % m :=
  modpowFuel_eq _ _ _ _ Nat.lt_log2_self

/-! ## Primality (spec/41_rsa.md R111) -/

theorem hasDivisorFrom_false {v fuel d : Nat} (hd : 2 ≤ d) (hf : v ≤ fuel + d)
    (h : hasDivisorFrom v fuel d = false) : ∀ k, d ≤ k → k * k ≤ v → ¬ k ∣ v := by
  induction fuel generalizing d with
  | zero =>
    intro k hk hkk
    nlinarith
  | succ fuel ih =>
    intro k hk hkk
    simp only [hasDivisorFrom] at h
    split at h
    · rename_i hlt
      have : d * d ≤ k * k := Nat.mul_le_mul hk hk
      omega
    · split at h
      · simp at h
      · rename_i hmod
        rcases Nat.lt_or_ge d k with hlt | hge
        · exact ih (by omega) (by omega) h k hlt hkk
        · have : k = d := by omega
          subst this
          exact fun hdvd => hmod (Nat.mod_eq_zero_of_dvd hdvd)

theorem hasDivisorFrom_true {v fuel d : Nat} (hd : 2 ≤ d) (h : hasDivisorFrom v fuel d = true) :
    ∃ k, 2 ≤ k ∧ k * k ≤ v ∧ k ∣ v := by
  induction fuel generalizing d with
  | zero => simp [hasDivisorFrom] at h
  | succ fuel ih =>
    simp only [hasDivisorFrom] at h
    split at h
    · simp at h
    · split at h
      · rename_i hle hmod
        exact ⟨d, hd, by omega, Nat.dvd_of_mod_eq_zero hmod⟩
      · exact ih (by omega) h

/-- Trial division decides primality. -/
theorem isPrime_iff (v : Nat) : isPrime v = true ↔ v.Prime := by
  simp only [isPrime, Bool.and_eq_true, decide_eq_true_eq, Bool.not_eq_true']
  constructor
  · rintro ⟨h2, hno⟩
    rw [Nat.prime_def_le_sqrt]
    refine ⟨h2, fun m hm hsq hdvd => ?_⟩
    exact hasDivisorFrom_false (Nat.le_refl 2) (Nat.le_add_right v 2) hno m hm (Nat.le_sqrt.mp hsq) hdvd
  · intro hp
    refine ⟨hp.two_le, ?_⟩
    by_contra hc
    obtain ⟨k, hk2, hkk, hdvd⟩ := hasDivisorFrom_true (Nat.le_refl 2) (by simpa using hc)
    rcases (Nat.dvd_prime hp).mp hdvd with h1 | h1
    · omega
    · subst h1
      nlinarith

/-- `PRIME_TEST` is true on every prime. -/
theorem primeTest_prime {v : Nat} (h : v.Prime) : primeTest v = true := by
  have h2 := h.two_le
  simp [primeTest, (isPrime_iff v).mpr h, show ¬ v < 2 by omega]

/-- `PRIME_TEST` is false on every even number but 2. -/
theorem primeTest_even {v : Nat} (h : v % 2 = 0) (h2 : v ≠ 2) : primeTest v = false := by
  have hp : isPrime v = false := by
    by_contra hc
    have hv := (isPrime_iff v).mp (by simpa using hc)
    rcases hv.eq_two_or_odd with h3 | h3 <;> omega
  simp [primeTest, hp, h]

/-- `PRIME_TEST` is false below 2. -/
theorem primeTest_below_two {v : Nat} (h : v < 2) : primeTest v = false := by
  simp [primeTest, h]

/-! ## Inverses (spec/00_scope.md R11) -/

/-- There is at most one `inv(q, p)`. -/
theorem isInv_unique {q p x y : Nat} (hx : isInv q p x = true) (hy : isInv q p y = true) : x = y := by
  simp only [isInv, Bool.and_eq_true, decide_eq_true_eq, beq_iff_eq] at hx hy
  have hp : 0 < p := by omega
  have h1 : x * (q * y) % p = x % p := by
    rw [Nat.mul_mod, hy.2, Nat.mul_one, Nat.mod_mod]
  have h2 : x * (q * y) % p = y % p := by
    rw [show x * (q * y) = y * (q * x) by ring, Nat.mul_mod, hx.2, Nat.mul_one, Nat.mod_mod]
  rw [h1, Nat.mod_eq_of_lt hx.1, Nat.mod_eq_of_lt hy.1] at h2
  exact h2

/-! ## Small lemmas on byte strings -/

@[simp] theorem length_xorBytes (a b : List Byte) : (xorBytes a b).length = min a.length b.length := by
  simp [xorBytes]

@[simp] theorem length_fit (n : Nat) (bs : List Byte) : (fit n bs).length = n := by
  simp [fit, zeros]
  omega

theorem length_overlay {new buf : List Byte} (h : new.length ≤ buf.length) : (overlay new buf).length = buf.length := by
  simp [overlay]
  omega

/-- `(k ⊕ b) ⊕ k = b` when the key stream is at least as long. -/
theorem xorBytes_cancel {k b : List Byte} (h : b.length ≤ k.length) : xorBytes k (xorBytes k b) = b := by
  induction b generalizing k with
  | nil => simp [xorBytes]
  | cons x b ih =>
    cases k with
    | nil => simp at h
    | cons y k =>
      simp only [xorBytes, List.zipWith_cons_cons, List.cons.injEq] at ih ⊢
      refine ⟨?_, ih (by simpa using h)⟩
      rw [← BitVec.xor_assoc, BitVec.xor_self, BitVec.zero_xor]

theorem xorBytes_comm (a b : List Byte) : xorBytes a b = xorBytes b a := by
  unfold xorBytes
  rw [List.zipWith_comm]
  congr 1
  funext x y
  exact BitVec.xor_comm _ _

end Sys2Proof.Machine
end

