-- ==== Sys2Proof/Laws/State.lean ====
section
/-! SUPPORT. One lemma per field per update of the state (setSlot, softReset, complete, ramLocked), each true by rfl, and
the lemmas of the slot accessors. -/

namespace Sys2Proof.Machine

/-! ## setSlot -/

@[simp] theorem State.setSlot_args (s : State) (i : Nat) (c : Slot) : (s.setSlot i c).args = s.args := rfl
@[simp] theorem State.setSlot_irqEn (s : State) (i : Nat) (c : Slot) : (s.setSlot i c).irqEn = s.irqEn := rfl
@[simp] theorem State.setSlot_lastCode (s : State) (i : Nat) (c : Slot) : (s.setSlot i c).lastCode = s.lastCode := rfl
@[simp] theorem State.setSlot_lastOp (s : State) (i : Nat) (c : Slot) : (s.setSlot i c).lastOp = s.lastOp := rfl
@[simp] theorem State.setSlot_irq (s : State) (i : Nat) (c : Slot) : (s.setSlot i c).irq = s.irq := rfl
@[simp] theorem State.setSlot_bytesWritten (s : State) (i : Nat) (c : Slot) : (s.setSlot i c).bytesWritten = s.bytesWritten := rfl
@[simp] theorem State.setSlot_result (s : State) (i : Nat) (c : Slot) : (s.setSlot i c).result = s.result := rfl
@[simp] theorem State.setSlot_slots (s : State) (i : Nat) (c : Slot) : (s.setSlot i c).slots = s.slots.set i c := rfl
@[simp] theorem State.setSlot_rsa (s : State) (i : Nat) (c : Slot) : (s.setSlot i c).rsa = s.rsa := rfl
@[simp] theorem State.setSlot_group (s : State) (i : Nat) (c : Slot) : (s.setSlot i c).group = s.group := rfl
@[simp] theorem State.setSlot_point (s : State) (i : Nat) (c : Slot) : (s.setSlot i c).point = s.point := rfl
@[simp] theorem State.setSlot_backend (s : State) (i : Nat) (c : Slot) : (s.setSlot i c).backend = s.backend := rfl
@[simp] theorem State.setSlot_pending (s : State) (i : Nat) (c : Slot) : (s.setSlot i c).pending = s.pending := rfl
@[simp] theorem State.setSlot_ram (s : State) (i : Nat) (c : Slot) : (s.setSlot i c).ram = s.ram := rfl
@[simp] theorem State.setSlot_cfg (s : State) (i : Nat) (c : Slot) : (s.setSlot i c).cfg = s.cfg := rfl
@[simp] theorem State.setSlot_entropy (s : State) (i : Nat) (c : Slot) : (s.setSlot i c).entropy = s.entropy := rfl
@[simp] theorem State.setSlot_inputs (s : State) (i : Nat) (c : Slot) : (s.setSlot i c).inputs = s.inputs := rfl
@[simp] theorem State.setSlot_reply (s : State) (i : Nat) (c : Slot) : (s.setSlot i c).reply = s.reply := rfl

/-- Reading back a slot that was set. -/
theorem State.slot_setSlot_same (s : State) (i : Nat) (c : Slot) (h : i < s.slots.length) : (s.setSlot i c).slot i = c := by
  simp [State.slot, List.getD_eq_getElem?_getD, h]

/-- Setting a slot leaves every other slot alone. -/
theorem State.slot_setSlot_other (s : State) (i j : Nat) (c : Slot) (h : i ≠ j) : (s.setSlot i c).slot j = s.slot j := by
  simp [State.slot, List.getD_eq_getElem?_getD, List.getElem?_set_ne h]

/-- The last of two writes to one slot counts. -/
@[simp] theorem State.setSlot_setSlot (s : State) (i : Nat) (c d : Slot) : (s.setSlot i c).setSlot i d = s.setSlot i d := by
  simp [State.setSlot, List.set_set]

/-! ## latchBackend -/

@[simp] theorem State.latchBackend_args (s : State) : s.latchBackend.args = s.args := by unfold State.latchBackend; split <;> rfl
@[simp] theorem State.latchBackend_irqEn (s : State) : s.latchBackend.irqEn = s.irqEn := by unfold State.latchBackend; split <;> rfl
@[simp] theorem State.latchBackend_lastCode (s : State) : s.latchBackend.lastCode = s.lastCode := by unfold State.latchBackend; split <;> rfl
@[simp] theorem State.latchBackend_lastOp (s : State) : s.latchBackend.lastOp = s.lastOp := by unfold State.latchBackend; split <;> rfl
@[simp] theorem State.latchBackend_irq (s : State) : s.latchBackend.irq = s.irq := by unfold State.latchBackend; split <;> rfl
@[simp] theorem State.latchBackend_bytesWritten (s : State) : s.latchBackend.bytesWritten = s.bytesWritten := by unfold State.latchBackend; split <;> rfl
@[simp] theorem State.latchBackend_result (s : State) : s.latchBackend.result = s.result := by unfold State.latchBackend; split <;> rfl
@[simp] theorem State.latchBackend_slots (s : State) : s.latchBackend.slots = s.slots := by unfold State.latchBackend; split <;> rfl
@[simp] theorem State.latchBackend_rsa (s : State) : s.latchBackend.rsa = s.rsa := by unfold State.latchBackend; split <;> rfl
@[simp] theorem State.latchBackend_group (s : State) : s.latchBackend.group = s.group := by unfold State.latchBackend; split <;> rfl
@[simp] theorem State.latchBackend_point (s : State) : s.latchBackend.point = s.point := by unfold State.latchBackend; split <;> rfl
@[simp] theorem State.latchBackend_pending (s : State) : s.latchBackend.pending = s.pending := by unfold State.latchBackend; split <;> rfl
@[simp] theorem State.latchBackend_ram (s : State) : s.latchBackend.ram = s.ram := by unfold State.latchBackend; split <;> rfl
@[simp] theorem State.latchBackend_cfg (s : State) : s.latchBackend.cfg = s.cfg := by unfold State.latchBackend; split <;> rfl
@[simp] theorem State.latchBackend_entropy (s : State) : s.latchBackend.entropy = s.entropy := by unfold State.latchBackend; split <;> rfl
@[simp] theorem State.latchBackend_inputs (s : State) : s.latchBackend.inputs = s.inputs := by unfold State.latchBackend; split <;> rfl
@[simp] theorem State.latchBackend_reply (s : State) : s.latchBackend.reply = s.reply := by unfold State.latchBackend; split <;> rfl

/-- The latch is set at the first CIPHER_INIT and never again (spec/10_state.md R34). -/
theorem State.latchBackend_backend (s : State) :
    s.latchBackend.backend = if s.backend.locked then s.backend else ⟨true, s.cfg.accelAvail⟩ := by
  unfold State.latchBackend; split <;> rfl

/-! ## complete -/

@[simp] theorem complete_ok_args (p : Pending) (s : State) (dst : Nat) (out : List Byte) (res : Word) :
    (complete p (.ok s dst out res)).args = s.args := rfl
@[simp] theorem complete_ok_irqEn (p : Pending) (s : State) (dst : Nat) (out : List Byte) (res : Word) :
    (complete p (.ok s dst out res)).irqEn = s.irqEn := rfl
@[simp] theorem complete_ok_lastCode (p : Pending) (s : State) (dst : Nat) (out : List Byte) (res : Word) :
    (complete p (.ok s dst out res)).lastCode = .ok := rfl
@[simp] theorem complete_ok_lastOp (p : Pending) (s : State) (dst : Nat) (out : List Byte) (res : Word) :
    (complete p (.ok s dst out res)).lastOp = wordOp p.word := rfl
@[simp] theorem complete_ok_irq (p : Pending) (s : State) (dst : Nat) (out : List Byte) (res : Word) :
    (complete p (.ok s dst out res)).irq = { s.irq with done := true } := rfl
@[simp] theorem complete_ok_bytesWritten (p : Pending) (s : State) (dst : Nat) (out : List Byte) (res : Word) :
    (complete p (.ok s dst out res)).bytesWritten = BitVec.ofNat 32 out.length := rfl
@[simp] theorem complete_ok_result (p : Pending) (s : State) (dst : Nat) (out : List Byte) (res : Word) :
    (complete p (.ok s dst out res)).result = res := rfl
@[simp] theorem complete_ok_slots (p : Pending) (s : State) (dst : Nat) (out : List Byte) (res : Word) :
    (complete p (.ok s dst out res)).slots = s.slots := rfl
@[simp] theorem complete_ok_rsa (p : Pending) (s : State) (dst : Nat) (out : List Byte) (res : Word) :
    (complete p (.ok s dst out res)).rsa = s.rsa := rfl
@[simp] theorem complete_ok_group (p : Pending) (s : State) (dst : Nat) (out : List Byte) (res : Word) :
    (complete p (.ok s dst out res)).group = s.group := rfl
@[simp] theorem complete_ok_point (p : Pending) (s : State) (dst : Nat) (out : List Byte) (res : Word) :
    (complete p (.ok s dst out res)).point = s.point := rfl
@[simp] theorem complete_ok_backend (p : Pending) (s : State) (dst : Nat) (out : List Byte) (res : Word) :
    (complete p (.ok s dst out res)).backend = s.backend := rfl
@[simp] theorem complete_ok_pending (p : Pending) (s : State) (dst : Nat) (out : List Byte) (res : Word) :
    (complete p (.ok s dst out res)).pending = none := rfl
@[simp] theorem complete_ok_ram (p : Pending) (s : State) (dst : Nat) (out : List Byte) (res : Word) :
    (complete p (.ok s dst out res)).ram = s.ram.writeBytes dst out := rfl
@[simp] theorem complete_ok_cfg (p : Pending) (s : State) (dst : Nat) (out : List Byte) (res : Word) :
    (complete p (.ok s dst out res)).cfg = s.cfg := rfl
@[simp] theorem complete_ok_entropy (p : Pending) (s : State) (dst : Nat) (out : List Byte) (res : Word) :
    (complete p (.ok s dst out res)).entropy = s.entropy := rfl
@[simp] theorem complete_ok_inputs (p : Pending) (s : State) (dst : Nat) (out : List Byte) (res : Word) :
    (complete p (.ok s dst out res)).inputs = s.inputs := rfl
@[simp] theorem complete_ok_reply (p : Pending) (s : State) (dst : Nat) (out : List Byte) (res : Word) :
    (complete p (.ok s dst out res)).reply = s.reply := rfl
@[simp] theorem complete_raise_args (p : Pending) (code : Code) (s : State) :
    (complete p (.raise code s)).args = s.args := rfl
@[simp] theorem complete_raise_irqEn (p : Pending) (code : Code) (s : State) :
    (complete p (.raise code s)).irqEn = s.irqEn := rfl
@[simp] theorem complete_raise_lastCode (p : Pending) (code : Code) (s : State) :
    (complete p (.raise code s)).lastCode = code := rfl
@[simp] theorem complete_raise_lastOp (p : Pending) (code : Code) (s : State) :
    (complete p (.raise code s)).lastOp = wordOp p.word := rfl
@[simp] theorem complete_raise_irq (p : Pending) (code : Code) (s : State) :
    (complete p (.raise code s)).irq = { s.irq with done := true, err := true } := rfl
@[simp] theorem complete_raise_bytesWritten (p : Pending) (code : Code) (s : State) :
    (complete p (.raise code s)).bytesWritten = 0 := rfl
@[simp] theorem complete_raise_result (p : Pending) (code : Code) (s : State) :
    (complete p (.raise code s)).result = 0 := rfl
@[simp] theorem complete_raise_slots (p : Pending) (code : Code) (s : State) :
    (complete p (.raise code s)).slots = s.slots := rfl
@[simp] theorem complete_raise_rsa (p : Pending) (code : Code) (s : State) :
    (complete p (.raise code s)).rsa = s.rsa := rfl
@[simp] theorem complete_raise_group (p : Pending) (code : Code) (s : State) :
    (complete p (.raise code s)).group = s.group := rfl
@[simp] theorem complete_raise_point (p : Pending) (code : Code) (s : State) :
    (complete p (.raise code s)).point = s.point := rfl
@[simp] theorem complete_raise_backend (p : Pending) (code : Code) (s : State) :
    (complete p (.raise code s)).backend = s.backend := rfl
@[simp] theorem complete_raise_pending (p : Pending) (code : Code) (s : State) :
    (complete p (.raise code s)).pending = none := rfl
@[simp] theorem complete_raise_ram (p : Pending) (code : Code) (s : State) :
    (complete p (.raise code s)).ram = s.ram := rfl
@[simp] theorem complete_raise_cfg (p : Pending) (code : Code) (s : State) :
    (complete p (.raise code s)).cfg = s.cfg := rfl
@[simp] theorem complete_raise_entropy (p : Pending) (code : Code) (s : State) :
    (complete p (.raise code s)).entropy = s.entropy := rfl
@[simp] theorem complete_raise_inputs (p : Pending) (code : Code) (s : State) :
    (complete p (.raise code s)).inputs = s.inputs := rfl
@[simp] theorem complete_raise_reply (p : Pending) (code : Code) (s : State) :
    (complete p (.raise code s)).reply = s.reply := rfl

/-! ## softReset and powerOn -/

@[simp] theorem State.softReset_args (s : State) : s.softReset.args = Vector.replicate 8 0 := rfl
@[simp] theorem State.softReset_irqEn (s : State) : s.softReset.irqEn = false := rfl
@[simp] theorem State.softReset_lastCode (s : State) : s.softReset.lastCode = .ok := rfl
@[simp] theorem State.softReset_lastOp (s : State) : s.softReset.lastOp = 0 := rfl
@[simp] theorem State.softReset_irq (s : State) : s.softReset.irq = ⟨false, false, false, false⟩ := rfl
@[simp] theorem State.softReset_bytesWritten (s : State) : s.softReset.bytesWritten = 0 := rfl
@[simp] theorem State.softReset_result (s : State) : s.softReset.result = 0 := rfl
@[simp] theorem State.softReset_slots (s : State) : s.softReset.slots = List.replicate s.cfg.nctx Slot.cleared := rfl
@[simp] theorem State.softReset_rsa (s : State) : s.softReset.rsa = .empty := rfl
@[simp] theorem State.softReset_group (s : State) : s.softReset.group = .empty := rfl
@[simp] theorem State.softReset_point (s : State) : s.softReset.point = .empty := rfl
@[simp] theorem State.softReset_backend (s : State) : s.softReset.backend = s.backend := rfl
@[simp] theorem State.softReset_pending (s : State) : s.softReset.pending = none := rfl
@[simp] theorem State.softReset_ram (s : State) : s.softReset.ram = s.ram := rfl
@[simp] theorem State.softReset_cfg (s : State) : s.softReset.cfg = s.cfg := rfl
@[simp] theorem State.softReset_entropy (s : State) : s.softReset.entropy = s.entropy := rfl
@[simp] theorem State.softReset_inputs (s : State) : s.softReset.inputs = s.inputs := rfl
@[simp] theorem State.softReset_reply (s : State) : s.softReset.reply = s.reply := rfl
@[simp] theorem State.powerOn_args (s : State) (bs : List Byte) : (s.powerOn bs).args = Vector.replicate 8 0 := rfl
@[simp] theorem State.powerOn_irqEn (s : State) (bs : List Byte) : (s.powerOn bs).irqEn = false := rfl
@[simp] theorem State.powerOn_lastCode (s : State) (bs : List Byte) : (s.powerOn bs).lastCode = .ok := rfl
@[simp] theorem State.powerOn_lastOp (s : State) (bs : List Byte) : (s.powerOn bs).lastOp = 0 := rfl
@[simp] theorem State.powerOn_irq (s : State) (bs : List Byte) : (s.powerOn bs).irq = ⟨false, false, false, false⟩ := rfl
@[simp] theorem State.powerOn_bytesWritten (s : State) (bs : List Byte) : (s.powerOn bs).bytesWritten = 0 := rfl
@[simp] theorem State.powerOn_result (s : State) (bs : List Byte) : (s.powerOn bs).result = 0 := rfl
@[simp] theorem State.powerOn_slots (s : State) (bs : List Byte) : (s.powerOn bs).slots = List.replicate s.cfg.nctx Slot.cleared := rfl
@[simp] theorem State.powerOn_rsa (s : State) (bs : List Byte) : (s.powerOn bs).rsa = .empty := rfl
@[simp] theorem State.powerOn_group (s : State) (bs : List Byte) : (s.powerOn bs).group = .empty := rfl
@[simp] theorem State.powerOn_point (s : State) (bs : List Byte) : (s.powerOn bs).point = .empty := rfl
@[simp] theorem State.powerOn_backend (s : State) (bs : List Byte) : (s.powerOn bs).backend = ⟨false, false⟩ := rfl
@[simp] theorem State.powerOn_pending (s : State) (bs : List Byte) : (s.powerOn bs).pending = none := rfl
@[simp] theorem State.powerOn_ram (s : State) (bs : List Byte) : (s.powerOn bs).ram = (Memory.mk []).writeBytes 0 (bs.take s.cfg.dramSize) := rfl
@[simp] theorem State.powerOn_cfg (s : State) (bs : List Byte) : (s.powerOn bs).cfg = s.cfg := rfl
@[simp] theorem State.powerOn_entropy (s : State) (bs : List Byte) : (s.powerOn bs).entropy = s.entropy := rfl
@[simp] theorem State.powerOn_inputs (s : State) (bs : List Byte) : (s.powerOn bs).inputs = s.inputs := rfl
@[simp] theorem State.powerOn_reply (s : State) (bs : List Byte) : (s.powerOn bs).reply = s.reply := rfl

/-! ## ramLocked -/

@[simp] theorem State.ramLocked_args (s : State) : s.ramLocked.args = s.args := rfl
@[simp] theorem State.ramLocked_irqEn (s : State) : s.ramLocked.irqEn = s.irqEn := rfl
@[simp] theorem State.ramLocked_lastCode (s : State) : s.ramLocked.lastCode = s.lastCode := rfl
@[simp] theorem State.ramLocked_lastOp (s : State) : s.ramLocked.lastOp = s.lastOp := rfl
@[simp] theorem State.ramLocked_irq (s : State) : s.ramLocked.irq = { s.irq with ramlock := true } := rfl
@[simp] theorem State.ramLocked_bytesWritten (s : State) : s.ramLocked.bytesWritten = s.bytesWritten := rfl
@[simp] theorem State.ramLocked_result (s : State) : s.ramLocked.result = s.result := rfl
@[simp] theorem State.ramLocked_slots (s : State) : s.ramLocked.slots = s.slots := rfl
@[simp] theorem State.ramLocked_rsa (s : State) : s.ramLocked.rsa = s.rsa := rfl
@[simp] theorem State.ramLocked_group (s : State) : s.ramLocked.group = s.group := rfl
@[simp] theorem State.ramLocked_point (s : State) : s.ramLocked.point = s.point := rfl
@[simp] theorem State.ramLocked_backend (s : State) : s.ramLocked.backend = s.backend := rfl
@[simp] theorem State.ramLocked_pending (s : State) : s.ramLocked.pending = s.pending := rfl
@[simp] theorem State.ramLocked_ram (s : State) : s.ramLocked.ram = s.ram := rfl
@[simp] theorem State.ramLocked_cfg (s : State) : s.ramLocked.cfg = s.cfg := rfl
@[simp] theorem State.ramLocked_entropy (s : State) : s.ramLocked.entropy = s.entropy := rfl
@[simp] theorem State.ramLocked_inputs (s : State) : s.ramLocked.inputs = s.inputs := rfl
@[simp] theorem State.ramLocked_reply (s : State) : s.ramLocked.reply = s.reply := rfl

end Sys2Proof.Machine
end

