-- ==== Sys2Proof/Laws/Ops.lean ====
section
/-! SUPPORT. One lemma per shared operation: the checks of a rule, running and completing a command, the three shapes of a
rule's end, the draws from ENTROPY. -/

namespace Sys2Proof.Machine

/-! ## Checks -/

/-- A sequence of checks passes when each does. -/
theorem except_bind_eq_ok {ε α β : Type} {x : Except ε α} {f : α → Except ε β} {b : β} :
    (x >>= f) = .ok b ↔ ∃ a, x = .ok a ∧ f a = .ok b := by
  cases x <;> simp [bind, Except.bind]

/-- A sequence of checks fails at its first failing check. -/
theorem except_bind_eq_error {ε α β : Type} {x : Except ε α} {f : α → Except ε β} {e : ε} :
    (x >>= f) = .error e ↔ x = .error e ∨ ∃ a, x = .ok a ∧ f a = .error e := by
  cases x <;> simp [bind, Except.bind]

@[simp] theorem except_ok_bind {ε α β : Type} (a : α) (f : α → Except ε β) : ((Except.ok a : Except ε α) >>= f) = f a := rfl

@[simp] theorem except_error_bind {ε α β : Type} (e : ε) (f : α → Except ε β) :
    ((Except.error e : Except ε α) >>= f) = .error e := rfl

@[simp] theorem except_pure {ε α : Type} (a : α) : (pure a : Except ε α) = .ok a := rfl

@[simp] theorem require_true (code : Code) : require true code = .ok () := rfl

@[simp] theorem require_false (code : Code) : require false code = .error code := rfl

theorem require_eq_ok {b : Bool} {code : Code} {u : Unit} : require b code = .ok u ↔ b = true := by
  cases b <;> simp

theorem require_eq_error {b : Bool} {code code' : Code} : require b code = .error code' ↔ b = false ∧ code = code' := by
  cases b <;> simp

@[simp] theorem present_some (v : Nat) (code : Code) : present (some v) code = .ok v := rfl

@[simp] theorem present_none (code : Code) : present none code = .error code := rfl

theorem present_eq_ok {v : Option Nat} {code : Code} {n : Nat} : present v code = .ok n ↔ v = some n := by
  cases v <;> simp

/-! ## Running a command -/

/-- While a command is pending, a rule runs on the ARG snapshot and completes. -/
theorem runCommand_pending {s : State} {p : Pending} (h : s.pending = some p) (rule : Args → CmdResult) :
    runCommand s rule = .next (complete p (rule p.args)) := by
  simp [runCommand, h]

/-- Everything a command can do: it ran on the pending latch. -/
theorem runCommand_next {s t : State} {rule : Args → CmdResult} (h : runCommand s rule = .next t) :
    ∃ p, s.pending = some p ∧ t = complete p (rule p.args) := by
  unfold runCommand at h
  split at h
  · cases h
  · rename_i p hp
    exact ⟨p, hp, by simpa using h.symm⟩

/-- A meaning called on an idle engine stops. -/
theorem runCommand_idle {s : State} (h : s.pending = none) (rule : Args → CmdResult) :
    runCommand s rule = .fault .engineIdle := by
  simp [runCommand, h]

/-- What completion leaves in the latch and in the completion registers, whatever the outcome (R130). -/
theorem complete_common (p : Pending) (r : CmdResult) :
    (complete p r).pending = none ∧ (complete p r).lastOp = wordOp p.word ∧ (complete p r).irq.done = true := by
  cases r <;> simp

/-! ## The three shapes of a rule's end -/

/-- A rule that only writes output either writes it or raises, and leaves every other state alone. -/
theorem emit_cases (s : State) (x : Args) (r : Except Code (List Byte)) :
    (∃ out, r = .ok out ∧ emit s x r = .ok s (dstAddr x) out 0) ∨ (∃ code, r = .error code ∧ emit s x r = .raise code s) := by
  cases r <;> simp [emit]

/-- A rule that only updates engine state either does so, writing no byte, or raises and changes nothing. -/
theorem update_cases (s : State) (r : Except Code State) :
    (∃ s', r = .ok s' ∧ update s r = .ok s' 0 [] 0) ∨ (∃ code, r = .error code ∧ update s r = .raise code s) := by
  cases r <;> simp [update]

/-- A rule that only sets RESULT either does so or raises, and leaves every other state alone. -/
theorem report_cases (s : State) (r : Except Code Word) :
    (∃ res, r = .ok res ∧ report s r = .ok s 0 [] res) ∨ (∃ code, r = .error code ∧ report s r = .raise code s) := by
  cases r <;> simp [report]

/-- A rule that draws either writes its output and moves the stream, or raises and changes nothing. -/
theorem emitDrawn_cases (s : State) (x : Args) (r : Except Code (List Byte × Entropy)) :
    (∃ out e, r = .ok (out, e) ∧ emitDrawn s x r = .ok { s with entropy := e } (dstAddr x) out 0) ∨
    (∃ code, r = .error code ∧ emitDrawn s x r = .raise code s) := by
  rcases r with code | ⟨out, e⟩ <;> simp [emitDrawn]

/-! ## ENTROPY -/

theorem nonzero_ne_zero (b : Byte) : nonzero b ≠ 0 := by
  unfold nonzero
  split
  · decide
  · assumption

theorem drawQueue_ne_zero {q : List Byte} {pos : Nat} {r : Byte × Entropy} (h : drawQueue q pos = some r) : r.1 ≠ 0 := by
  induction q generalizing pos with
  | nil => simp [drawQueue] at h
  | cons b q ih =>
    simp only [drawQueue] at h
    split at h
    · exact ih h
    · rename_i hb
      simp only [Option.some.injEq] at h
      subst h
      exact hb

/-- A draw never yields zero. -/
theorem Entropy.draw_ne_zero (e : Entropy) : e.draw.1 ≠ 0 := by
  unfold Entropy.draw
  split
  · rename_i h
    exact drawQueue_ne_zero h
  · exact nonzero_ne_zero _

/-- `n` draws yield `n` bytes, none of them zero. -/
theorem Entropy.drawMany_spec (n : Nat) (e : Entropy) :
    (Entropy.drawMany n e).1.length = n ∧ ∀ b ∈ (Entropy.drawMany n e).1, b ≠ 0 := by
  induction n generalizing e with
  | zero => simp [Entropy.drawMany]
  | succ n ih =>
    obtain ⟨h1, h2⟩ := ih e.draw.2
    simp only [Entropy.drawMany, List.length_cons, List.mem_cons, h1, true_and]
    rintro b (rfl | hb)
    · exact e.draw_ne_zero
    · exact h2 b hb

/-! ## Every meaning is a command -/

/-- The rule a command's meaning runs. -/
def ruleOf : Instr → State → Args → CmdResult
  | .cipherInit a => cipherInitRule a
  | .cipherUpdate a => cipherUpdateRule a
  | .cipherFinal a => cipherFinalRule a
  | .cipherRelease a => cipherReleaseRule a
  | .cipherReadiv a => cipherReadivRule a
  | .rsaLoadcomp => rsaLoadcompRule
  | .rsaClearkey => rsaClearkeyRule
  | .rsaPublic => rsaPublicRule
  | .rsaPrivate => rsaPrivateRule
  | .rsaPad1 => rsaPad1Rule
  | .rsaPad2 => rsaPad2Rule
  | .rsaUnpad => rsaUnpadRule
  | .rsaPubenc a => rsaPubencRule a
  | .rsaPrivdec a => rsaPrivdecRule a
  | .rsaPrivenc a => rsaPrivencRule a
  | .rsaPubdec a => rsaPubdecRule a
  | .rsaCheckkey => rsaCheckkeyRule
  | .ecLoadcomp => ecLoadcompRule
  | .ecSetcurve => ecSetcurveRule
  | .ecSetform a => ecSetformRule a
  | .ecCleargroup => ecCleargroupRule
  | .ecCheckgroup => ecCheckgroupRule
  | .ecPtSetxy => ecPtSetxyRule
  | .ecPtSetinf => ecPtSetinfRule
  | .ecPtCheck => ecPtCheckRule
  | .ecPtEncode => ecPtEncodeRule
  | .ecPtDecode => ecPtDecodeRule

/-- Every meaning runs its rule on the pending latch. -/
theorem exec_eq_runCommand (i : Instr) (s : State) : exec i s = runCommand s (ruleOf i s) := by
  cases i <;> rfl

/-- While a command is pending, every meaning completes. -/
theorem exec_pending (i : Instr) {s : State} {p : Pending} (h : s.pending = some p) :
    exec i s = .next (complete p (ruleOf i s p.args)) := by
  rw [exec_eq_runCommand, runCommand_pending h]

/-- Every command's next state is the completion of the pending command. -/
theorem exec_next {i : Instr} {s t : State} (h : exec i s = .next t) :
    ∃ p, s.pending = some p ∧ t = complete p (ruleOf i s p.args) :=
  runCommand_next (exec_eq_runCommand i s ▸ h)

/-- Every meaning called on an idle engine stops with `engineIdle`. -/
theorem exec_idle (i : Instr) {s : State} (h : s.pending = none) : exec i s = .fault .engineIdle := by
  rw [exec_eq_runCommand, runCommand_idle h]

end Sys2Proof.Machine
end

