-- ==== Sys2Proof/Laws/PerInstr.lean ====
section
/-! SUPPORT. A fact of every command as syntax, one lemma per constructor: the shape of its word. -/

namespace Sys2Proof.Laws.EncodeShape

/-- The word of a well-formed command has OP in [7:0], S in [11:8] and 0 in [31:12] (spec/30_encoding.md R64). -/
def Statement (i : Instr) : Prop :=
  i.wf → wordOp (encode i) = i.opcode ∧ (wordSel (encode i)).toNat = i.selector ∧ wordRes (encode i) = 0

/-- The word built from an opcode and a selector has its fields in their places. -/
theorem fields (op : Byte) (s : Nat) (h : s < 16) :
    wordOp (BitVec.ofNat 32 (s * 256 + op.toNat)) = op ∧ (wordSel (BitVec.ofNat 32 (s * 256 + op.toNat))).toNat = s ∧
    wordRes (BitVec.ofNat 32 (s * 256 + op.toNat)) = 0 := by
  have hop := op.isLt
  refine ⟨BitVec.eq_of_toNat_eq ?_, ?_, BitVec.eq_of_toNat_eq ?_⟩ <;>
    simp [wordOp, wordSel, wordRes, Nat.shiftRight_eq_div_pow] <;> omega

theorem cipherInit (a : Nat) : Statement (.cipherInit a) := fun h => fields _ a h
theorem cipherUpdate (a : Nat) : Statement (.cipherUpdate a) := fun h => fields _ a h
theorem cipherFinal (a : Nat) : Statement (.cipherFinal a) := fun h => fields _ a h
theorem cipherRelease (a : Nat) : Statement (.cipherRelease a) := fun h => fields _ a h
theorem cipherReadiv (a : Nat) : Statement (.cipherReadiv a) := fun h => fields _ a h
theorem rsaLoadcomp : Statement .rsaLoadcomp := fun h => fields _ 0 h
theorem rsaClearkey : Statement .rsaClearkey := fun h => fields _ 0 h
theorem rsaPublic : Statement .rsaPublic := fun h => fields _ 0 h
theorem rsaPrivate : Statement .rsaPrivate := fun h => fields _ 0 h
theorem rsaPad1 : Statement .rsaPad1 := fun h => fields _ 0 h
theorem rsaPad2 : Statement .rsaPad2 := fun h => fields _ 0 h
theorem rsaUnpad : Statement .rsaUnpad := fun h => fields _ 0 h
theorem rsaPubenc (a : Nat) : Statement (.rsaPubenc a) := fun h => fields _ a h
theorem rsaPrivdec (a : Nat) : Statement (.rsaPrivdec a) := fun h => fields _ a h
theorem rsaPrivenc (a : Nat) : Statement (.rsaPrivenc a) := fun h => fields _ a h
theorem rsaPubdec (a : Nat) : Statement (.rsaPubdec a) := fun h => fields _ a h
theorem rsaCheckkey : Statement .rsaCheckkey := fun h => fields _ 0 h
theorem ecLoadcomp : Statement .ecLoadcomp := fun h => fields _ 0 h
theorem ecSetcurve : Statement .ecSetcurve := fun h => fields _ 0 h
theorem ecSetform (a : Nat) : Statement (.ecSetform a) := fun h => fields _ a h
theorem ecCleargroup : Statement .ecCleargroup := fun h => fields _ 0 h
theorem ecCheckgroup : Statement .ecCheckgroup := fun h => fields _ 0 h
theorem ecPtSetxy : Statement .ecPtSetxy := fun h => fields _ 0 h
theorem ecPtSetinf : Statement .ecPtSetinf := fun h => fields _ 0 h
theorem ecPtCheck : Statement .ecPtCheck := fun h => fields _ 0 h
theorem ecPtEncode : Statement .ecPtEncode := fun h => fields _ 0 h
theorem ecPtDecode : Statement .ecPtDecode := fun h => fields _ 0 h

end Sys2Proof.Laws.EncodeShape
end

