-- ==== Sys2Proof/Laws/Transform.lean ====
section
/-! SUPPORT. The transforms and the chaining modes: block lengths, the transform state of a block transform, the counter,
what an Update keeps. -/

namespace Sys2Proof.Machine

/-- An encrypted block has `T.bs` bytes. -/
@[simp] theorem length_transformEnc (t : Descriptor) (ts b : List Byte) : (transformEnc t ts b).1.length = t.bs := by
  simp [transformEnc, normalised]

/-- A decrypted block has `T.bs` bytes. -/
@[simp] theorem length_transformDec (t : Descriptor) (ts b : List Byte) : (transformDec t ts b).1.length = t.bs := by
  simp [transformDec, normalised]

/-- A block transform returns TS unchanged (spec/40_cipher.md R74). -/
theorem transformEnc_ts {t : Descriptor} (h : t.stream = false) (ts b : List Byte) : (transformEnc t ts b).2 = ts := by
  simp [transformEnc, normalised, h]

/-- A block transform returns TS unchanged (spec/40_cipher.md R74). -/
theorem transformDec_ts {t : Descriptor} (h : t.stream = false) (ts b : List Byte) : (transformDec t ts b).2 = ts := by
  simp [transformDec, normalised, h]

/-- The counter keeps the length of the feedback register. -/
theorem length_ctrInc {r : List Byte} {bs : Nat} (h : r.length = bs) : (ctrInc r bs).length = bs := by
  simp [ctrInc, h]

/-- A block step keeps the block length of the output and of the feedback register. -/
theorem length_blockStep {t : Descriptor} {r b : List Byte} (mode : Mode) (dir : Bool) (ts : List Byte)
    (hr : r.length = t.bs) (hb : b.length = t.bs) :
    (blockStep t mode dir t.bs r ts b).y.length = t.bs ∧ (blockStep t mode dir t.bs r ts b).r.length = t.bs := by
  cases mode <;> cases dir <;> simp [blockStep, hr, hb, length_ctrInc]

/-- `n` blocks give `n · bs` bytes and keep the length of the feedback register. -/
theorem length_runBlocks {t : Descriptor} (mode : Mode) (dir : Bool) (n : Nat) {r data : List Byte} (ts : List Byte)
    (hr : r.length = t.bs) (hd : n * t.bs ≤ data.length) :
    (runBlocks t mode dir t.bs n r ts data).y.length = n * t.bs ∧ (runBlocks t mode dir t.bs n r ts data).r.length = t.bs := by
  induction n generalizing r ts data with
  | zero => simp [runBlocks, hr]
  | succ n ih =>
    rw [Nat.succ_mul] at hd ⊢
    have hb : (data.take t.bs).length = t.bs := by simp; omega
    have hstep := length_blockStep mode dir ts hr hb
    have hrest := ih (blockStep t mode dir t.bs r ts (data.take t.bs)).ts hstep.2 (data := data.drop t.bs) (by simp; omega)
    simp only [runBlocks, List.length_append, hstep.1, hrest.1, hrest.2, and_true]
    omega

/-- An Update keeps at most what there is. -/
theorem keep_le (c : Slot) (total : Nat) : keep c total ≤ total := by
  unfold keep
  split
  · split
    · omega
    · have := Nat.mod_le (total - 1) c.bs
      omega
  · exact Nat.mod_le _ _

/-- What an Update does not keep is a whole number of blocks. -/
theorem updateBlocks_mul (c : Slot) (total : Nat) : updateBlocks c total * c.bs = total - keep c total := by
  apply Nat.div_mul_cancel
  unfold keep
  split
  · split
    · simp_all
    · have h := Nat.div_add_mod (total - 1) c.bs
      exact ⟨(total - 1) / c.bs, by omega⟩
  · exact Nat.dvd_sub_mod total

/-- FILL after an Update (spec/40_cipher.md R83): below BS, or 1..BS in a padded decrypt context that has seen a byte. -/
theorem keep_bound (c : Slot) (total : Nat) (h : 0 < c.bs) :
    keep c total ≤ c.bs ∧ (keep c total = c.bs → c.pad = true ∧ c.dir = true) := by
  unfold keep
  split
  · rename_i hp
    simp only [Bool.and_eq_true] at hp
    refine ⟨?_, fun _ => hp⟩
    split
    · omega
    · have := Nat.mod_lt (total - 1) h
      omega
  · have := Nat.mod_lt total h
    exact ⟨by omega, fun he => by omega⟩

end Sys2Proof.Machine
end

