-- ==== Sys2Proof/Tests/Slice0.lean ====
section
/-! SUPPORT. The model's own tests: the checks of WellFormed refuse ill-formed terms, words written out from
spec/30_encoding.md R66 decode to their commands, one step of each command gives what spec/95_test_vectors.md says, and for
every statement with hypotheses a concrete case that meets them (`witness_…`). In a statement of the form `Runs` the two
hypotheses are 'no check fails' and 'this one fails first': its witness gives a case that completes OK and cases that end
with each code. -/

namespace Sys2Proof.Tests
open Sys2Proof Sys2Proof.Machine Sys2Proof.Spec

set_option Elab.async false

/-! ## Helpers -/

/-- `n` bytes of a number, the most significant first: how spec/95_test_vectors.md writes byte strings. -/
def hex (v n : Nat) : List Byte := i2os v n

/-- An ARG snapshot; ARG7 is used by no command (spec/30_encoding.md R67). -/
def ops (a b c d e f g : Nat) : Args :=
  #v[BitVec.ofNat 32 a, BitVec.ofNat 32 b, BitVec.ofNat 32 c, BitVec.ofNat 32 d, BitVec.ofNat 32 e, BitVec.ofNat 32 f,
    BitVec.ofNat 32 g, 0]

/-- `bs` in the Data RAM of `s` at `a`. -/
def put (s : State) (a : Nat) (bs : List Byte) : State := { s with ram := s.ram.writeBytes a bs }

/-- `s` with command `i` accepted on the operands `x`. -/
def pend (s : State) (i : Instr) (x : Args) : State := { s with pending := some ⟨encode i, x⟩ }

/-- The state an outcome gives; `State.reset` for a stop. -/
def result (o : Host.Outcome State Fault Refusal) : State :=
  match o with
  | .next t => t
  | _ => State.reset

/-- The state after one command. -/
def run (s : State) (i : Instr) (x : Args) : State := result (exec i (pend s i x))

/-- The code one command ends with. -/
def code (s : State) (i : Instr) (x : Args) : Code := (run s i x).lastCode

/-- The bytes the last command wrote at `a`. -/
def outAt (a : Nat) (t : State) : List Byte := t.ram.readBytes a t.bytesWritten.toNat

/-- A host transaction. -/
def bus (s : State) (op : BusOp) : State := result (step { s with inputs := [.bus op] })

/-- What a 32-bit register read answers. -/
def readsAs (s : State) (off : Nat) : Option BusReply := (bus s (.read off .w32)).reply

/-- K8, IV8, P16 of spec/95_test_vectors.md section 2.1. -/
def key8 : List Byte := hex 0x0102030405060708 8
def iv8 : List Byte := hex 0xa0a1a2a3a4a5a6a7 8
def plain16 : List Byte := hex 0x101112131415161718191a1b1c1d1e1f 16

/-- A context on TOY8 with K8 and IV8, as CIPHER_INIT leaves it. -/
def toy (mode : Mode) (dir pad : Bool) : Slot :=
  { Slot.cleared with
    valid := true, dir := dir, pad := pad, mode := mode, alg := 0xF0, bs := 8
    mod1 := (if mode = .ecb then zeros 8 else iv8) ++ zeros 56, ts := some key8 }

/-- `c` with `bs` buffered. -/
def buffered (c : Slot) (bs : List Byte) : Slot := { c with buf := bs ++ zeros (64 - bs.length), fill := bs.length }

/-- K-small and the public part of it (spec/95_test_vectors.md section 0.4). -/
def keySmall : RsaKey := ⟨some 3233, some 17, some 2753, some 61, some 53, some 53, some 49, some 38⟩

/-- K-92 (spec/95_test_vectors.md section 0.4). -/
def key92 : RsaKey :=
  ⟨some 0x0fffffffdfffffff80000001, some 0x010001, some 0x0d82d27cf77788879f4a60b9, some 0x1fffffffffffffff,
    some 0x7fffffff, some 0x1777888877778887, some 0x5555aaa9, some 0x80000001⟩

/-- A consistent key of four bytes, calculated outside the model: primes 4099 and 4111, E = 7. -/
def keyFour : RsaKey := ⟨some 16850989, some 7, some 2005093, some 4099, some 4111, some 1171, some 3523, some 1708⟩

/-- The test curve of spec/95_test_vectors.md section 0.2, loaded by EC_SETCURVE. -/
def groupE0 : Group := ⟨some 23, some 1, some 1, some 3, some 10, some 28, some 1, false, true, 0xE0⟩

/-- A rich idle state: K8 at 0, IV8 at 0x10, P16 at 0x100; slot 0 a CBC encryption with padding, slot 1 a CBC decryption with
padding holding a block, slot 2 ended, slot 3 free; K-small; the test curve and its generator; the backend selected. -/
def bench : State :=
  let s := put (put (put State.reset 0 key8) 0x10 iv8) 0x100 plain16
  { s with
    slots := [toy .cbc false true, buffered (toy .cbc true true) (hex 0xa8adb4b6b4babcab 8),
      { toy .ctr false false with ended := true }, Slot.cleared]
    rsa := keySmall, group := groupE0, point := ⟨true, false, 3, 10⟩, backend := ⟨true, false⟩ }

/-- `bench` with the context `c` in slot 0. -/
def withSlot (c : Slot) : State := { bench with slots := bench.slots.set 0 c }

/-- `bench` with the octets `bs` at 0x100. -/
def withData (bs : List Byte) : State := put bench 0x100 bs

/-- Operands: `n` source bytes at 0x100, destination 0x200 of capacity `cap`, ARG4 = `v`. -/
def io (n cap v : Nat) : Args := ops 0x100 n 0x200 cap v 0 0

/-! ## WellFormed refuses (spec/30_encoding.md R64; spec/00_scope.md R6; spec/40_cipher.md R74; spec/42_ec.md R127) -/

theorem test_selector_in_range : Instr.wf (.cipherInit 15) ∧ ¬ Instr.wf (.cipherInit 16) := by decide
theorem test_selector_every_form :
    ∀ i ∈ [Instr.cipherUpdate 16, .cipherFinal 16, .cipherRelease 16, .cipherReadiv 16, .rsaPubenc 16, .rsaPrivdec 16,
      .rsaPrivenc 16, .rsaPubdec 16, .ecSetform 16], ¬ i.wf := by decide
theorem test_block_size_zero : ¬ Descriptor.wf ⟨0, [8], false, .rotXor⟩ := by decide
theorem test_block_size_65 : ¬ Descriptor.wf ⟨65, [8], false, .rotXor⟩ := by decide
theorem test_curve_small_field : ¬ Curve.wf 1 ⟨2, 1, 1, 0, 1, 1, 1⟩ := fun h => absurd h.1 (by decide)
theorem test_curve_bad_generator : ¬ Curve.wf 1 ⟨23, 1, 1, 3, 11, 28, 1⟩ := fun h => absurd h.2.1 (by decide)
theorem test_curve_too_wide : ¬ Curve.wf 1 ⟨23, 1, 1, 3, 10, 256, 1⟩ := fun h => absurd (h.2.2 256 (by decide)) (by decide)
theorem test_no_context : ¬ { Config.default with nctx := 0 }.legal := fun h => absurd h.1.1 (by decide)
theorem test_17_contexts : ¬ { Config.default with nctx := 17 }.legal := fun h => absurd h.1.2 (by decide)
theorem test_ram_not_words : ¬ { Config.default with dramSize := 66 }.legal := fun h => absurd h.2.1.1 (by decide)
theorem test_ram_too_small : ¬ { Config.default with dramSize := 60 }.legal := fun h => absurd h.2.1.2.1 (by decide)
theorem test_ram_too_large : ¬ { Config.default with dramSize := 16388 }.legal := fun h => absurd h.2.1.2.2 (by decide)
theorem test_datapath_zero : ¬ { Config.default with bnMax := 0 }.legal := fun h => absurd h.2.2.1.1 (by decide)
theorem test_datapath_too_wide : ¬ { Config.default with bnMax := 513 }.legal := fun h => absurd h.2.2.1.2 (by decide)
theorem test_key_bound_zero : ¬ { Config.default with maxKey := 0 }.legal := fun h => absurd h.2.2.2.1.1 (by decide)
theorem test_key_bound_too_large : ¬ { Config.default with maxKey := 257 }.legal := fun h => absurd h.2.2.2.1.2 (by decide)
theorem test_bad_descriptor : ¬ { Config.default with transforms := [(0, ⟨0, [], false, .rotXor⟩)] }.legal :=
  fun h => absurd (h.2.2.2.2.1 _ (List.mem_singleton.2 rfl)).1 (by decide)
theorem test_bad_curve_record : ¬ { Config.default with curveRom := [(0, ⟨2, 1, 1, 0, 1, 1, 1⟩)] }.legal :=
  fun h => absurd (h.2.2.2.2.2 _ (List.mem_singleton.2 rfl)).1 (by decide)

/-! ## Decoding: words written out from spec/30_encoding.md R64, R66 -/

theorem test_decode_cipher :
    decode 0b0000000000000000_0000_0010_00000001 = .ok (.cipherInit 2) ∧
    decode 0b0000000000000000_0000_0001_00000010 = .ok (.cipherUpdate 1) ∧
    decode 0b0000000000000000_0000_0011_00000011 = .ok (.cipherFinal 3) ∧
    decode 0b0000000000000000_0000_1111_00000100 = .ok (.cipherRelease 15) ∧
    decode 0b0000000000000000_0000_1000_00000101 = .ok (.cipherReadiv 8) := by decide

theorem test_decode_rsa :
    decode 0b0000000000000000_0000_0000_00010000 = .ok .rsaLoadcomp ∧
    decode 0b0000000000000000_0000_0000_00010001 = .ok .rsaClearkey ∧
    decode 0b0000000000000000_0000_0000_00010010 = .ok .rsaPublic ∧
    decode 0b0000000000000000_0000_0000_00010011 = .ok .rsaPrivate ∧
    decode 0b0000000000000000_0000_0000_00010100 = .ok .rsaPad1 ∧
    decode 0b0000000000000000_0000_0000_00010101 = .ok .rsaPad2 ∧
    decode 0b0000000000000000_0000_0000_00010110 = .ok .rsaUnpad ∧
    decode 0b0000000000000000_0000_0001_00010111 = .ok (.rsaPubenc 1) ∧
    decode 0b0000000000000000_0000_0001_00011000 = .ok (.rsaPrivdec 1) ∧
    decode 0b0000000000000000_0000_0001_00011001 = .ok (.rsaPrivenc 1) ∧
    decode 0b0000000000000000_0000_0001_00011010 = .ok (.rsaPubdec 1) ∧
    decode 0b0000000000000000_0000_0000_00011011 = .ok .rsaCheckkey := by decide

theorem test_decode_ec :
    decode 0b0000000000000000_0000_0000_00100000 = .ok .ecLoadcomp ∧
    decode 0b0000000000000000_0000_0000_00100001 = .ok .ecSetcurve ∧
    decode 0b0000000000000000_0000_0001_00100010 = .ok (.ecSetform 1) ∧
    decode 0b0000000000000000_0000_0000_00100011 = .ok .ecCleargroup ∧
    decode 0b0000000000000000_0000_0000_00100100 = .ok .ecCheckgroup ∧
    decode 0b0000000000000000_0000_0000_00100101 = .ok .ecPtSetxy ∧
    decode 0b0000000000000000_0000_0000_00100110 = .ok .ecPtSetinf ∧
    decode 0b0000000000000000_0000_0000_00100111 = .ok .ecPtCheck ∧
    decode 0b0000000000000000_0000_0000_00101000 = .ok .ecPtEncode ∧
    decode 0b0000000000000000_0000_0000_00101001 = .ok .ecPtDecode := by decide

/-- The illegal words of spec/30_encoding.md R73, and the ends of the unassigned OP ranges of R70. -/
theorem test_decode_illegal :
    decode 0x00001028 = .error .reservedBits ∧ decode 0x00010002 = .error .reservedBits ∧
    decode 0x00000128 = .error .unusedSelector ∧
    ∀ op ∈ [0x00, 0x06, 0x0F, 0x1C, 0x1F, 0x2A, 0xFF], decode (BitVec.ofNat 32 op) = .error .unassignedOp := by decide

/-- The host's view of the decoder, with bits above the row's 32 left out. -/
theorem test_decode_table_word :
    decodeTableWord 32 0x00000117 = some (.rsaPubenc 1) ∧ decodeTableWord 32 0x00001028 = none ∧
    decodeTableWord 8 0x28 = some .ecPtEncode := by decide

/-! ## Commands, one step each (spec/95_test_vectors.md Part 2) -/

/-- P1: CFG 0x21F0 on slot 1 gives CTXSTAT 0x0800F019. -/
theorem test_cipher_init :
    let t := run bench (.cipherInit 1) (ops 0 8 0 0 0x21F0 0x10 0)
    t.lastCode = .ok ∧ t.slot 1 = toy .cbc false true ∧ ctxStatWord t 1 = 0x0800F019 := by decide +kernel
/-- V-C21, V-C23: an unmapped ALG and a key of 7 bytes are InvalidKey, and the slot is cleared. -/
theorem test_cipher_init_bad_key :
    code bench (.cipherInit 1) (ops 0 8 0 0 0x2101 0x10 0) = .invalidKey ∧
    (run bench (.cipherInit 1) (ops 0 7 0 0 0x21F0 0x10 0)).slot 1 = Slot.cleared := by decide +kernel

/-- V-C04: CBC encryption of 11 bytes. -/
theorem test_cipher_update :
    let t := run bench (.cipherUpdate 0) (io 11 16 0)
    outAt 0x200 t = hex 0xb2b3b4b5b6b7b8b1 8 ∧ (t.slot 0).fill = 3 ∧ (t.slot 0).buf.take 3 = hex 0x18191a 3 := by
  decide +kernel
/-- V-C17, first two chunks: a padded decryption withholds the last full block. -/
theorem test_cipher_update_withholds :
    let t := run (withSlot (buffered (toy .cbc true true) (hex 0xb2b3b4b5b6 5))) (.cipherUpdate 0) (io 3 16 0)
    t.bytesWritten = 0 ∧ (t.slot 0).fill = 8 := by decide +kernel

/-- V-C03: the padded last block of an ECB encryption. -/
theorem test_cipher_final :
    outAt 0x200 (run (withSlot (buffered (toy .ecb false true) (hex 0x18191a 3))) (.cipherFinal 0) (io 0 8 0)) =
      hex 0x1b19010003020d19 8 := by decide +kernel
/-- V-C12: the partial block of OFB, and MOD1 after it. -/
theorem test_cipher_final_partial :
    let c := { buffered (toy .ofb false false) (hex 0x18191a 3) with mod1 := hex 0xa3a1a7a1a3a1afa1 8 ++ zeros 56 }
    let t := run (withSlot c) (.cipherFinal 0) (io 0 8 0)
    outAt 0x200 t = hex 0xbbbdbf 3 ∧ (t.slot 0).mod1.take 8 = hex 0xa3a4a5a6a7a8a9a2 8 ∧ (t.slot 0).ended = true := by
  decide +kernel

theorem test_cipher_release :
    let t := run bench (.cipherRelease 0) (io 0 0 0)
    t.slot 0 = Slot.cleared ∧ ctxStatWord t 0 = 0 ∧ code bench (.cipherRelease 3) (io 0 0 0) = .ok := by decide +kernel
theorem test_cipher_readiv : outAt 0x200 (run bench (.cipherReadiv 2) (io 0 8 0)) = iv8 := by decide +kernel

/-- P3: components are big-endian. -/
theorem test_rsa_loadcomp :
    (run (withData (hex 0x0ca1 2)) .rsaLoadcomp (io 2 0 2)).rsa = { keySmall with d := some 3233 } := by decide +kernel
theorem test_rsa_clearkey : (run bench .rsaClearkey (io 0 0 0)).rsa = RsaKey.empty := by decide +kernel
/-- V-R02: 65^17 mod 3233 = 2790. -/
theorem test_rsa_public : outAt 0x200 (run (withData [0x41]) .rsaPublic (io 1 2 0)) = hex 0x0ae6 2 := by decide +kernel
/-- V-R03: the CRT path, with m1 < m2. -/
theorem test_rsa_private : outAt 0x200 (run (withData (hex 0x0ae6 2)) .rsaPrivate (io 2 2 0)) = hex 0x0041 2 := by
  decide +kernel
/-- V-R08: the D path. -/
theorem test_rsa_private_plain :
    let s := { withData (hex 0x0ae6 2) with rsa := { RsaKey.empty with n := some 3233, d := some 2753 } }
    outAt 0x200 (run s .rsaPrivate (io 2 2 0)) = hex 0x0041 2 := by decide +kernel
/-- V-R11. -/
theorem test_rsa_pad1 :
    outAt 0x200 (run (withData (hex 0xdeadbeef 4)) .rsaPad1 (io 4 12 12)) = hex 0x0001ffffffffff00deadbeef 12 := by
  decide +kernel
/-- V-R11: zero draws are discarded. -/
theorem test_rsa_pad2 :
    let t := run { withData (hex 0xdeadbeef 4) with entropy := ⟨hex 0x00112200334455667788 10, 0⟩ } .rsaPad2 (io 4 12 12)
    outAt 0x200 t = hex 0x0002112233445500deadbeef 12 ∧ t.entropy = ⟨hex 0x667788 3, 7⟩ := by decide +kernel
theorem test_rsa_unpad :
    outAt 0x200 (run (withData (hex 0x0002112233445500deadbeef 12)) .rsaUnpad (io 12 4 0)) = hex 0xdeadbeef 4 := by
  decide +kernel
theorem test_rsa_unpad_bad :
    code (withData (hex 0x0001fffe00aa 6)) .rsaUnpad (io 6 4 0) = .badPadding ∧
    code (withData (hex 0x0001ffff 4)) .rsaUnpad (io 4 4 0) = .badPadding := by decide +kernel
/-- P5. -/
theorem test_rsa_pubenc :
    let s := { withData (hex 0xdeadbeef 4) with rsa := key92, entropy := ⟨List.replicate 5 0x5a, 0⟩ }
    outAt 0x200 (run s (.rsaPubenc 1) (io 4 12 0)) = hex 0x0c38bab8451986720c5b8f02 12 := by decide +kernel
/-- P5. -/
theorem test_rsa_privdec :
    outAt 0x200 (run { withData (hex 0x0c38bab8451986720c5b8f02 12) with rsa := key92 } (.rsaPrivdec 1) (io 12 4 0)) =
      hex 0xdeadbeef 4 := by decide +kernel
/-- V-R17. -/
theorem test_rsa_privenc :
    outAt 0x200 (run { withData (hex 0xdeadbeef 4) with rsa := key92 } (.rsaPrivenc 1) (io 4 12 0)) =
      hex 0x06740878c13d4d2b8cae7ac7 12 := by decide +kernel
/-- V-R17. -/
theorem test_rsa_pubdec :
    outAt 0x200 (run { withData (hex 0x06740878c13d4d2b8cae7ac7 12) with rsa := key92 } (.rsaPubdec 1) (io 12 4 0)) =
      hex 0xdeadbeef 4 := by decide +kernel
/-- V-R09: Valid, PublicOnly. -/
theorem test_rsa_checkkey :
    (run bench .rsaCheckkey (io 0 0 0)).result = 1 ∧
    (run { bench with rsa := { RsaKey.empty with n := some 3233, e := some 17 } } .rsaCheckkey (io 0 0 0)).result = 2 := by
  decide +kernel
/-- V-R09: P = 62, an even E, and COEF wrong. -/
theorem test_rsa_checkkey_bad :
    code { bench with rsa := { keySmall with p := some 62 } } .rsaCheckkey (io 0 0 0) = .primeCheckFailed ∧
    code { bench with rsa := { keySmall with e := some 16 } } .rsaCheckkey (io 0 0 0) = .keyInconsistent ∧
    code { bench with rsa := { keySmall with coef := some 1 } } .rsaCheckkey (io 0 0 0) = .keyInconsistent := by
  decide +kernel

theorem test_ec_loadcomp :
    let t := run (withData [0x0b]) .ecLoadcomp (io 1 0 4)
    t.group = { groupE0 with gy := some 11, named := false, curveId := 0 } ∧ t.point = Point.empty := by decide +kernel
/-- P4: EC_STAT = 0x00E0047F. -/
theorem test_ec_setcurve :
    let t := run { bench with group := .empty } .ecSetcurve (io 0 0 0xE0)
    t.group = groupE0 ∧ ecStatWord t.group t.point = 0x00E0047F := by decide +kernel
theorem test_ec_setform :
    (run bench (.ecSetform 1) (io 0 0 0)).group = { groupE0 with form := true } ∧
    code bench (.ecSetform 2) (io 0 0 0) = .invalidParameters := by decide +kernel
theorem test_ec_cleargroup :
    let t := run bench .ecCleargroup (io 0 0 0)
    t.group = Group.empty ∧ t.point = Point.empty := by decide +kernel
/-- V-E01, V-E12. -/
theorem test_ec_checkgroup :
    (run bench .ecCheckgroup (io 0 0 0)).result = 1 ∧
    (run { bench with group := { groupE0 with gy := some 11 } } .ecCheckgroup (io 0 0 0)).result = 0 := by decide +kernel
theorem test_ec_pt_setxy :
    (run (withData [0x1e, 0x07]) .ecPtSetxy (ops 0x100 1 0 0 0 0x101 1)).point = ⟨true, false, 30, 7⟩ := by decide +kernel
theorem test_ec_pt_setinf : (run bench .ecPtSetinf (io 0 0 0)).point = ⟨true, true, 0, 0⟩ := by decide +kernel
/-- On the curve; congruent to a point of the curve but not reduced. -/
theorem test_ec_pt_check :
    (run bench .ecPtCheck (io 0 0 0)).result = 1 ∧
    (run { bench with point := ⟨true, false, 26, 10⟩ } .ecPtCheck (io 0 0 0)).result = 0 := by decide +kernel
/-- P4, on (3, 13): both forms. -/
theorem test_ec_pt_encode :
    let s := { bench with point := ⟨true, false, 3, 13⟩ }
    outAt 0x200 (run s .ecPtEncode (io 0 3 0)) = hex 0x04030d 3 ∧
    outAt 0x200 (run { s with group := { groupE0 with form := true } } .ecPtEncode (io 0 3 0)) = hex 0x0303 2 := by
  decide +kernel
/-- P4 and section 0.2: the two points with x = 3, and infinity. -/
theorem test_ec_pt_decode :
    (run (withData (hex 0x0303 2)) .ecPtDecode (io 2 0 0)).point = ⟨true, false, 3, 13⟩ ∧
    (run (withData (hex 0x04030a 3)) .ecPtDecode (io 3 0 0)).point = ⟨true, false, 3, 10⟩ ∧
    (run (withData [0x00]) .ecPtDecode (io 1 0 0)).point = ⟨true, true, 0, 0⟩ := by decide +kernel
theorem test_ec_pt_decode_bad :
    code (withData (hex 0x0217 2)) .ecPtDecode (io 2 0 0) = .invalidParameters ∧
    code (withData (hex 0x04030b 3)) .ecPtDecode (io 3 0 0) = .invalidParameters ∧
    code (withData (hex 0x0204 2)) .ecPtDecode (io 1 0 0) = .invalidParameters := by decide +kernel

/-! ## The bus (spec/20_memory.md R48, R51, R53; spec/60_exceptions.md R132, R136, R139) -/

/-- P4: word 0x00001028 leaves STATUS = 0x00280A00. -/
theorem test_illegal_status : readsAs (result (step (bench.withFetchWord 32 0x1028))) 0x014 = some (.data 0x00280A00) := by
  decide +kernel
theorem test_bus_little_endian :
    let s := bus State.reset (.write 0x4200 .w32 0x0D0C0B0A)
    s.ram.readBytes 0x200 4 = hex 0x0a0b0c0d 4 ∧ (bus s (.read 0x4202 .w16)).reply = some (.data 0x0D0C) := by decide +kernel
theorem test_bus_caps : readsAs bench 0x004 = some (.data 0x00034004) := by decide +kernel
theorem test_bus_w1c :
    (bus { bench with irq := ⟨true, true, false, true⟩ } (.write 0x018 .w32 0x9)).irq = ⟨false, true, false, false⟩ := by
  decide +kernel

/-! ## Witnesses: a case that meets the hypotheses of each statement -/

/-- What fits a narrow datapath fits a wider one. -/
theorem lt_wide {v k n : Nat} (h : v < 256 ^ k) (hk : k ≤ n) : v < 256 ^ n :=
  lt_of_lt_of_le h (Nat.pow_le_pow_right (by norm_num) hk)

/-- The test curve may stand in the ROM of any legal datapath. -/
theorem curve_wf {n : Nat} (h : 1 ≤ n) : Curve.wf n ⟨23, 1, 1, 3, 10, 28, 1⟩ := by
  refine ⟨by decide, by decide, fun v hv => lt_wide (k := 1) ?_ h⟩
  revert v
  decide

/-- The default configuration is legal. -/
theorem default_legal : Config.default.legal :=
  ⟨by decide, by decide, by decide, by decide, by decide, fun t ht => by
    rw [List.mem_singleton.1 ht]
    exact curve_wf (by decide)⟩

/-- The default configuration and an empty memory meet what `ResetIsWellFormed` asks. -/
theorem witness_ResetIsWellFormed : Config.default.legal ∧ (Memory.mk []).wf Config.default.dramSize = true :=
  ⟨default_legal, rfl⟩

/-- So is the configuration of `bench`. -/
theorem bench_legal : bench.cfg.legal := by
  rw [show bench.cfg = Config.default from rfl]
  exact default_legal

/-- A component of at most eight bytes fits the default datapath. -/
theorem fits_small {v : Option Nat} (h : v.all (fun n => decide (n < 256 ^ 8)) = true) : fits 512 v = true := by
  cases v with
  | none => rfl
  | some n =>
    simp only [fits, Option.all_some, decide_eq_true_eq] at h ⊢
    exact lt_wide h (by decide)

/-- `bench` is a state of `State.Wf`. -/
theorem bench_wf : bench.Wf where
  legal := bench_legal
  slotCount := rfl
  slots := by decide +kernel
  ram := by decide +kernel
  rsa := fun v hv => fits_small (by revert v; decide)
  group := ⟨fun v hv => fits_small (by revert v; decide), by decide, by decide⟩
  point := ⟨by decide, by decide, ⟨lt_wide (k := 1) (by decide) (by decide), lt_wide (k := 1) (by decide) (by decide)⟩,
    by decide⟩
  backend := by decide
  completion := by decide

/-- So is `bench` with other bytes in the Data RAM, another RSA key of at most eight bytes a component, and any accepted
command. -/
theorem bench_pend_wf (bs : List Byte) (k : RsaKey) (e : Entropy) (i : Instr) (x : Args) (hb : bs.length ≤ 64)
    (hk : ∀ v ∈ [k.n, k.e, k.d, k.p, k.q, k.dmp, k.dmq, k.coef], v.all (fun n => decide (n < 256 ^ 8)) = true) :
    (pend { withData bs with rsa := k, entropy := e } i x).Wf where
  legal := bench_legal
  slotCount := rfl
  slots := bench_wf.slots
  ram := Memory.writeBytes_wf bench_wf.ram bs (show 0x100 + bs.length ≤ 4096 by omega)
  rsa := fun v hv => fits_small (hk v hv)
  group := bench_wf.group
  point := bench_wf.point
  backend := bench_wf.backend
  completion := bench_wf.completion

/-- While a command is pending, `exec` answers a next state, whatever the command. -/
theorem pend_next (s : State) (i : Instr) (x : Args) : ∃ t, exec i (pend s i x) = .next t := ⟨_, exec_pending i rfl⟩

/-- The codes commands end with, each from `s`. -/
def codes (s : State) (l : List (Instr × Args)) : List Code := l.map fun c => code s c.1 c.2

/-! ### Encodings and the step -/

theorem witness_DecodeAndEncodeAgree :
    decode 0x00000F05 = .ok (.cipherReadiv 15) ∧ (Instr.cipherReadiv 15).wf ∧ encode (.cipherReadiv 15) = 0x00000F05 := by
  decide

theorem witness_DecoderMatchesMaskTable :
    (∃ r ∈ rows, 0x00000F05 &&& r.mask = r.value) ∧ (∃ r ∈ rows, 0x00000029 &&& r.mask = r.value) ∧
    (∀ r ∈ rows, ¬ 0x00000128 &&& r.mask = r.value) ∧
    { bench with pending := some ⟨0x00000128, io 0 0 0⟩ }.pending = some ⟨0x00000128, io 0 0 0⟩ := by decide

theorem witness_IllegalWordsComplete :
    illegalWord 0x00001028 = true ∧ illegalWord 0x0000002A = true ∧ illegalWord 0x00000110 = true ∧
    illegalWord 0x00000022 = false ∧
    { bench with pending := some ⟨0x00001028, io 0 0 0⟩ }.pending = some ⟨0x00001028, io 0 0 0⟩ := by decide

theorem witness_StepRunsDecodedCommand :
    (pend bench .rsaPublic (io 1 2 0)).pending = some ⟨encode .rsaPublic, io 1 2 0⟩ ∧
    decode (encode .rsaPublic) = .ok .rsaPublic ∧ (pend bench .rsaPublic (io 1 2 0)).inputs = [] ∧
    decode (BitVec.ofNat 32 (0x12 % 2 ^ 32)) = .ok .rsaPublic := by decide

theorem witness_StepAlwaysAnswersNext : bench.pending = none := by decide

theorem witness_EveryCommandCompletes :
    (pend bench .rsaPublic (io 1 2 0)).pending = some ⟨encode .rsaPublic, io 1 2 0⟩ ∧
    code bench .rsaPublic (io 1 2 0) = .ok ∧ code bench .rsaPublic (io 1 1 0) = .bufferTooSmall := by decide +kernel

theorem witness_StepKeepsWellFormed : bench.Wf ∧ ∃ t, step bench = .next t := ⟨bench_wf, _, rfl⟩

/-- One failure of each kind `survivors` tells apart. -/
theorem witness_FailedCommandLeavesState :
    (∀ i x, ∃ t, Turn (pend bench i x) t) ∧
    codes bench [(.cipherInit 0, ops 0 7 0 0 0x21F0 0x10 0), (.cipherInit 4, ops 0 8 0 0 0x21F0 0x10 0),
      (.cipherFinal 0, io 0 7 0), (.cipherFinal 3, io 0 8 0), (.rsaPublic, io 1 1 0)] =
      [.invalidKey, .invalidParameters, .bufferTooSmall, .invalidParameters, .bufferTooSmall] := by
  refine ⟨fun i x => ?_, by decide +kernel⟩
  show ∃ t, engineStep (pend bench i x) = .next t
  simp only [engineStep, pend]
  split
  · exact ⟨_, exec_pending _ rfl⟩
  · exact ⟨_, rfl⟩

theorem witness_CommandReadsOnlyItsSnapshot :
    bench.pending = none ∧ (0 < 8 ∧ 7 < 8) ∧ ∃ t, exec .rsaPublic (pend bench .rsaPublic (io 1 2 0)) = .next t :=
  ⟨rfl, by decide, pend_next ..⟩

theorem witness_BackendIsSelectedOnce :
    (∃ t, step { bench with inputs := [.powerOn []] } = .next t) ∧
    (∃ t, step { bench with inputs := [.bus (.read 0 .w32)] } = .next t) ∧ (∃ t, step bench = .next t) ∧
    (∃ t, step (pend bench (.cipherInit 0) (io 0 0 0)) = .next t) ∧
    (∃ t, step (pend bench .ecPtCheck (io 0 0 0)) = .next t) := ⟨⟨_, rfl⟩, ⟨_, rfl⟩, ⟨_, rfl⟩, ⟨_, rfl⟩, ⟨_, rfl⟩⟩

theorem witness_BackendNeverChangesResults :
    ∃ t, exec (.cipherInit 0) (pend bench (.cipherInit 0) (io 0 0 0)) = .next t := pend_next ..

/-! ### Frames -/

theorem witness_CipherCommandsFrame :
    ∀ i ∈ [Instr.cipherInit 0, .cipherUpdate 0, .cipherFinal 0, .cipherRelease 0, .cipherReadiv 0],
      ∃ t, exec i (pend bench i (io 11 16 0)) = .next t := fun _ _ => pend_next ..

theorem witness_RsaCommandsFrame :
    (∀ i ∈ [Instr.rsaLoadcomp, .rsaClearkey, .rsaPad2, .rsaPubenc 0, .rsaPubenc 1, .rsaCheckkey],
      0x10 ≤ i.opcode.toNat ∧ i.opcode.toNat ≤ 0x1B) ∧
    ∀ i, ∃ t, exec i (pend bench i (io 1 12 0)) = .next t := ⟨by decide, fun _ => pend_next ..⟩

theorem witness_EcCommandsFrame :
    (∀ i ∈ [Instr.ecLoadcomp, .ecSetcurve, .ecSetform 1, .ecCleargroup, .ecCheckgroup, .ecPtSetxy, .ecPtCheck, .ecPtEncode,
      .ecPtDecode], 0x20 ≤ i.opcode.toNat) ∧
    ∀ i, ∃ t, exec i (pend bench i (io 1 12 0)) = .next t := ⟨by decide, fun _ => pend_next ..⟩

theorem witness_CommandsWithoutDestinationLeaveRam :
    storing .ecPtDecode = false ∧ ∃ t, exec .ecPtDecode (pend bench .ecPtDecode (io 1 0 0)) = .next t :=
  ⟨rfl, pend_next ..⟩

/-- A command that writes, and one that writes nothing. -/
theorem witness_CommandsWriteOnlyReportedBytes :
    (pend { withData [0x41] with rsa := keySmall, entropy := ⟨[], 0⟩ } .rsaPublic (io 1 2 0)).Wf ∧
    storing .rsaPublic = true ∧
    (run (withData [0x41]) .rsaPublic (io 1 2 0)).bytesWritten = 2 ∧
    (run (withData [0x41]) .rsaPublic (io 1 1 0)).bytesWritten = 0 :=
  ⟨bench_pend_wf _ _ _ _ _ (by decide) (by decide), rfl, by decide +kernel, by decide +kernel⟩

/-! ### Cipher engine -/

theorem witness_CounterCountsLowBytes :
    (hex 0xffffffffffffffff 8).length = 8 ∧ (hex 0x11ffffffffffffffff 9).length = 9 ∧ (hex 0xff 1).length = 1 := by decide

theorem witness_GcmBehavesAsCtr :
    (∃ t, exec (.cipherUpdate 0) (pend (withSlot (toy .gcm false false)) (.cipherUpdate 0) (io 11 16 0)) = .next t) ∧
    (ops 0 8 0 0 0x06F0 0x10 0)[4].extractLsb' 8 4 = 6 ∧
    ∃ t, exec (.cipherInit 0) (pend bench (.cipherInit 0) (ops 0 8 0 0 0x06F0 0x10 0)) = .next t :=
  ⟨pend_next .., by decide, pend_next ..⟩

/-- OK; then checks (1), (2) twice, (3), (4), (5), (6), (7), at their boundaries. Check (8) fails only on an external
transform. -/
theorem witness_CipherInitSetsUpContext :
    (∀ d, lookupTransform Config.default 0xF0 = some d → d.wf) ∧
    codes bench [(.cipherInit 3, ops 4088 8 0 0 0x21F0 0x10 0), (.cipherInit 4, ops 0 8 0 0 0x21F0 0x10 0),
      (.cipherInit 0, ops 0 8 0 0 0x61F0 0x10 0), (.cipherInit 0, ops 0 8 0 0 0x07F0 0x10 0),
      (.cipherInit 0, ops 0 8 0 0 0x2101 0x10 0), (.cipherInit 0, ops 0 4 0 0 0x01F2 0x10 0),
      (.cipherInit 0, ops 4089 8 0 0 0x21F0 0x10 0), (.cipherInit 0, ops 0 8 0 0 0x21F0 4089 0),
      (.cipherInit 0, ops 0 7 0 0 0x21F0 0x10 0)] =
      [.ok, .invalidParameters, .invalidParameters, .invalidParameters, .invalidKey, .invalidParameters, .invalidParameters,
        .invalidParameters, .invalidKey] := by
  refine ⟨fun d hd => ?_, by decide +kernel⟩
  have h : lookupTransform Config.default 0xF0 = some ⟨8, [8], false, .rotXor⟩ := by decide
  rw [h, Option.some.injEq] at hd
  subst hd
  decide

/-- OK with the capacity just wide enough; then checks (1) to (6). -/
theorem witness_CipherUpdateProcessesBlocks :
    codes bench [(.cipherUpdate 0, io 15 8 0), (.cipherUpdate 4, io 15 8 0), (.cipherUpdate 3, io 15 8 0),
      (.cipherUpdate 2, io 15 8 0), (.cipherUpdate 0, ops 4095 2 0 8 0 0 0), (.cipherUpdate 0, ops 0 8 4089 8 0 0 0),
      (.cipherUpdate 0, io 15 7 0)] =
      [.ok, .invalidParameters, .invalidParameters, .invalidParameters, .invalidParameters, .invalidParameters,
        .bufferTooSmall] := by decide +kernel

/-- OK, OK on an ended slot; then checks (1) to (4), (5) with 9 and with 0, (6), (7). -/
theorem witness_CipherFinalEndsContext :
    codes bench [(.cipherFinal 0, io 0 8 0), (.cipherFinal 2, io 0 0 0), (.cipherFinal 4, io 0 8 0),
      (.cipherFinal 3, io 0 8 0), (.cipherFinal 0, ops 0 0 4089 8 0 0 0)] =
      [.ok, .ok, .invalidParameters, .invalidParameters, .invalidParameters] ∧
    code (withSlot (buffered (toy .cbc true true) (hex 0xa8adb4b6b4babc 7))) (.cipherFinal 0) (io 0 8 0) = .badPadding ∧
    code (withSlot { buffered (toy .cbc true true) (hex 0xa8adb4b6b4babcab 8) with
      mod1 := hex 0xb2b3b4b5b6b7b8bd 8 ++ zeros 56 }) (.cipherFinal 0) (io 0 8 0) = .badPadding ∧
    code (withSlot { buffered (toy .cbc true true) (hex 0xa8adb4b6b4babcab 8) with
      mod1 := hex 0xb2b3b4b5b6b7b8b4 8 ++ zeros 56 }) (.cipherFinal 0) (io 0 8 0) = .badPadding ∧
    code (withSlot (buffered (toy .cbc false false) [1])) (.cipherFinal 0) (io 0 8 0) = .invalidParameters ∧
    code bench (.cipherFinal 0) (io 0 7 0) = .bufferTooSmall := by decide +kernel

theorem witness_CipherReleaseAndReadiv :
    codes bench [(.cipherRelease 3, io 0 0 0), (.cipherRelease 4, io 0 0 0), (.cipherReadiv 0, io 0 8 0),
      (.cipherReadiv 4, io 0 8 0), (.cipherReadiv 3, io 0 8 0), (.cipherReadiv 0, ops 0 0 4089 8 0 0 0),
      (.cipherReadiv 0, io 0 7 0)] =
      [.ok, .invalidParameters, .ok, .invalidParameters, .invalidParameters, .invalidParameters, .bufferTooSmall] := by
  decide +kernel

/-- Slot 0 is active, slot 2 ended, slot 3 invalid; the commands answer as R89's table says. -/
theorem witness_ContextStateMachine :
    (∀ i x, (pend { withData [] with rsa := keySmall, entropy := ⟨[], 0⟩ } i x).Wf) ∧ 3 < bench.cfg.nctx ∧
    ((bench.slot 0).valid = true ∧ (bench.slot 0).ended = false) ∧
    ((bench.slot 2).valid = true ∧ (bench.slot 2).ended = true) ∧ (bench.slot 3).valid = false ∧
    codes bench [(.cipherInit 0, ops 0 8 0 0 0x21F0 0x10 0), (.cipherInit 0, ops 0 7 0 0 0x21F0 0x10 0),
      (.cipherUpdate 0, io 11 16 0), (.cipherUpdate 2, io 11 16 0), (.cipherUpdate 3, io 11 16 0), (.cipherFinal 0, io 0 8 0),
      (.cipherFinal 2, io 0 8 0), (.cipherFinal 3, io 0 8 0), (.cipherReadiv 2, io 0 8 0), (.cipherReadiv 3, io 0 8 0)] =
      [.ok, .invalidKey, .ok, .invalidParameters, .invalidParameters, .ok, .ok, .invalidParameters, .ok,
        .invalidParameters] :=
  ⟨fun _ _ => bench_pend_wf _ _ _ _ _ (by decide) (by decide), by decide, by decide +kernel, by decide +kernel,
    by decide +kernel, by decide +kernel⟩

/-- 11 bytes at once, and as 5 and 6 bytes from elsewhere. -/
theorem witness_ChunkingIndependence :
    let xs := [(bench.ram, io 11 16 0)]
    let ys := [((withData [9]).ram, ops 0x100 0 0x200 0 0 0 0), (bench.ram, ops 0x100 5 0x200 16 0 0 0),
      (bench.ram, ops 0x105 6 0x240 16 0 0 0)]
    bench.Wf ∧ (∀ e ∈ xs ++ ys, e.1.wf bench.cfg.dramSize = true) ∧
    (feed 0 bench xs).map (·.2.1) = some (plain16.take 11) ∧ (feed 0 bench ys).map (·.2.1) = some (plain16.take 11) :=
  ⟨bench_wf, by decide +kernel, by decide +kernel, by decide +kernel⟩

/-- A byte string rotated left and then right. -/
theorem rotRight_rotLeft (l : List Byte) : rotRight (rotLeft l) = l := by
  cases l <;> simp [rotLeft, rotRight]

/-- A byte string of the block size is its own block. -/
theorem fit_self {n : Nat} {l : List Byte} (hl : l.length = n) : fit n l = l := by simp [fit, hl, zeros]

/-- TOY8 has the round-trip property; its transform state is its eight-byte key. -/
theorem toy8_roundTrips : RoundTrips ⟨8, [8], false, .rotXor⟩ (fun ts => ts.length = 8) := by
  refine ⟨fun key iv ts hk h => ?_, fun ts b h _ => ?_, fun ts part h hp => ?_⟩
  · have hts : ts = key := by simpa [transformKs] using h.symm
    simpa [hts] using hk
  · simpa [transformEnc, normalised] using h
  · replace hp : part.length = 8 := by simpa using hp
    have hx : (xorBytes part ts).length = 8 := by simp [hp, h]
    have hl : (rotLeft (xorBytes part ts)).length = 8 := by
      cases hc : xorBytes part ts <;> simp_all [rotLeft]
    have hxx : xorBytes (xorBytes part ts) ts = part := by
      rw [xorBytes_comm (xorBytes part ts), xorBytes_comm part, xorBytes_cancel (by omega)]
    have hz : zeros (8 - part.length) = [] := by simp [hp, zeros]
    simp only [hz, List.append_nil, transformDec, transformEnc, normalised, fit_self hl]
    have ht : (rotLeft (xorBytes part ts)).take part.length = rotLeft (xorBytes part ts) :=
      List.take_of_length_le (by omega)
    rw [ht, rotRight_rotLeft, hxx, fit_self hp, List.take_length]
    exact ⟨rfl, fun _ => trivial⟩

/-- TOYS4, a stream transform, has it too, on partial blocks as well. -/
theorem toys4_roundTrips : RoundTrips ⟨4, [4], true, .xorKey⟩ (fun ts => ts.length = 4) := by
  refine ⟨fun key iv ts hk h => ?_, fun ts b h _ => ?_, fun ts part h hp => ?_⟩
  · have hts : ts = key := by simpa [transformKs] using h.symm
    simpa [hts] using hk
  · simpa [transformEnc, normalised] using h
  · replace hp : part.length ≤ 4 := by rcases hp with hp | hp <;> simp_all
    obtain ⟨a, b, c, d, rfl⟩ : ∃ a b c d, ts = [a, b, c, d] := by
      match ts, h with
      | [a, b, c, d], _ => exact ⟨a, b, c, d, rfl⟩
    match part, hp with
    | [], _ | [p], _ | [p, q], _ | [p, q, r], _ | [p, q, r, u], _ =>
      simp [transformDec, transformEnc, normalised, fit, zeros, xorBytes, List.replicate]

/-- V-C04 and V-C04d: 11 bytes under CBC with padding, in two contexts. -/
theorem witness_CipherRoundTrip :
    let xe := ops 0 8 0 0 0x21F0 0x10 0
    let xd := ops 0 8 0 0 0x31F0 0x10 0
    let m' := (withData (hex 0xb2b3b4b5b6b7b8b1a8adb4b6b4babcab 16)).ram
    let a := (start 0 bench bench.ram xe).getD bench
    let b := ((feed 0 a [(bench.ram, io 11 16 0)]).map (·.1)).getD bench
    let a' := (start 1 bench bench.ram xd).getD bench
    bench.Wf ∧
    lookupTransform bench.cfg (xe[4].extractLsb' 0 8) = some ⟨8, [8], false, .rotXor⟩ ∧
    RoundTrips ⟨8, [8], false, .rotXor⟩ (fun ts => ts.length = 8) ∧
    (xe[4].getLsbD 12 = false ∧ xd[4] = xe[4] ||| 0x1000) ∧
    (bench.ram.wf 4096 = true ∧ m'.wf 4096 = true) ∧
    (start 0 bench bench.ram xe).isSome = true ∧
    (feed 0 a [(bench.ram, io 11 16 0)]).map (·.2) = some (plain16.take 11, hex 0xb2b3b4b5b6b7b8b1 8) ∧
    finish 0 b bench.ram (io 0 8 0) = some (.ok, hex 0xa8adb4b6b4babcab 8) ∧
    (start 1 bench bench.ram xd).isSome = true ∧
    (feed 1 a' [(m', io 16 16 0)]).map (·.2.1) = some (hex 0xb2b3b4b5b6b7b8b1a8adb4b6b4babcab 16) ∧
    0x200 + 11 ≤ bench.cfg.dramSize :=
  ⟨bench_wf, by decide +kernel, toy8_roundTrips, by decide, ⟨by decide +kernel, by decide +kernel⟩,
    by decide +kernel, by decide +kernel, by decide +kernel, by decide +kernel, by decide +kernel, by decide⟩

/-- V-C19: seven bytes under the stream transform TOYS4, encrypted and decrypted in two contexts. -/
theorem witness_CipherRoundTrip_stream :
    let xe := ops 0 4 0 0 0x20F2 0x10 0
    let xd := ops 0 4 0 0 0x30F2 0x10 0
    let mk := (put bench 0 (hex 0xf00faa55 4)).ram
    let mp := (withData (hex 0x01020304050607 7)).ram
    let mc := (withData (hex 0xf10da951f509ad 7)).ram
    let a := (start 0 bench mk xe).getD bench
    let b := ((feed 0 a [(mp, io 7 16 0)]).map (·.1)).getD bench
    let a' := (start 1 bench mk xd).getD bench
    let b' := ((feed 1 a' [(mc, io 7 16 0)]).map (·.1)).getD bench
    lookupTransform bench.cfg (xe[4].extractLsb' 0 8) = some ⟨4, [4], true, .xorKey⟩ ∧
    RoundTrips ⟨4, [4], true, .xorKey⟩ (fun ts => ts.length = 4) ∧
    (xe[4].getLsbD 12 = false ∧ xd[4] = xe[4] ||| 0x1000) ∧
    (mk.wf 4096 = true ∧ mp.wf 4096 = true ∧ mc.wf 4096 = true) ∧
    (start 0 bench mk xe).isSome = true ∧
    (feed 0 a [(mp, io 7 16 0)]).map (·.2) = some (hex 0x01020304050607 7, hex 0xf10da951 4) ∧
    finish 0 b bench.ram (io 0 8 0) = some (.ok, hex 0xf509ad 3) ∧
    (start 1 bench mk xd).isSome = true ∧
    (feed 1 a' [(mc, io 7 16 0)]).map (·.2) = some (hex 0xf10da951f509ad 7, hex 0x01020304 4) ∧
    finish 1 b' bench.ram (io 0 8 0) = some (.ok, hex 0x050607 3) :=
  ⟨by decide +kernel, toys4_roundTrips, by decide, ⟨by decide +kernel, by decide +kernel, by decide +kernel⟩,
    by decide +kernel, by decide +kernel, by decide +kernel, by decide +kernel, by decide +kernel, by decide +kernel⟩

/-! ### RSA datapath -/

/-- Components 0 and 7; then checks (1), (2), (3). -/
theorem witness_RsaLoadcompAndClearkey :
    codes bench [(.rsaLoadcomp, ops 0 512 0 0 0 0 0), (.rsaLoadcomp, io 0 0 7), (.rsaLoadcomp, ops 4095 2 0 0 0 0 0),
      (.rsaLoadcomp, io 1 0 8), (.rsaLoadcomp, ops 0 513 0 0 0 0 0)] =
      [.ok, .ok, .invalidParameters, .invalidParameters, .outOfMemory] := by decide +kernel

/-- OK with the greatest operand; then checks (1) twice, (2), (3), (4) and (5). -/
theorem witness_RsaPublicTransform :
    code (withData (hex 3232 2)) .rsaPublic (io 2 2 0) = .ok ∧
    codes bench [(.rsaPublic, ops 4095 2 0 2 0 0 0), (.rsaPublic, ops 0 1 4095 2 0 0 0), (.rsaPublic, ops 0 513 0 2 0 0 0)] =
      [.invalidParameters, .invalidParameters, .outOfMemory] ∧
    code { bench with rsa := { keySmall with e := none } } .rsaPublic (io 1 2 0) = .invalidKey ∧
    code (withData (hex 3233 2)) .rsaPublic (io 2 2 0) = .valueTooLarge ∧
    code (withData [0x41]) .rsaPublic (io 1 1 0) = .bufferTooSmall := by decide +kernel

/-- The CRT path and the D path; then checks (2), (3), (4), the two CRT guards, (5). -/
theorem witness_RsaPrivateTransform :
    code (withData (hex 3232 2)) .rsaPrivate (io 2 2 0) = .ok ∧
    code { bench with rsa := { keySmall with q := none } } .rsaPrivate (io 1 2 0) = .ok ∧
    code { bench with rsa := { keySmall with q := none, d := none } } .rsaPrivate (io 1 2 0) = .invalidKey ∧
    code bench .rsaPrivate (ops 0 513 0 2 0 0 0) = .outOfMemory ∧
    code (withData (hex 3233 2)) .rsaPrivate (io 2 2 0) = .valueTooLarge ∧
    code { bench with rsa := { keySmall with p := some 0 } } .rsaPrivate (io 1 2 0) = .keyInconsistent ∧
    code { bench with rsa := { keySmall with q := some 65536 } } .rsaPrivate (io 1 2 0) = .keyInconsistent ∧
    code bench .rsaPrivate (io 1 1 0) = .bufferTooSmall := by decide +kernel

/-- The shortest pad; then checks (1), (2), (3), for both padders. -/
theorem witness_RsaPadBlocks :
    codes bench [(.rsaPad1, io 4 7 7), (.rsaPad1, ops 4095 2 0 9 5 0 0), (.rsaPad1, io 4 7 6), (.rsaPad1, io 4 6 7),
      (.rsaPad2, io 4 7 7), (.rsaPad2, ops 4095 2 0 9 5 0 0), (.rsaPad2, io 4 7 6), (.rsaPad2, io 4 6 7)] =
      [.ok, .invalidParameters, .invalidParameters, .bufferTooSmall,
        .ok, .invalidParameters, .invalidParameters, .bufferTooSmall] := by decide +kernel

/-- A block of each type, blocks that are none, and a case for each check. -/
theorem witness_RsaUnpadBlocks :
    Padded (hex 0x0001ff00aa 5) [0xaa] ∧ Padded (hex 0x0002110000 5) [0x00] ∧ Padded (hex 0x000100 3) [] ∧
    (¬ ∃ data, Padded [0x01] data) ∧ (¬ ∃ data, Padded (hex 0x0003 2) data) ∧
    code (withData (hex 0x0001ff00aa 5)) .rsaUnpad (io 5 1 0) = .ok ∧
    code (withData (hex 0x0001ff00aa 5)) .rsaUnpad (io 5 0 0) = .bufferTooSmall ∧
    code (withData [0x01]) .rsaUnpad (io 1 1 0) = .badPadding ∧
    code bench .rsaUnpad (ops 4095 2 0 1 0 0 0) = .invalidParameters := by
  refine ⟨.inl ⟨1, by decide⟩, .inr ⟨[0x11], by decide, by decide⟩, .inl ⟨0, by decide⟩, ?_, ?_, by decide +kernel,
    by decide +kernel, by decide +kernel, by decide +kernel⟩
  · rintro ⟨data, ⟨n, h⟩ | ⟨ps, -, h⟩⟩ <;> simp [type1, type2] at h
  · rintro ⟨data, ⟨n, h⟩ | ⟨ps, -, h⟩⟩ <;> simp [type1, type2, hex, i2os] at h

/-- Selectors 0 to 2 and 15; then checks (2) to (5) of the padded form. -/
theorem witness_RsaPublicEncrypt :
    let s := { withData [0x41] with rsa := keyFour }
    codes s [(.rsaPubenc 0, io 1 4 0), (.rsaPubenc 1, io 1 4 0), (.rsaPubenc 2, io 1 4 0), (.rsaPubenc 15, io 1 4 0),
      (.rsaPubenc 1, ops 4096 1 0 4 0 0 0), (.rsaPubenc 1, io 2 4 0), (.rsaPubenc 1, io 1 3 0)] =
      [.ok, .ok, .unsupportedPadding, .unsupportedPadding, .invalidParameters, .invalidParameters, .bufferTooSmall] ∧
    code { s with rsa := { keyFour with e := none } } (.rsaPubenc 1) (io 1 4 0) = .invalidKey := by decide +kernel

/-- 10937090 is the block `00 02 00 41` to the power E; 7 is no padded block. -/
theorem witness_RsaPrivateDecrypt :
    let s := { withData (hex 10937090 4) with rsa := keyFour }
    Padded (i2os 0x00020041 4) [0x41] ∧
    codes s [(.rsaPrivdec 0, io 4 4 0), (.rsaPrivdec 1, io 4 1 0), (.rsaPrivdec 2, io 4 1 0), (.rsaPrivdec 1, io 4 0 0),
      (.rsaPrivdec 1, ops 0 513 0 1 0 0 0), (.rsaPrivdec 1, ops 0x100 5 0 1 0 0 0)] =
      [.ok, .ok, .unsupportedPadding, .bufferTooSmall, .outOfMemory, .valueTooLarge] ∧
    code { s with rsa := RsaKey.empty } (.rsaPrivdec 1) (io 4 1 0) = .invalidKey ∧
    code { s with rsa := { keyFour with p := some 0 } } (.rsaPrivdec 1) (io 4 1 0) = .keyInconsistent ∧
    code { withData [7] with rsa := keyFour } (.rsaPrivdec 1) (io 1 1 0) = .badPadding :=
  ⟨.inr ⟨[], by decide, by decide⟩, by decide +kernel, by decide +kernel, by decide +kernel, by decide +kernel⟩

theorem witness_RsaPrivateEncrypt :
    let s := { withData [0x41] with rsa := keyFour }
    codes s [(.rsaPrivenc 0, io 1 4 0), (.rsaPrivenc 1, io 1 4 0), (.rsaPrivenc 2, io 1 4 0), (.rsaPrivenc 1, io 2 4 0),
      (.rsaPrivenc 1, io 1 3 0), (.rsaPrivenc 1, ops 4096 1 0 4 0 0 0)] =
      [.ok, .ok, .unsupportedPadding, .invalidParameters, .bufferTooSmall, .invalidParameters] ∧
    code { s with rsa := RsaKey.empty } (.rsaPrivenc 1) (io 1 4 0) = .invalidKey ∧
    code { s with rsa := { keyFour with q := some 0 } } (.rsaPrivenc 1) (io 1 4 0) = .keyInconsistent := by decide +kernel

/-- The private transform of the block `00 01 00 41` is 10895349, calculated outside the model. -/
theorem witness_RsaPublicDecrypt :
    let s := { withData (hex 10895349 4) with rsa := keyFour }
    Padded (i2os 0x00010041 4) [0x41] ∧
    codes s [(.rsaPubdec 0, io 4 4 0), (.rsaPubdec 1, io 4 1 0), (.rsaPubdec 2, io 4 1 0), (.rsaPubdec 1, io 4 0 0),
      (.rsaPubdec 1, ops 0 513 0 1 0 0 0), (.rsaPubdec 1, ops 0x100 5 0 1 0 0 0)] =
      [.ok, .ok, .unsupportedPadding, .bufferTooSmall, .outOfMemory, .valueTooLarge] ∧
    code { s with rsa := RsaKey.empty } (.rsaPubdec 1) (io 4 1 0) = .invalidKey ∧
    code { withData [7] with rsa := keyFour } (.rsaPubdec 1) (io 1 1 0) = .badPadding :=
  ⟨.inl ⟨0, by decide⟩, by decide +kernel, by decide +kernel, by decide +kernel⟩

/-- The three key shapes; then each check with only it failing. -/
theorem witness_RsaKeyCheck :
    let with' := fun k => code { bench with rsa := k } .rsaCheckkey (io 0 0 0)
    [with' keySmall, with' ⟨some 3233, some 17, none, none, none, none, none, none⟩,
      with' ⟨some 3233, some 17, some 2753, none, none, none, none, none⟩, with' { keySmall with n := none },
      with' { keySmall with e := some 16 }, with' { keySmall with e := some 1 }, with' { keySmall with q := none },
      with' { keySmall with p := some 62 }, with' { keySmall with n := some 3234 }, with' { keySmall with dmp := some 52 },
      with' { keySmall with dmq := some 48 }, with' { keySmall with coef := none }, with' { keySmall with coef := some 99 }] =
      [.ok, .ok, .ok, .invalidKey, .keyInconsistent, .keyInconsistent, .keyInconsistent, .primeCheckFailed,
        .keyInconsistent, .keyInconsistent, .keyInconsistent, .keyInconsistent, .keyInconsistent] := by decide +kernel

/-- K-small is consistent. -/
theorem keySmall_consistent : Consistent keySmall 3233 17 2753 61 53 :=
  ⟨by norm_num, by norm_num, by decide, by decide, by decide +kernel, rfl, rfl,
    .inr ⟨rfl, rfl, by decide, by decide, 38, rfl, by decide, by decide⟩⟩

/-- So is the four-byte key, with the quintet and without. -/
theorem keyFour_consistent : Consistent keyFour 16850989 7 2005093 4099 4111 :=
  ⟨by norm_num, by norm_num, by decide, by decide, by decide +kernel, rfl, rfl,
    .inr ⟨rfl, rfl, by decide, by decide, 1708, rfl, by decide, by decide⟩⟩

theorem keyFour_plain_consistent : Consistent { keyFour with coef := none } 16850989 7 2005093 4099 4111 :=
  ⟨by norm_num, by norm_num, by decide, by decide, by decide +kernel, rfl, rfl, .inl ⟨by decide, rfl⟩⟩

/-- A key with the prime 2, calculated outside the model; it fits the CRT formula for odd numbers. -/
def keyTwo : RsaKey := ⟨some 3314, some 5, some 1325, some 2, some 1657, some 0, some 1325, some 1⟩

theorem keyTwo_consistent : Consistent keyTwo 3314 5 1325 2 1657 :=
  ⟨by norm_num, by norm_num, by decide, by decide, by decide +kernel, rfl, rfl,
    .inr ⟨rfl, rfl, by decide, by decide, 1, rfl, by decide, by decide⟩⟩

theorem witness_CrtEqualsPlainExponentiation :
    (let s := pend bench .rsaPrivate (io 2 2 0)
     s.pending = some ⟨encode .rsaPrivate, io 2 2 0⟩ ∧ Consistent s.rsa 3233 17 2753 61 53 ∧ quintet s.rsa = true ∧
     CrtExact s.rsa 61 53 (os2i (bytesAt s (io 2 2 0)[0] (io 2 2 0)[1])) ∧ ∃ t, exec .rsaPrivate s = .next t) ∧
    (let s := pend { withData [0x41] with rsa := keyTwo } .rsaPrivate (io 1 2 0)
     s.pending = some ⟨encode .rsaPrivate, io 1 2 0⟩ ∧ Consistent s.rsa 3314 5 1325 2 1657 ∧ quintet s.rsa = true ∧
     CrtExact s.rsa 2 1657 (os2i (bytesAt s (io 1 2 0)[0] (io 1 2 0)[1])) ∧ ∃ t, exec .rsaPrivate s = .next t) :=
  ⟨⟨rfl, keySmall_consistent, by decide, fun _ h => absurd h (by decide), pend_next ..⟩,
    ⟨rfl, keyTwo_consistent, by decide, fun _ _ => by decide +kernel, pend_next ..⟩⟩

/-- With K-small, and with the prime 2 and an odd number. -/
theorem witness_PrivateInvertsPublic :
    let s := fun k => pend { withData [0x41] with rsa := k, entropy := ⟨[], 0⟩ } .rsaPublic (io 1 2 0)
    let x := ops 0x200 2 0x300 2 0 0 0
    (∀ k ∈ [keySmall, keyTwo], (s k).Wf ∧ (s k).pending = some ⟨encode .rsaPublic, io 1 2 0⟩ ∧
      (∃ t, exec .rsaPublic (s k) = .next t) ∧ code { withData [0x41] with rsa := k } .rsaPublic (io 1 2 0) = .ok) ∧
    Consistent keySmall 3233 17 2753 61 53 ∧ CrtExact keySmall 61 53 0x41 ∧
    Consistent keyTwo 3314 5 1325 2 1657 ∧ CrtExact keyTwo 2 1657 0x41 ∧
    os2i (bytesAt (s keyTwo) (io 1 2 0)[0] (io 1 2 0)[1]) = 0x41 ∧
    x[0] = (io 1 2 0)[2] ∧ x[1].toNat = bytelen 3233 ∧ x[1].toNat = bytelen 3314 ∧
    inside bench x[2] x[3] = true ∧ bytelen 3314 ≤ x[3].toNat := by
  refine ⟨fun k hk => ⟨?_, rfl, ⟨_, exec_pending _ rfl⟩, ?_⟩, keySmall_consistent, fun _ h => absurd h (by decide),
    keyTwo_consistent, fun _ _ => by decide, by decide +kernel, by decide, by decide, by decide, by decide, by decide⟩
  · revert k
    simp only [List.forall_mem_cons]
    exact ⟨bench_pend_wf _ _ _ _ _ (by decide) (by decide), bench_pend_wf _ _ _ _ _ (by decide) (by decide), by simp⟩
  · revert k
    decide +kernel

/-- Both pairs, with the CRT quintet; RSA_PUBENC draws no byte here, its key being just wide enough. -/
theorem witness_PaddedRoundTrips :
    let s := fun i => pend { withData [0x41] with rsa := keyFour, entropy := ⟨[], 0⟩ } i (io 1 4 0)
    let x := ops 0x200 4 0x300 1 0 0 0
    (∀ i, (s i).Wf ∧ (s i).pending = some ⟨encode i, io 1 4 0⟩) ∧ Consistent keyFour 16850989 7 2005093 4099 4111 ∧
    Consistent { keyFour with coef := none } 16850989 7 2005093 4099 4111 ∧ CrtExact keyFour 4099 4111 0x41 ∧
    codes { withData [0x41] with rsa := keyFour } [(.rsaPubenc 1, io 1 4 0), (.rsaPrivenc 1, io 1 4 0)] = [.ok, .ok] ∧
    x[0] = (io 1 4 0)[2] ∧ x[1].toNat = bytelen 16850989 ∧ inside bench x[2] x[3] = true ∧
    (io 1 4 0)[1].toNat ≤ x[3].toNat :=
  ⟨fun _ => ⟨bench_pend_wf _ _ _ _ _ (by decide) (by decide), rfl⟩, keyFour_consistent, keyFour_plain_consistent,
    fun _ h => absurd h (by decide), by decide +kernel, by decide, by decide, by decide, by decide⟩

/-! ### EC unit -/

theorem witness_EcLoadcomp :
    codes bench [(.ecLoadcomp, ops 0 512 0 0 0 0 0), (.ecLoadcomp, io 0 0 6), (.ecLoadcomp, ops 4095 2 0 0 0 0 0),
      (.ecLoadcomp, io 1 0 7), (.ecLoadcomp, ops 0 513 0 0 0 0 0)] =
      [.ok, .ok, .invalidParameters, .invalidParameters, .outOfMemory] := by decide +kernel

theorem witness_EcNamedCurves :
    Config.default.curveRom.find? (fun r => r.1.toNat == 0xE0) = some (0xE0, ⟨23, 1, 1, 3, 10, 28, 1⟩) ∧
    Config.default.curveRom.find? (fun r => r.1.toNat == 0x1E0) = none ∧ Config.default.legal :=
  ⟨by decide, by decide, default_legal⟩

theorem witness_EcFormAndCleargroup :
    codes bench [(.ecSetform 0, io 0 0 0), (.ecSetform 1, io 0 0 0), (.ecSetform 2, io 0 0 0), (.ecCleargroup, io 0 0 0)] =
      [.ok, .ok, .invalidParameters, .ok] := by decide +kernel

theorem witness_EcChecks :
    codes bench [(.ecCheckgroup, io 0 0 0), (.ecPtCheck, io 0 0 0)] = [.ok, .ok] ∧
    codes { bench with group := { groupE0 with ep := some 2 } } [(.ecCheckgroup, io 0 0 0), (.ecPtCheck, io 0 0 0)] =
      [.invalidParameters, .invalidParameters] ∧
    code { bench with group := { groupE0 with gy := none } } .ecCheckgroup (io 0 0 0) = .invalidParameters ∧
    code { bench with point := .empty } .ecPtCheck (io 0 0 0) = .invalidParameters := by decide +kernel

theorem witness_EcSetPoint :
    let s := { bench with group := { Group.empty with ep := some 3 } }
    codes s [(.ecPtSetxy, ops 0 512 0 0 0 0 512), (.ecPtSetxy, ops 4095 2 0 0 0 0 1), (.ecPtSetxy, ops 0 1 0 0 0 4095 2),
      (.ecPtSetxy, ops 0 513 0 0 0 0 1), (.ecPtSetxy, ops 0 1 0 0 0 0 513), (.ecPtSetinf, io 0 0 0)] =
      [.ok, .invalidParameters, .invalidParameters, .outOfMemory, .outOfMemory, .ok] ∧
    codes { s with group := .empty } [(.ecPtSetxy, ops 0 1 0 0 0 0 1), (.ecPtSetinf, io 0 0 0)] =
      [.invalidParameters, .invalidParameters] := by decide +kernel

/-- Infinity, both forms; then checks (1) to (5). -/
theorem witness_EcPointEncode :
    let inf := { bench with point := ⟨true, true, 0, 0⟩ }
    let compressed := { bench with group := { groupE0 with form := true } }
    code inf .ecPtEncode (io 0 1 0) = .ok ∧ code bench .ecPtEncode (io 0 3 0) = .ok ∧
    code compressed .ecPtEncode (io 0 2 0) = .ok ∧ code bench .ecPtEncode (ops 0 0 4094 3 0 0 0) = .invalidParameters ∧
    code { bench with group := .empty } .ecPtEncode (io 0 3 0) = .invalidParameters ∧
    code { bench with point := .empty } .ecPtEncode (io 0 3 0) = .invalidParameters ∧
    code { bench with point := ⟨true, false, 256, 1⟩ } .ecPtEncode (io 0 3 0) = .invalidParameters ∧
    code bench .ecPtEncode (io 0 2 0) = .bufferTooSmall ∧ code compressed .ecPtEncode (io 0 1 0) = .bufferTooSmall := by
  decide +kernel

/-- Octets of each form, octets that are none, and the checks before them. -/
theorem witness_EcPointDecode :
    Decodes groupE0 [0x00] ⟨true, true, 0, 0⟩ ∧ Decodes groupE0 (hex 0x04030a 3) ⟨true, false, 3, 10⟩ ∧
    Decodes groupE0 (hex 0x0303 2) ⟨true, false, 3, 13⟩ ∧ (¬ ∃ pt, Decodes groupE0 [0x05] pt) ∧
    code (withData [0x05]) .ecPtDecode (io 1 0 0) = .invalidParameters ∧
    code bench .ecPtDecode (ops 4096 1 0 0 0 0 0) = .invalidParameters ∧
    code { bench with group := { groupE0 with eb := none } } .ecPtDecode (io 1 0 0) = .invalidParameters := by
  refine ⟨.inl ⟨rfl, rfl⟩, .inr (.inl ⟨3, 10, by decide, by decide, by decide +kernel, by decide +kernel, rfl⟩),
    .inr (.inr ⟨3, 13, 1, by decide, by decide, by decide, ?_, by decide +kernel, rfl⟩), ?_, by decide +kernel,
    by decide +kernel, by decide +kernel⟩
  · intro y' h
    revert y'
    decide
  · rintro ⟨pt, ⟨h, -⟩ | ⟨x, y, -, -, -, h, -⟩ | ⟨x, y, parity, -, hp, -, -, h, -⟩⟩
    · simp at h
    · simp at h
    · obtain rfl | rfl : parity = 0 ∨ parity = 1 := by omega
      all_goals simp at h

/-- The generator in both forms, and infinity. -/
theorem witness_PointOctetsRoundTrip :
    (pend { withData [] with rsa := keySmall, entropy := ⟨[], 0⟩ } .ecPtEncode (io 0 3 0)).Wf ∧ Nat.Prime 23 ∧
    (groupE0.ep.getD 0 = 23 ∧ groupE0.ea.isSome = true ∧ groupE0.eb.isSome = true) ∧
    liesOn groupE0 3 10 = true ∧ (run bench .ecPtEncode (io 0 3 0)).bytesWritten = 3 ∧
    code bench .ecPtEncode (io 0 3 0) = .ok ∧
    code { bench with group := { groupE0 with form := true } } .ecPtEncode (io 0 3 0) = .ok ∧
    code { bench with point := ⟨true, true, 0, 0⟩ } .ecPtEncode (io 0 3 0) = .ok ∧
    ((ops 0x200 3 0 0 0 0 0)[0] = (io 0 3 0)[2] ∧ (ops 0x200 3 0 0 0 0 0)[1] = 3) :=
  ⟨bench_pend_wf _ _ _ _ _ (by decide) (by decide), by norm_num, by decide, by decide +kernel, by decide +kernel,
    by decide +kernel, by decide +kernel, by decide +kernel, by decide⟩

/-! ### Bus, registers, resets -/

/-- The unlisted offsets at both ends of each range. -/
theorem witness_RegisterReads :
    bench.cfg.legal ∧
    [0x034, 0x03C, 0x060, 0x07C, 0x0C0, 0xFFC].map (readsAs bench) = List.replicate 6 (some (.data 0)) :=
  ⟨bench_legal, by decide +kernel⟩

/-- A valid slot, an ended one, a free one, and an index past NCTX. -/
theorem witness_ContextKeyAndGroupReads :
    bench.Wf ∧ [0x080, 0x088, 0x08C, 0x090, 0x0BC, 0x02C, 0x030].map (readsAs bench) =
      [0x0800F019, 0x0800F053, 0, 0, 0, 0x000201FF, 0x00E0057F].map (fun v => some (.data v)) :=
  ⟨bench_wf, by decide +kernel⟩

theorem witness_RegisterWrites :
    (∀ off ∈ [0x000, 0x014, 0x03C, 0x060, 0xFFC], off < 0x1000 ∧ off % 4 = 0 ∧ off ∉ [0x010, 0x018, 0x01C] ∧
      (off < 0x040 ∨ 0x060 ≤ off)) ∧ (0 < 8 ∧ 7 < 8) := by decide

theorem witness_CmdAcceptanceAndOverrun :
    bench.pending = none ∧ (pend bench .ecPtCheck (io 0 0 0)).pending ≠ none ∧ (0x2 : Word).getLsbD 1 = true := by decide

theorem witness_CtrlAndSoftReset :
    (0x1 : Word).getLsbD 1 = false ∧ (0x2 : Word).getLsbD 1 = true ∧ bench.pending = none ∧
    (pend bench .ecPtCheck (io 0 0 0)).pending ≠ none := by decide

theorem witness_PowerOnReset : (List.replicate 4096 (7 : Byte)).length = bench.cfg.dramSize ∧ 4095 < 4096 :=
  ⟨List.length_replicate, by decide⟩

theorem witness_InterruptOutput :
    ∃ t, Bus bench (.write 0x010 .w32 1) t ∧ ∃ u, Bus bench (.write 0x018 .w32 0xF) u := ⟨_, rfl, _, rfl⟩

/-- The ends of the two ranges, in each width. -/
theorem witness_BusErrorsChangeNothing :
    [(0xFFC, Width.w32), (0x4000, .w8), (0x4FFF, .w8), (0x4FFE, .w16), (0x4FFC, .w32)].all
      (fun a => legalAccess bench a.1 a.2) = true ∧
    [(0xFFC, Width.w16), (0xFFE, .w32), (0x1000, .w32), (0x3FFF, .w8), (0x4001, .w16), (0x4002, .w32), (0x5000, .w8)].any
      (fun a => legalAccess bench a.1 a.2) = false := by decide

theorem witness_DataRamIsLittleEndian :
    bench.Wf ∧ bench.pending = none ∧ legalAccess bench (0x4000 + 0xFFC) .w32 = true ∧
    legalAccess bench (0x4000 + 0xFFE) .w16 = true ∧ legalAccess bench (0x4000 + 0xFFF) .w8 = true :=
  ⟨bench_wf, by decide, by decide, by decide, by decide⟩

theorem witness_DataRamLockedWhileBusy :
    (pend bench .ecPtCheck (io 0 0 0)).pending ≠ none ∧
    legalAccess (pend bench .ecPtCheck (io 0 0 0)) (0x4000 + 0xFFC) .w32 = true := by decide

end Sys2Proof.Tests
end

section
/-! SUPPORT. What a command's rule leaves behind, whatever its outcome: the state it ends in, the RESULT, and the shapes
`update`, `report`, `emit` and `emitDrawn` in these terms. -/

namespace Sys2Proof.Machine

/-! ## The state and the RESULT a rule ends with -/

/-- The state a rule ends in, before completion: with its updates after OK, with the survivors of an error otherwise
(spec/60_exceptions.md R131). -/
def CmdResult.state : CmdResult → State
  | .ok s _ _ _ => s
  | .raise _ s => s

/-- The RESULT a rule ends with: 0 after an error (spec/10_state.md R31). -/
def CmdResult.result : CmdResult → Word
  | .ok _ _ _ res => res
  | .raise _ _ => 0

@[simp] theorem CmdResult.state_ok (s : State) (dst : Nat) (out : List Byte) (res : Word) :
    (CmdResult.ok s dst out res).state = s := rfl
@[simp] theorem CmdResult.state_raise (code : Code) (s : State) : (CmdResult.raise code s).state = s := rfl
@[simp] theorem CmdResult.result_ok (s : State) (dst : Nat) (out : List Byte) (res : Word) :
    (CmdResult.ok s dst out res).result = res := rfl
@[simp] theorem CmdResult.result_raise (code : Code) (s : State) : (CmdResult.raise code s).result = 0 := rfl

@[simp] theorem complete_result (p : Pending) (r : CmdResult) : (complete p r).result = r.result := by cases r <;> rfl
@[simp] theorem complete_slots (p : Pending) (r : CmdResult) : (complete p r).slots = r.state.slots := by cases r <;> rfl
@[simp] theorem complete_rsa (p : Pending) (r : CmdResult) : (complete p r).rsa = r.state.rsa := by cases r <;> rfl
@[simp] theorem complete_group (p : Pending) (r : CmdResult) : (complete p r).group = r.state.group := by cases r <;> rfl
@[simp] theorem complete_point (p : Pending) (r : CmdResult) : (complete p r).point = r.state.point := by cases r <;> rfl
@[simp] theorem complete_backend (p : Pending) (r : CmdResult) : (complete p r).backend = r.state.backend := by
  cases r <;> rfl
@[simp] theorem complete_entropy (p : Pending) (r : CmdResult) : (complete p r).entropy = r.state.entropy := by
  cases r <;> rfl

/-! ## The shapes of a rule's end -/

@[simp] theorem emit_state (s : State) (x : Args) (r : Except Code (List Byte)) : (emit s x r).state = s := by
  cases r <;> rfl
@[simp] theorem emit_result (s : State) (x : Args) (r : Except Code (List Byte)) : (emit s x r).result = 0 := by
  cases r <;> rfl
@[simp] theorem report_state (s : State) (r : Except Code Word) : (report s r).state = s := by cases r <;> rfl
@[simp] theorem update_result (s : State) (r : Except Code State) : (update s r).result = 0 := by cases r <;> rfl

/-- A rule that draws changes at most the place in ENTROPY. -/
theorem emitDrawn_state (s : State) (x : Args) (r : Except Code (List Byte × Entropy)) :
    ∃ e, (emitDrawn s x r).state = { s with entropy := e } := by
  rcases emitDrawn_cases s x r with ⟨_, e, _, h⟩ | ⟨_, _, h⟩
  · exact ⟨e, by simp [h]⟩
  · exact ⟨s.entropy, by simp [h]⟩

/-- The rule changes nothing of `s`, or makes a change that `Q` describes. -/
def CmdResult.Leaves (r : CmdResult) (s : State) (Q : State → Prop) : Prop := r.state = s ∨ Q r.state

theorem CmdResult.Leaves.elim {r : CmdResult} {s : State} {P Q : State → Prop} (h : r.Leaves s Q) (same : P s)
    (changed : ∀ t, Q t → P t) : P r.state := by
  rcases h with h | h
  · exact h ▸ same
  · exact changed _ h

theorem update_leaves {s : State} {r : Except Code State} {Q : State → Prop} (h : ∀ t, r = .ok t → Q t) :
    (update s r).Leaves s Q := by
  rcases update_cases s r with ⟨t, hr, he⟩ | ⟨code, -, he⟩
  · exact .inr (by simpa [he] using h t hr)
  · exact .inl (by simp [he])

/-! ## What the operand checks say when they pass -/

theorem readInt_eq_ok {s : State} {addr len v : Nat} :
    readInt s addr len = .ok v ↔ len ≤ s.cfg.bnMax ∧ os2i (s.ram.readBytes addr len) = v := by
  simp [readInt, except_bind_eq_ok, require_eq_ok]

/-- An operand that was read fits the datapath (spec/41_rsa.md R93). -/
theorem readInt_lt {s : State} {addr len v : Nat} (h : readInt s addr len = .ok v) : v < 256 ^ s.cfg.bnMax := by
  obtain ⟨hlen, rfl⟩ := readInt_eq_ok.mp h
  calc os2i (s.ram.readBytes addr len) < 256 ^ len := by simpa using os2i_lt (s.ram.readBytes addr len)
    _ ≤ 256 ^ s.cfg.bnMax := Nat.pow_le_pow_right (by decide) hlen

theorem regions_eq_ok {s : State} {x : Args} {u : Unit} :
    regions s x = .ok u ↔ srcOk s x = true ∧ dstOk s x = true := by
  simp [regions, except_bind_eq_ok, require_eq_ok]

theorem padChecks_eq_ok {s : State} {x : Args} {u : Unit} :
    padChecks s x = .ok u ↔
      (srcOk s x = true ∧ dstOk s x = true) ∧ srcLen x + 3 ≤ argVal x ∧ argVal x ≤ dstCap x := by
  simp [padChecks, except_bind_eq_ok, require_eq_ok, regions_eq_ok]

theorem unpadInto_length {x : Args} {block data : List Byte} (h : unpadInto x block = .ok data) :
    data.length ≤ dstCap x := by
  simp only [unpadInto, except_bind_eq_ok, require_eq_ok, except_pure] at h
  obtain ⟨a, _, _, hlen, h⟩ := h
  cases h
  simpa using hlen

theorem needField_eq_ok {g : Group} {p : Nat} : needField g = .ok p ↔ g.ep = some p ∧ 3 ≤ p := by
  simp only [needField, except_bind_eq_ok, require_eq_ok, present_eq_ok, except_pure, decide_eq_true_eq]
  constructor
  · rintro ⟨a, ha, _, h3, h⟩
    cases h
    exact ⟨ha, h3⟩
  · rintro ⟨hp, h3⟩
    exact ⟨p, hp, (), h3, rfl⟩

theorem needCurve_field {g : Group} {e : CurveParams} (h : needCurve g = .ok e) : g.ep = some e.p ∧ 3 ≤ e.p := by
  simp only [needCurve, except_bind_eq_ok, except_pure] at h
  obtain ⟨p, hp, _, _, _, _, he⟩ := h
  cases he
  exact needField_eq_ok.mp hp

/-! ## What each command that updates engine state leaves -/

theorem rsaLoadcompRule_leaves (s : State) (x : Args) :
    (rsaLoadcompRule s x).Leaves s fun t =>
      ∃ v, v < 256 ^ s.cfg.bnMax ∧ t = { s with rsa := s.rsa.load (argVal x) v } :=
  update_leaves fun t ht => by
    simp only [except_bind_eq_ok, except_pure] at ht
    obtain ⟨_, _, _, _, v, hv, ht⟩ := ht
    cases ht
    exact ⟨v, readInt_lt hv, rfl⟩

theorem ecLoadcompRule_leaves (s : State) (x : Args) :
    (ecLoadcompRule s x).Leaves s fun t =>
      ∃ v, v < 256 ^ s.cfg.bnMax ∧
        t = { s with group := { s.group.load (argVal x) v with named := false, curveId := 0 }, point := .empty } :=
  update_leaves fun t ht => by
    simp only [except_bind_eq_ok, except_pure] at ht
    obtain ⟨_, _, _, _, v, hv, ht⟩ := ht
    cases ht
    exact ⟨v, readInt_lt hv, rfl⟩

theorem ecSetcurveRule_leaves (s : State) (x : Args) :
    (ecSetcurveRule s x).Leaves s fun t =>
      ∃ r, lookupCurve s.cfg (argVal x) = some r ∧
        t = { s with group := .ofCurve r s.group.form (BitVec.ofNat 8 (argVal x)), point := .empty } :=
  update_leaves fun t ht => by
    split at ht
    · cases ht
    · rename_i r hr
      cases ht
      exact ⟨r, hr, rfl⟩

theorem ecSetformRule_leaves (form : Nat) (s : State) (x : Args) :
    (ecSetformRule form s x).Leaves s fun t => ∃ f, t = { s with group := { s.group with form := f } } :=
  update_leaves fun t ht => by
    simp only [except_bind_eq_ok, except_pure] at ht
    obtain ⟨_, _, ht⟩ := ht
    cases ht
    exact ⟨_, rfl⟩

theorem ecPtSetxyRule_leaves (s : State) (x : Args) :
    (ecPtSetxyRule s x).Leaves s fun t =>
      ∃ p px py, (s.group.ep = some p ∧ 3 ≤ p) ∧ px < 256 ^ s.cfg.bnMax ∧ py < 256 ^ s.cfg.bnMax ∧
        t = { s with point := ⟨true, false, px, py⟩ } :=
  update_leaves fun t ht => by
    simp only [except_bind_eq_ok, except_pure] at ht
    obtain ⟨_, _, _, _, p, hp, px, hpx, py, hpy, ht⟩ := ht
    cases ht
    exact ⟨p, px, py, needField_eq_ok.mp hp, readInt_lt hpx, readInt_lt hpy, rfl⟩

theorem ecPtSetinfRule_leaves (s : State) (x : Args) :
    (ecPtSetinfRule s x).Leaves s fun t =>
      ∃ p, (s.group.ep = some p ∧ 3 ≤ p) ∧ t = { s with point := ⟨true, true, 0, 0⟩ } :=
  update_leaves fun t ht => by
    simp only [except_bind_eq_ok, except_pure] at ht
    obtain ⟨p, hp, ht⟩ := ht
    cases ht
    exact ⟨p, needField_eq_ok.mp hp, rfl⟩

theorem ecPtDecodeRule_leaves (s : State) (x : Args) :
    (ecPtDecodeRule s x).Leaves s fun t =>
      ∃ e pt, needCurve s.group = .ok e ∧ decodePoint e (srcBytes s x) = some pt ∧ t = { s with point := pt } :=
  update_leaves fun t ht => by
    simp only [except_bind_eq_ok, except_pure] at ht
    obtain ⟨_, _, e, he, ht⟩ := ht
    split at ht
    · rename_i pt hpt
      cases ht
      exact ⟨e, pt, he, hpt, rfl⟩
    · cases ht

theorem cipherReleaseRule_leaves (ctx : Nat) (s : State) (x : Args) :
    (cipherReleaseRule ctx s x).Leaves s fun t => t = s.setSlot ctx Slot.cleared :=
  update_leaves fun t ht => by
    simp only [except_bind_eq_ok, except_pure] at ht
    obtain ⟨_, _, ht⟩ := ht
    cases ht
    rfl

/-! ## How CIPHER_INIT, CIPHER_UPDATE and CIPHER_FINAL end -/

theorem cipherInitRule_cases (ctx : Nat) (s : State) (x : Args) :
    (s.cfg.nctx ≤ ctx ∧ cipherInitRule ctx s x = .raise .invalidParameters s) ∨
    (ctx < s.cfg.nctx ∧
      ((∃ code, cipherInitRule ctx s x = .raise code (s.latchBackend.setSlot ctx Slot.cleared)) ∨
       (∃ c, cipherInitSlot s x = .ok c ∧ cipherInitRule ctx s x = .ok (s.latchBackend.setSlot ctx c) 0 [] 0))) := by
  unfold cipherInitRule
  split
  · exact .inl ⟨‹_›, rfl⟩
  · refine .inr ⟨by omega, ?_⟩
    cases h : cipherInitSlot s x with
    | ok c => exact .inr ⟨c, rfl, by simp⟩
    | error code => exact .inl ⟨code, rfl⟩

theorem cipherUpdateRule_cases (ctx : Nat) (s : State) (x : Args) :
    (∃ code, cipherUpdateRule ctx s x = .raise code s) ∨
    (cipherUpdateChecks ctx s x = .ok () ∧
      cipherUpdateRule ctx s x =
        .ok (s.setSlot ctx (updateSlot s.cfg (s.slot ctx) (srcBytes s x))) (dstAddr x)
          (updateRun s.cfg (s.slot ctx) (srcBytes s x)).y 0) := by
  unfold cipherUpdateRule
  cases h : cipherUpdateChecks ctx s x with
  | ok u => exact .inr ⟨rfl, rfl⟩
  | error code => exact .inl ⟨code, rfl⟩

/-- The slot that CIPHER_FINAL leaves after OK on a context that was not ended (spec/40_cipher.md R85). -/
def finalSlot (c : Slot) (o : BlockOut) : Slot :=
  { c with ended := true, mod1 := overlay o.r c.mod1, ts := some o.ts, fill := 0 }

theorem cipherFinalRule_cases (ctx : Nat) (s : State) (x : Args) :
    (∃ code, cipherFinalRule ctx s x = .raise code s) ∨ cipherFinalRule ctx s x = .ok s 0 [] 0 ∨
    ((ctx < s.cfg.nctx ∧ (s.slot ctx).valid = true) ∧
      ((∃ code, cipherFinalRule ctx s x = .raise code (s.setSlot ctx { s.slot ctx with ended := true })) ∨
       (∃ o, cipherFinalOut s (s.slot ctx) x = .ok o ∧
          cipherFinalRule ctx s x = .ok (s.setSlot ctx (finalSlot (s.slot ctx) o)) (dstAddr x) o.y 0))) := by
  simp only [cipherFinalRule]
  split
  · exact .inl ⟨_, rfl⟩
  · split
    · exact .inl ⟨_, rfl⟩
    · rename_i hctx hvalid
      split
      · exact .inr (.inl rfl)
      · refine .inr (.inr ⟨⟨by omega, by simpa using hvalid⟩, ?_⟩)
        cases h : cipherFinalOut s (s.slot ctx) x with
        | ok o => exact .inr ⟨o, rfl, rfl⟩
        | error code => exact .inl ⟨code, rfl⟩

end Sys2Proof.Machine
end

section
/-! SUPPORT. What a host transaction, a turn of the engine and a step can do. -/

namespace Sys2Proof.Machine

/-! ## The host bus -/

/-- The host's access to a register word (spec/20_memory.md R44, R51). -/
theorem busTarget_reg (cfg : Config) {off : Nat} (hoff : off < 0x1000) (hal : off % 4 = 0) :
    busTarget cfg off .w32 = .reg off := by
  simp [busTarget, hoff, hal]

/-- An access that goes to the Data RAM stays inside it (spec/20_memory.md R44, R51). -/
theorem busTarget_ram_le {cfg : Config} {off a : Nat} {w : Width} (h : busTarget cfg off w = .ram a) :
    a + w.bytes ≤ cfg.dramSize := by
  simp only [busTarget] at h
  split at h
  · split at h <;> cases h
  · split at h
    · rename_i hin
      obtain rfl : off - ramBase = a := BusTarget.ram.inj h
      omega
    · cases h

@[simp] theorem length_leBytes (v n : Nat) : (leBytes v n).length = n := by
  induction n generalizing v with
  | zero => rfl
  | succ n ih => simp [leBytes, ih]

theorem busStep_read_reg (s : State) {off : Nat} (hoff : off < 0x1000) (hal : off % 4 = 0) :
    busStep s (.read off .w32) = { s with reply := some (.data (readReg s off)) } := by
  simp [busStep, busRead, busTarget_reg _ hoff hal]

theorem busStep_write_reg (s : State) {off : Nat} (hoff : off < 0x1000) (hal : off % 4 = 0) (v : Word) :
    busStep s (.write off .w32 v) = { writeReg s off v with reply := some .ok } := by
  simp [busStep, busWrite, busTarget_reg _ hoff hal]

/-! ## Register writes -/


/-- Every other offset is an ARG register, or ignores the write (spec/10_state.md R18 to R20). -/
theorem writeReg_other (s : State) {off : Nat} (v : Word) (h : off ∉ [0x010, 0x018, 0x01C]) :
    writeReg s off v =
      if 0x040 ≤ off ∧ off < 0x060 then { s with args := s.args.setIfInBounds ((off - 0x040) / 4) v } else s := by
  unfold writeReg
  split <;> simp at h ⊢

theorem writeReg_arg (s : State) {k : Nat} (h : k < 8) (v : Word) :
    writeReg s (0x040 + 4 * k) v = { s with args := s.args.set k v h } := by
  have hk : (0x040 + 4 * k - 0x040) / 4 = k := by omega
  rw [writeReg_other s v (by simp; omega), if_pos (by omega), hk]
  congr 1
  ext j hj
  simp [Vector.getElem_setIfInBounds, Vector.getElem_set]

theorem writeReg_ignored (s : State) {off : Nat} (v : Word) (h : off ∉ [0x010, 0x018, 0x01C])
    (hr : off < 0x040 ∨ 0x060 ≤ off) : writeReg s off v = s := by
  rw [writeReg_other s v h, if_neg (by omega)]

theorem State.busy_eq_false {s : State} (h : s.pending = none) : s.busy = false := by simp [State.busy, h]
theorem State.busy_eq_true {s : State} (h : s.pending ≠ none) : s.busy = true := by
  simpa [State.busy, Option.isSome_iff_ne_none] using h

theorem writeCmd_idle {s : State} (h : s.pending = none) (v : Word) :
    writeCmd s v = { s with pending := some ⟨v, s.args⟩ } := by
  simp [writeCmd, State.busy_eq_false h]

theorem writeCmd_busy {s : State} (h : s.pending ≠ none) (v : Word) :
    writeCmd s v = { s with irq := { s.irq with overrun := true } } := by
  simp [writeCmd, State.busy_eq_true h]

theorem writeCtrl_plain (s : State) {v : Word} (hv : v.getLsbD 1 = false) :
    writeCtrl s v = { s with irqEn := v.getLsbD 0 } := by
  rw [writeCtrl, hv]
  rfl

theorem writeCtrl_reset_idle {s : State} {v : Word} (hv : v.getLsbD 1 = true) (h : s.pending = none) :
    writeCtrl s v = s.softReset := by
  simp only [writeCtrl, hv, State.busy_eq_false h]
  rfl

theorem writeCtrl_reset_busy {s : State} {v : Word} (hv : v.getLsbD 1 = true) (h : s.pending ≠ none) :
    writeCtrl s v = { s with irqEn := v.getLsbD 0, irq := { s.irq with overrun := true } } := by
  simp only [writeCtrl, hv, State.busy_eq_true h]
  rfl

/-! ## Everything a host transaction can do -/

/-- What a host transaction can do to the state, its reply apart (spec/10_state.md R18 to R29; spec/20_memory.md R53). -/
inductive HostEffect (s : State) : State → Prop
  | nothing : HostEffect s s
  | args (a : Args) : HostEffect s { s with args := a }
  | flags (en : Bool) (i : Irq) : HostEffect s { s with irqEn := en, irq := i }
  | softReset : HostEffect s s.softReset
  | accept (p : Pending) : HostEffect s { s with pending := some p }
  | ram (a : Nat) (out : List Byte) (h : a + out.length ≤ s.cfg.dramSize) :
      HostEffect s { s with ram := s.ram.writeBytes a out }

theorem writeCtrl_effect (s : State) (v : Word) : HostEffect s (writeCtrl s v) := by
  unfold writeCtrl
  split
  · split
    · exact .flags (v.getLsbD 0) _
    · exact .softReset
  · exact .flags (v.getLsbD 0) s.irq

theorem writeCmd_effect (s : State) (v : Word) : HostEffect s (writeCmd s v) := by
  unfold writeCmd
  split
  · exact .flags s.irqEn _
  · exact .accept _

theorem writeReg_effect (s : State) (off : Nat) (v : Word) : HostEffect s (writeReg s off v) := by
  unfold writeReg
  split
  · exact writeCtrl_effect s v
  · exact .flags s.irqEn _
  · exact writeCmd_effect s v
  · split
    · exact .args _
    · exact .nothing

theorem busRead_effect (s : State) (off : Nat) (w : Width) : HostEffect s (busRead s off w).1 := by
  unfold busRead
  split
  · exact .nothing
  · exact .nothing
  · split
    · exact .flags s.irqEn _
    · exact .nothing

theorem busWrite_effect (s : State) (off : Nat) (w : Width) (v : Word) : HostEffect s (busWrite s off w v).1 := by
  unfold busWrite
  split
  · exact .nothing
  · exact writeReg_effect s _ v
  · rename_i a ha
    split
    · exact .flags s.irqEn _
    · exact .ram a _ (by simpa using busTarget_ram_le ha)

/-- A host transaction has one of these effects, and its reply is kept. -/
theorem busStep_effect (s : State) (op : BusOp) :
    ∃ t r, HostEffect s t ∧ busStep s op = { t with reply := some r } := by
  cases op with
  | read off w => exact ⟨_, _, busRead_effect s off w, rfl⟩
  | write off w v => exact ⟨_, _, busWrite_effect s off w v, rfl⟩

/-! ## Everything the engine's turn and a step can do -/

/-- The engine's turn while idle changes nothing (log entry 9). -/
theorem engineStep_idle {s : State} (h : s.pending = none) : engineStep s = .next s := by
  simp [engineStep, h]

/-- The rule the engine runs for a command word: the decoded command's, or IllegalCommand (spec/60_exceptions.md R132). -/
def wordRule (w : Word) (s : State) (x : Args) : CmdResult :=
  match decode w with
  | .ok i => ruleOf i s x
  | .error _ => .raise .illegalCommand s

theorem wordRule_ok {w : Word} {i : Instr} (h : decode w = .ok i) : wordRule w = ruleOf i := by
  funext s x
  simp [wordRule, h]

theorem wordRule_error {w : Word} {e : Illegal} (h : decode w = .error e) (s : State) (x : Args) :
    wordRule w s x = .raise .illegalCommand s := by
  simp [wordRule, h]

/-- The engine's turn while a command is pending runs its word's rule on the snapshot and completes it. -/
theorem engineStep_pending {s : State} {p : Pending} (h : s.pending = some p) :
    engineStep s = .next (complete p (wordRule p.word s p.args)) := by
  simp only [engineStep, h]
  cases hd : decode p.word with
  | ok i => simp [wordRule_ok hd, exec_pending i h]
  | error e => simp [wordRule_error hd, illegalCommand, runCommand_pending h]

theorem step_of_bus {s : State} {op : BusOp} {rest : List Input} (h : s.inputs = .bus op :: rest) :
    step s = .next (busStep { s with inputs := rest } op) := by
  simp [step, h]

theorem step_of_powerOn {s : State} {bytes : List Byte} {rest : List Input} (h : s.inputs = .powerOn bytes :: rest) :
    step s = .next (State.powerOn { s with inputs := rest } bytes) := by
  simp [step, h]

theorem step_of_engine {s : State} {rest : List Input} (h : s.inputs = .engine :: rest) :
    step s = engineStep { s with inputs := rest } := by
  simp [step, h]

theorem step_of_no_inputs {s : State} (h : s.inputs = []) : step s = engineStep s := by
  simp [step, h]

end Sys2Proof.Machine
end

section
/-! SUPPORT. The parts of `State.Wf`: what each operation on a slot, the key, the group and the point keeps. -/

namespace Sys2Proof.Machine

/-! ## The configuration's maps -/

theorem lookupTransform_wf {cfg : Config} (hl : cfg.legal) {alg : Byte} {t : Descriptor}
    (h : lookupTransform cfg alg = some t) : t.wf := by
  obtain ⟨-, -, -, -, htransforms, -⟩ := hl
  obtain ⟨e, he, rfl⟩ := Option.map_eq_some_iff.mp h
  exact htransforms e (List.mem_of_find?_eq_some he)

theorem slotTransform_eq {cfg : Config} {c : Slot} {t : Descriptor} (h : lookupTransform cfg c.alg = some t) :
    slotTransform cfg c = t := by
  simp [slotTransform, h]

theorem lookupCurve_wf {cfg : Config} (hl : cfg.legal) {id : Nat} {r : Curve} (h : lookupCurve cfg id = some r) :
    id ≤ 255 ∧ r.wf cfg.bnMax := by
  obtain ⟨-, -, -, -, -, hcurves⟩ := hl
  unfold lookupCurve at h
  split at h
  · cases h
  · obtain ⟨e, he, rfl⟩ := Option.map_eq_some_iff.mp h
    exact ⟨by omega, hcurves e (List.mem_of_find?_eq_some he)⟩

/-! ## Key, group and point -/

@[simp] theorem fits_none (n : Nat) : fits n none = true := rfl

theorem fits_some {n v : Nat} : fits n (some v) = true ↔ v < 256 ^ n := by simp [fits]

theorem RsaKey.empty_wf (cfg : Config) : RsaKey.empty.wf cfg := by simp [RsaKey.wf, RsaKey.empty]

theorem RsaKey.load_wf {cfg : Config} {k : RsaKey} (hk : k.wf cfg) (i : Nat) {v : Nat} (hv : v < 256 ^ cfg.bnMax) :
    (k.load i v).wf cfg := by
  have hv := fits_some.mpr hv
  simp only [RsaKey.wf, List.forall_mem_cons] at hk ⊢
  unfold RsaKey.load
  split <;> simp [hk, hv]

theorem Group.empty_wf (cfg : Config) : Group.empty.wf cfg := by simp [Group.wf, Group.empty]

/-- Loading a component leaves a group that is no longer a named one (spec/42_ec.md R116). -/
theorem Group.load_wf {cfg : Config} {g : Group} (hg : g.wf cfg) (i : Nat) {v : Nat} (hv : v < 256 ^ cfg.bnMax) :
    Group.wf cfg { g.load i v with named := false, curveId := 0 } := by
  obtain ⟨hfit, -, -⟩ := hg
  have hv := fits_some.mpr hv
  refine ⟨?_, fun _ => rfl, fun h => absurd h (by simp)⟩
  simp only [List.forall_mem_cons] at hfit ⊢
  unfold Group.load
  split <;> simp [hfit, hv]

theorem Group.ofCurve_wf {cfg : Config} (hl : cfg.legal) {id : Nat} {r : Curve} (h : lookupCurve cfg id = some r)
    (form : Bool) : (Group.ofCurve r form (BitVec.ofNat 8 id)).wf cfg := by
  obtain ⟨hid, -, -, hsmall⟩ := lookupCurve_wf hl h
  have hnum : (BitVec.ofNat 8 id).toNat = id := by simp; omega
  refine ⟨?_, fun hn => absurd hn (by simp [Group.ofCurve]), fun _ => ?_⟩
  · simpa [Group.ofCurve, fits_some] using hsmall
  · simp [Group.ofCurve, hnum, h]

theorem Group.setForm_wf {cfg : Config} {g : Group} (hg : g.wf cfg) (f : Bool) : Group.wf cfg { g with form := f } := by
  obtain ⟨hfit, hplain, hnamed⟩ := hg
  refine ⟨hfit, hplain, fun hn => ?_⟩
  obtain ⟨r, hr, hg⟩ := Option.map_eq_some_iff.mp (hnamed hn)
  exact Option.map_eq_some_iff.mpr ⟨r, hr, congrArg (fun g' : Group => { g' with form := f }) hg⟩

theorem Point.empty_wf (cfg : Config) (g : Group) : Point.empty.wf cfg g := by
  simp [Point.wf, Point.empty]

theorem leastRootFrom_lt {p rhs parity fuel y z : Nat} (h : leastRootFrom p rhs parity fuel y = some z) :
    z < y + fuel := by
  induction fuel generalizing y with
  | zero => cases h
  | succ fuel ih =>
    simp only [leastRootFrom] at h
    split at h
    · cases h
      omega
    · have := ih h
      omega

theorem leastRoot_lt {p rhs parity z : Nat} (h : leastRoot p rhs parity = some z) : z < p := by
  simpa using leastRootFrom_lt h

theorem decodeUncompressed_of_some {e : CurveParams} {px py : Nat} {pt : Point}
    (h : decodeUncompressed e px py = some pt) : pt = ⟨true, false, px, py⟩ ∧ px < e.p ∧ py < e.p := by
  unfold decodeUncompressed at h
  split at h
  · rename_i hin
    cases h
    exact ⟨rfl, hin.1, hin.2.1⟩
  · cases h

theorem decodeCompressed_of_some {e : CurveParams} {parity px : Nat} {pt : Point}
    (h : decodeCompressed e parity px = some pt) : ∃ py, pt = ⟨true, false, px, py⟩ ∧ px < e.p ∧ py < e.p := by
  unfold decodeCompressed at h
  split at h
  · obtain ⟨py, hpy, rfl⟩ := Option.map_eq_some_iff.mp h
    exact ⟨py, rfl, ‹_›, leastRoot_lt hpy⟩
  · cases h

/-- The point of an octet string has reduced coordinates, and infinity stands at the origin (spec/42_ec.md R125). -/
theorem decodePoint_reduced {e : CurveParams} (h3 : 3 ≤ e.p) {b : List Byte} {pt : Point}
    (h : decodePoint e b = some pt) :
    pt.valid = true ∧ (pt.inf = true → pt.x = 0 ∧ pt.y = 0) ∧ pt.x < e.p ∧ pt.y < e.p := by
  simp only [decodePoint] at h
  split at h
  · cases h
  · split at h
    · cases h
      exact ⟨rfl, fun _ => ⟨rfl, rfl⟩, Nat.lt_of_lt_of_le (by decide) h3, Nat.lt_of_lt_of_le (by decide) h3⟩
    · split at h
      · obtain ⟨rfl, hx, hy⟩ := decodeUncompressed_of_some h
        exact ⟨rfl, by simp, hx, hy⟩
      · split at h
        · obtain ⟨py, rfl, hx, hy⟩ := decodeCompressed_of_some h
          exact ⟨rfl, by simp, hx, hy⟩
        · cases h

theorem Point.wf_of_lt {cfg : Config} {g : Group} {p : Nat} (hp : g.ep = some p ∧ 3 ≤ p) {pt : Point}
    (hv : pt.valid = true) (hinf : pt.inf = true → pt.x = 0 ∧ pt.y = 0) (hx : pt.x < 256 ^ cfg.bnMax)
    (hy : pt.y < 256 ^ cfg.bnMax) : pt.wf cfg g :=
  ⟨fun h => absurd hv (by simp [h]), hinf, ⟨hx, hy⟩, fun _ => by simpa [hp.1] using hp.2⟩

/-! ## Slots -/

theorem Slot.cleared_wf (cfg : Config) : Slot.cleared.wf cfg := by
  simp [Slot.wf, Slot.cleared, zeros]

/-- What a valid slot's block size and transform are (spec/40_cipher.md R82). -/
theorem Slot.wf.block {cfg : Config} {c : Slot} (h : c.wf cfg) (hl : cfg.legal) (hv : c.valid = true) :
    c.bs = (slotTransform cfg c).bs ∧ 1 ≤ c.bs ∧ c.bs ≤ maxBs := by
  obtain ⟨-, -, hvalid⟩ := h
  obtain ⟨hmapped, -, hbs, -⟩ := hvalid hv
  obtain ⟨t, ht⟩ := Option.isSome_iff_exists.mp hmapped
  obtain ⟨hpos, hmax⟩ := lookupTransform_wf hl ht
  rw [slotTransform_eq ht] at hbs ⊢
  exact ⟨hbs, by omega, by omega⟩

theorem overlay_take (n : Nat) (b : List Byte) : overlay (b.take n) b = b := by
  rcases Nat.le_total n b.length with h | h
  · simp [overlay, Nat.min_eq_left h]
  · simp [overlay, List.take_of_length_le h]

/-- A feedback register that a slot's blocks can leave: one block long, and in ECB the one that was there. -/
def Slot.Feedback (c : Slot) (r : List Byte) : Prop :=
  r.length = c.bs ∧ (c.mode = .ecb → r = c.mod1.take c.bs)

/-- A valid slot whose blocks have run on: the fields CIPHER_UPDATE and CIPHER_FINAL change keep the slot's rules. -/
theorem Slot.wf.advance {cfg : Config} {c : Slot} (h : c.wf cfg) (hl : cfg.legal) (hv : c.valid = true)
    {ended : Bool} {r ts buf : List Byte} {fill : Nat} (hr : c.Feedback r) (hbuf : buf.length = maxBs)
    (hfill : fill ≤ c.bs) (hfull : fill = c.bs → c.pad = true ∧ c.dir = true) :
    Slot.wf cfg { c with ended := ended, mod1 := overlay r c.mod1, ts := some ts, buf := buf, fill := fill } := by
  obtain ⟨-, -, hmax⟩ := h.block hl hv
  obtain ⟨⟨-, hmod1, hmod2⟩, -, hvalid⟩ := h
  obtain ⟨hmapped, -, hbs, -, -, hpad, hstream, hecb⟩ := hvalid hv
  obtain ⟨hlen, hsame⟩ := hr
  refine ⟨⟨hbuf, ?_, hmod2⟩, fun hn => absurd hv (by simp_all), fun _ => ?_⟩
  · rw [length_overlay (by omega), hmod1]
  · refine ⟨hmapped, rfl, hbs, hfill, hfull, hpad, hstream, fun hm => ?_⟩
    simp only [hsame hm, overlay_take]
    exact hecb hm

theorem Slot.wf.setEnded {cfg : Config} {c : Slot} (h : c.wf cfg) (hv : c.valid = true) (e : Bool) :
    Slot.wf cfg { c with ended := e } := by
  obtain ⟨hlen, -, hvalid⟩ := h
  exact ⟨hlen, fun hn => absurd hv (by simp_all), hvalid⟩

/-! ### The feedback register -/

theorem blockStep_ecb_r (t : Descriptor) (dir : Bool) (bs : Nat) (r ts b : List Byte) :
    (blockStep t .ecb dir bs r ts b).r = r := rfl

theorem runBlocks_ecb_r (t : Descriptor) (dir : Bool) (bs n : Nat) (r ts data : List Byte) :
    (runBlocks t .ecb dir bs n r ts data).r = r := by
  induction n generalizing r ts data with
  | zero => rfl
  | succ n ih => simp [runBlocks, ih, blockStep_ecb_r]

theorem Slot.feedback_same {c : Slot} (h : c.bs ≤ c.mod1.length) : c.Feedback (c.mod1.take c.bs) :=
  ⟨by simp [h], fun _ => rfl⟩

theorem blockStep_feedback {c : Slot} {t : Descriptor} (hbs : c.bs = t.bs) (hmod : c.bs ≤ c.mod1.length)
    (ts : List Byte) {b : List Byte} (hb : b.length = c.bs) :
    c.Feedback (blockStep t c.mode c.dir c.bs (c.mod1.take c.bs) ts b).r := by
  refine ⟨?_, fun hm => by rw [hm, blockStep_ecb_r]⟩
  rw [hbs] at hb hmod ⊢
  exact (length_blockStep c.mode c.dir ts (by simp [hmod]) hb).2

/-- CIPHER_UPDATE outputs the whole blocks it runs, and leaves a feedback register. -/
theorem updateRun_spec {cfg : Config} {c : Slot} (hbs : c.bs = (slotTransform cfg c).bs) (hmod : c.bs ≤ c.mod1.length)
    (input : List Byte) :
    (updateRun cfg c input).y.length = updateBlocks c (updateData c input).length * c.bs ∧
      c.Feedback (updateRun cfg c input).r := by
  have hdata : updateBlocks c (updateData c input).length * c.bs ≤ (updateData c input).length := by
    rw [updateBlocks_mul]
    omega
  have hlen := length_runBlocks (t := slotTransform cfg c) c.mode c.dir
    (updateBlocks c (updateData c input).length) (r := c.mod1.take c.bs) (c.ts.getD []) (by simp [← hbs, hmod])
    (hbs ▸ hdata)
  rw [← hbs] at hlen
  exact ⟨hlen.1, hlen.2, fun hm => by simp only [updateRun, hm, runBlocks_ecb_r]⟩

theorem updateSlot_wf {cfg : Config} {c : Slot} (h : c.wf cfg) (hl : cfg.legal) (hv : c.valid = true)
    (input : List Byte) : (updateSlot cfg c input).wf cfg := by
  obtain ⟨hbs, hpos, hmax⟩ := h.block hl hv
  have ⟨⟨hbuf, hmod1, _⟩, _⟩ := h
  obtain ⟨hfill, hfull⟩ := keep_bound c (updateData c input).length hpos
  have hkeep := keep_le c (updateData c input).length
  have hfeed := (updateRun_spec hbs (by omega) input).2
  exact h.advance hl hv hfeed (by rw [length_overlay (by simp; omega), hbuf]) hfill hfull

theorem finalUnpad_feedback {t : Descriptor} {c : Slot} (hbs : c.bs = t.bs) (hmod : c.bs ≤ c.mod1.length)
    (hbuf : c.bs ≤ c.buf.length) {o : BlockOut} (h : finalUnpad t c = .ok o) : c.Feedback o.r := by
  simp only [finalUnpad, except_bind_eq_ok, except_pure] at h
  obtain ⟨_, _, _, _, h⟩ := h
  cases h
  exact blockStep_feedback hbs hmod _ (by simp [hbuf])

theorem finalPartial_feedback {t : Descriptor} {c : Slot} (hbs : c.bs = t.bs) (hmod : c.bs ≤ c.mod1.length)
    {o : BlockOut} (h : finalPartial t c = .ok o) : c.Feedback o.r := by
  have hsame := Slot.feedback_same hmod
  simp only [finalPartial] at h
  split at h
  · cases h
    exact hsame
  · split at h
    · cases h
    · split at h <;> rename_i hm <;> cases h
      case h_1 | h_2 | h_3 | h_4 => exact hsame            -- ECB, CFB, CBC, PCBC keep the register
      case h_5 => exact ⟨by simp [hbs], by simp [hm]⟩      -- OFB feeds the key stream back
      case h_6 | h_7 => exact ⟨length_ctrInc hsame.1, by simp [hm]⟩   -- CTR and GCM count on

theorem finalOutput_feedback {t : Descriptor} {c : Slot} (hbs : c.bs = t.bs) (hmod : c.bs ≤ c.mod1.length)
    (hbuf : c.bs ≤ c.buf.length) (hfill : c.fill ≤ c.bs) {o : BlockOut} (h : finalOutput t c = .ok o) :
    c.Feedback o.r := by
  unfold finalOutput at h
  split at h
  · split at h
    · exact finalUnpad_feedback hbs hmod hbuf h
    · cases h
      exact blockStep_feedback hbs hmod _ (by simp [padBlock]; omega)
  · exact finalPartial_feedback hbs hmod h

theorem cipherFinalOut_eq_ok {s : State} {c : Slot} {x : Args} {o : BlockOut} :
    cipherFinalOut s c x = .ok o ↔
      dstOk s x = true ∧ finalOutput (slotTransform s.cfg c) c = .ok o ∧ o.y.length ≤ dstCap x := by
  simp only [cipherFinalOut, except_bind_eq_ok, require_eq_ok, except_pure, decide_eq_true_eq]
  constructor
  · rintro ⟨_, hdst, o, ho, _, hlen, h⟩
    cases h
    exact ⟨hdst, ho, hlen⟩
  · rintro ⟨hdst, ho, hlen⟩
    exact ⟨(), hdst, o, ho, (), hlen, rfl⟩

theorem finalSlot_wf {cfg : Config} {c : Slot} (h : c.wf cfg) (hl : cfg.legal) (hv : c.valid = true) {o : BlockOut}
    (ho : finalOutput (slotTransform cfg c) c = .ok o) : (finalSlot c o).wf cfg := by
  obtain ⟨hbs, hpos, hmax⟩ := h.block hl hv
  have ⟨⟨hbuf, hmod1, _⟩, _, hvalid⟩ := h
  obtain ⟨-, -, -, hfill, -⟩ := hvalid hv
  exact h.advance hl hv (finalOutput_feedback hbs (by omega) (by omega) hfill ho) hbuf (Nat.zero_le _)
    (fun h0 => absurd h0 (by omega))

/-- The slot that CIPHER_INIT sets up (spec/40_cipher.md R82): `iv` is the block in the feedback register. -/
def initSlot (x : Args) (mode : Mode) (t : Descriptor) (iv ts : List Byte) : Slot :=
  { Slot.cleared with
    valid := true
    dir := cfgDir x
    pad := effectivePad t mode (cfgPadEn x)
    mode := mode
    alg := cfgAlg x
    bs := t.bs
    mod1 := overlay iv Slot.cleared.mod1
    ts := some ts }

theorem cipherInitSlot_of_ok {s : State} {x : Args} {c : Slot} (h : cipherInitSlot s x = .ok c) :
    ∃ mode t iv ts, lookupTransform s.cfg (cfgAlg x) = some t ∧ (t.stream = true → mode = .ecb) ∧
      iv.length = t.bs ∧ (mode.requiresIv = false → iv = zeros t.bs) ∧ c = initSlot x mode t iv ts := by
  simp only [cipherInitSlot, except_bind_eq_ok, require_eq_ok] at h
  obtain ⟨_, -, h⟩ := h
  split at h
  · rename_i mode _
    simp only [except_ok_bind] at h
    split at h
    · rename_i t ht
      simp only [except_bind_eq_ok, require_eq_ok] at h
      obtain ⟨_, hstream, _, -, _, -, _, -, h⟩ := h
      split at h
      · rename_i ts _
        cases h
        refine ⟨mode, t, _, ts, ht, fun hs => by simpa [hs] using hstream, ?_, fun hm => by simp [hm], rfl⟩
        split_ifs <;> simp [zeros]
      · cases h
    · cases h
  · cases h

theorem effectivePad_of_true {t : Descriptor} {mode : Mode} {padEn : Bool} (h : effectivePad t mode padEn = true) :
    mode.blockStyle = true ∧ t.stream = false := by
  simp only [effectivePad] at h
  split at h
  · simp_all
  · cases h

theorem overlay_zeros {n m : Nat} (h : n ≤ m) : overlay (zeros n) (zeros m) = zeros m := by
  simp [overlay, zeros, h]

/-- The slot CIPHER_INIT sets up is one the rules allow (spec/40_cipher.md R81, R82). -/
theorem cipherInitSlot_wf {s : State} (hl : s.cfg.legal) {x : Args} {c : Slot} (h : cipherInitSlot s x = .ok c) :
    c.wf s.cfg := by
  obtain ⟨mode, t, iv, ts, ht, hstream, hlen, hzero, rfl⟩ := cipherInitSlot_of_ok h
  obtain ⟨hpos, hmax⟩ := lookupTransform_wf hl ht
  have htransform : slotTransform s.cfg (initSlot x mode t iv ts) = t := slotTransform_eq ht
  have hmod1 : (overlay iv (zeros maxBs)).length = maxBs := by
    rw [length_overlay (by simp [zeros]; omega)]
    simp [zeros]
  refine ⟨⟨by simp [initSlot, Slot.cleared, zeros], hmod1, rfl⟩, fun hv => absurd hv (by simp [initSlot]), fun _ => ?_⟩
  rw [htransform]
  refine ⟨by simp [initSlot, ht], rfl, rfl, Nat.zero_le _, fun h0 => ?_, effectivePad_of_true, hstream, fun hm => ?_⟩
  · exact absurd (show 0 = t.bs from h0) (by omega)
  · obtain rfl : mode = .ecb := hm
    simp only [initSlot, hzero rfl]
    exact overlay_zeros hmax

end Sys2Proof.Machine
end

section
/-! The invariant `State.Wf` and its two statements: reset has it, and every step keeps it. -/

namespace Sys2Proof.Machine

/-! ## What keeps `State.Wf` -/

theorem State.Wf.slot {s : State} (h : s.Wf) (i : Nat) : (s.slot i).wf s.cfg := by
  unfold State.slot
  rcases Nat.lt_or_ge i s.slots.length with hi | hi
  · rw [List.getD_eq_getElem _ _ hi]
    exact h.slots _ (List.getElem_mem hi)
  · rw [List.getD_eq_default _ _ hi]
    exact Slot.cleared_wf _

theorem State.Wf.setSlot {s : State} (h : s.Wf) (i : Nat) {c : Slot} (hc : c.wf s.cfg) : (s.setSlot i c).Wf :=
  { h with
    slotCount := by simpa using h.slotCount
    slots := fun d hd => by
      rcases List.mem_or_eq_of_mem_set hd with hd | rfl
      · exact h.slots d hd
      · exact hc }

theorem State.Wf.latchBackend {s : State} (h : s.Wf) : s.latchBackend.Wf := by
  unfold State.latchBackend
  split
  · exact h
  · exact { h with backend := by simp [Backend.wf] }

theorem State.Wf.withRsa {s : State} (h : s.Wf) {k : RsaKey} (hk : k.wf s.cfg) : State.Wf { s with rsa := k } :=
  { h with rsa := hk }

theorem State.Wf.withPoint {s : State} (h : s.Wf) {p : Point} (hp : p.wf s.cfg s.group) :
    State.Wf { s with point := p } :=
  { h with point := hp }

/-- A new group, with the point register cleared. -/
theorem State.Wf.withGroup {s : State} (h : s.Wf) {g : Group} (hg : g.wf s.cfg) :
    State.Wf { s with group := g, point := .empty } :=
  { h with group := hg, point := Point.empty_wf _ _ }

theorem State.Wf.setForm {s : State} (h : s.Wf) (f : Bool) :
    State.Wf { s with group := { s.group with form := f } } :=
  { h with group := Group.setForm_wf h.group f, point := h.point }

theorem State.Wf.withEntropy {s : State} (h : s.Wf) (e : Entropy) : State.Wf { s with entropy := e } := { h with }

theorem State.Wf.withInputs {s : State} (h : s.Wf) (l : List Input) : State.Wf { s with inputs := l } := { h with }

theorem State.Wf.softReset {s : State} (h : s.Wf) : s.softReset.Wf :=
  { h with
    slotCount := by simp
    slots := fun c hc => by
      obtain rfl := List.eq_of_mem_replicate hc
      exact Slot.cleared_wf _
    rsa := RsaKey.empty_wf _
    group := Group.empty_wf _
    point := Point.empty_wf _ _
    completion := by simp [State.completionWf] }

theorem State.Wf.powerOn {s : State} (h : s.Wf) (bytes : List Byte) : (s.powerOn bytes).Wf :=
  { h.softReset with
    ram := Memory.writeBytes_wf (Memory.empty_wf _) _ (by simp)
    backend := by simp [Backend.wf] }

theorem State.resetWith_wf {cfg : Config} {ram : Memory} (hl : cfg.legal) (hram : ram.wf cfg.dramSize = true) :
    (State.resetWith cfg ram).Wf where
  legal := hl
  slotCount := by simp [State.resetWith]
  slots := fun c hc => by
    obtain rfl := List.eq_of_mem_replicate hc
    exact Slot.cleared_wf _
  ram := hram
  rsa := RsaKey.empty_wf _
  group := Group.empty_wf _
  point := Point.empty_wf _ _
  backend := by simp [Backend.wf, State.resetWith]
  completion := by simp [State.completionWf, State.resetWith]

/-! ## A rule's end that completion makes well-formed -/

/-- The end of a rule is sound: the state is well-formed, the output lies inside the Data RAM, and RESULT is at most 2. -/
def CmdResult.Sound : CmdResult → Prop
  | .ok s dst out res => s.Wf ∧ dst + out.length ≤ s.cfg.dramSize ∧ res.toNat ≤ 2
  | .raise _ s => s.Wf

theorem complete_wf (p : Pending) {r : CmdResult} (h : r.Sound) : (complete p r).Wf := by
  cases r with
  | raise code s =>
    have h : s.Wf := h
    exact { h with completion := by simp [State.completionWf] }
  | ok s dst out res =>
    obtain ⟨hwf, hout, hres⟩ := h
    obtain ⟨-, ⟨-, -, hdram⟩, -⟩ := hwf.legal
    have hlen : (BitVec.ofNat 32 out.length).toNat = out.length := by
      simp only [BitVec.toNat_ofNat]
      omega
    exact { hwf with
      ram := Memory.writeBytes_wf hwf.ram out hout
      completion := ⟨by simp only [complete_ok_bytesWritten, complete_ok_cfg, hlen]; omega, hres, by simp⟩ }

theorem update_sound {s : State} {r : Except Code State} (h : (update s r).state.Wf) : (update s r).Sound := by
  cases r with
  | ok t => exact ⟨h, Nat.zero_le _, by simp⟩
  | error code => exact h

theorem report_sound {s : State} (hs : s.Wf) {r : Except Code Word} (h : ∀ res, r = .ok res → res.toNat ≤ 2) :
    (report s r).Sound := by
  cases r with
  | ok res => exact ⟨hs, Nat.zero_le _, h res rfl⟩
  | error code => exact hs

/-- The output, if there is one, fits a destination region that lies inside the Data RAM. -/
def FitsDst (s : State) (x : Args) (r : Except Code (List Byte)) : Prop :=
  ∀ out, r = .ok out → dstOk s x = true ∧ out.length ≤ dstCap x

theorem dst_le {s : State} {x : Args} {out : List Byte} (hdst : dstOk s x = true) (hlen : out.length ≤ dstCap x) :
    dstAddr x + out.length ≤ s.cfg.dramSize := by
  simp only [dstOk, region, decide_eq_true_eq] at hdst
  omega

theorem emit_sound {s : State} (hs : s.Wf) {x : Args} {r : Except Code (List Byte)} (h : FitsDst s x r) :
    (emit s x r).Sound := by
  cases r with
  | ok out =>
    obtain ⟨hdst, hlen⟩ := h out rfl
    exact ⟨hs, dst_le hdst hlen, by simp⟩
  | error code => exact hs

theorem emitDrawn_sound {s : State} (hs : s.Wf) {x : Args} {r : Except Code (List Byte × Entropy)}
    (h : ∀ out e, r = .ok (out, e) → dstOk s x = true ∧ out.length ≤ dstCap x) : (emitDrawn s x r).Sound := by
  rcases r with code | ⟨out, e⟩
  · exact hs
  · obtain ⟨hdst, hlen⟩ := h out e rfl
    exact ⟨hs.withEntropy e, dst_le (s := s) hdst hlen, by simp⟩

/-! ## The cipher commands -/

theorem cipherUpdateChecks_of_ok {ctx : Nat} {s : State} {x : Args} (h : cipherUpdateChecks ctx s x = .ok ()) :
    (s.slot ctx).valid = true ∧ dstOk s x = true ∧
      updateBlocks (s.slot ctx) (updateData (s.slot ctx) (srcBytes s x)).length * (s.slot ctx).bs ≤ dstCap x := by
  simp only [cipherUpdateChecks, except_bind_eq_ok, require_eq_ok, decide_eq_true_eq] at h
  obtain ⟨_, -, _, hvalid, _, -, _, -, _, hdst, hlen⟩ := h
  exact ⟨hvalid, hdst, hlen⟩

theorem cipherInitRule_sound (ctx : Nat) {s : State} (hs : s.Wf) (x : Args) : (cipherInitRule ctx s x).Sound := by
  have hlatch := hs.latchBackend
  rcases cipherInitRule_cases ctx s x with ⟨-, h⟩ | ⟨-, ⟨code, h⟩ | ⟨c, hc, h⟩⟩ <;> rw [h]
  · exact hs
  · exact hlatch.setSlot ctx (Slot.cleared_wf _)
  · exact ⟨hlatch.setSlot ctx (by simpa using cipherInitSlot_wf hs.legal hc), Nat.zero_le _, by simp⟩

theorem cipherUpdateRule_sound (ctx : Nat) {s : State} (hs : s.Wf) (x : Args) : (cipherUpdateRule ctx s x).Sound := by
  rcases cipherUpdateRule_cases ctx s x with ⟨code, h⟩ | ⟨hchecks, h⟩ <;> rw [h]
  · exact hs
  · obtain ⟨hvalid, hdst, hlen⟩ := cipherUpdateChecks_of_ok hchecks
    have hc := hs.slot ctx
    obtain ⟨hbs, -, hmax⟩ := hc.block hs.legal hvalid
    have ⟨⟨_, hmod1, _⟩, _⟩ := hc
    have hy := (updateRun_spec hbs (by omega) (srcBytes s x)).1
    exact ⟨hs.setSlot ctx (updateSlot_wf hc hs.legal hvalid _), dst_le hdst (hy ▸ hlen), by simp⟩

theorem cipherFinalRule_sound (ctx : Nat) {s : State} (hs : s.Wf) (x : Args) : (cipherFinalRule ctx s x).Sound := by
  have hc := hs.slot ctx
  rcases cipherFinalRule_cases ctx s x with ⟨code, h⟩ | h | ⟨⟨-, hvalid⟩, ⟨code, h⟩ | ⟨o, ho, h⟩⟩ <;> rw [h]
  · exact hs
  · exact ⟨hs, Nat.zero_le _, by simp⟩
  · exact hs.setSlot ctx (hc.setEnded hvalid true)
  · obtain ⟨hdst, hout, hlen⟩ := cipherFinalOut_eq_ok.mp ho
    exact ⟨hs.setSlot ctx (finalSlot_wf hc hs.legal hvalid hout), dst_le hdst hlen, by simp⟩

theorem cipherReleaseRule_sound (ctx : Nat) {s : State} (hs : s.Wf) (x : Args) : (cipherReleaseRule ctx s x).Sound := by
  refine update_sound ((cipherReleaseRule_leaves ctx s x).elim hs ?_)
  rintro _ rfl
  exact hs.setSlot ctx (Slot.cleared_wf _)

theorem cipherReadivRule_sound (ctx : Nat) {s : State} (hs : s.Wf) (x : Args) : (cipherReadivRule ctx s x).Sound := by
  refine emit_sound hs fun out h => ?_
  simp only [except_bind_eq_ok, require_eq_ok, except_pure, decide_eq_true_eq] at h
  obtain ⟨_, -, _, -, _, hdst, _, hcap, h⟩ := h
  cases h
  exact ⟨hdst, by simp; omega⟩

/-! ## The RSA commands -/

theorem rsaLoadcompRule_sound {s : State} (hs : s.Wf) (x : Args) : (rsaLoadcompRule s x).Sound := by
  refine update_sound ((rsaLoadcompRule_leaves s x).elim hs ?_)
  rintro _ ⟨v, hv, rfl⟩
  exact hs.withRsa (RsaKey.load_wf hs.rsa _ hv)

theorem rsaClearkeyRule_sound {s : State} (hs : s.Wf) (x : Args) : (rsaClearkeyRule s x).Sound :=
  update_sound (hs.withRsa (RsaKey.empty_wf _))

theorem rsaPublicOut_fits (s : State) (x : Args) : FitsDst s x (rsaPublicOut s x) := fun out h => by
  simp only [rsaPublicOut, except_bind_eq_ok, regions_eq_ok, require_eq_ok, except_pure, decide_eq_true_eq] at h
  obtain ⟨_, ⟨-, hdst⟩, _, -, _, -, _, -, _, hcap, h⟩ := h
  cases h
  exact ⟨hdst, by simpa using hcap⟩

theorem rsaPrivateOut_fits (s : State) (x : Args) : FitsDst s x (rsaPrivateOut s x) := fun out h => by
  simp only [rsaPrivateOut, except_bind_eq_ok, regions_eq_ok, require_eq_ok, except_pure, decide_eq_true_eq] at h
  obtain ⟨_, ⟨-, hdst⟩, _, -, _, -, _, -, _, hcap, h⟩ := h
  cases h
  exact ⟨hdst, by simpa using hcap⟩

theorem length_pad1 {data : List Byte} {k : Nat} (h : data.length + 3 ≤ k) : (pad1 data k).length = k := by
  simp [pad1]
  omega

theorem length_pad2 (e : Entropy) {data : List Byte} {k : Nat} (h : data.length + 3 ≤ k) :
    (pad2 e data k).1.length = k := by
  simp [pad2, (Entropy.drawMany_spec _ _).1]
  omega

theorem length_srcBytes (s : State) (x : Args) : (srcBytes s x).length = srcLen x := by simp [srcBytes]

theorem rsaPad1Rule_sound {s : State} (hs : s.Wf) (x : Args) : (rsaPad1Rule s x).Sound := by
  refine emit_sound hs fun out h => ?_
  simp only [except_bind_eq_ok, padChecks_eq_ok, except_pure] at h
  obtain ⟨_, ⟨⟨-, hdst⟩, hlen, hcap⟩, h⟩ := h
  cases h
  exact ⟨hdst, by rwa [length_pad1 (by rwa [length_srcBytes])]⟩

theorem rsaPad2Rule_sound {s : State} (hs : s.Wf) (x : Args) : (rsaPad2Rule s x).Sound := by
  refine emitDrawn_sound hs fun out e h => ?_
  simp only [except_bind_eq_ok, padChecks_eq_ok, except_pure, Except.ok.injEq] at h
  obtain ⟨_, ⟨⟨-, hdst⟩, hlen, hcap⟩, h⟩ := h
  have hout := congrArg (fun r => r.1.length) h
  rw [length_pad2 _ (by rwa [length_srcBytes])] at hout
  exact ⟨hdst, hout ▸ hcap⟩

theorem rsaUnpadRule_sound {s : State} (hs : s.Wf) (x : Args) : (rsaUnpadRule s x).Sound := by
  refine emit_sound hs fun out h => ?_
  simp only [except_bind_eq_ok, regions_eq_ok] at h
  obtain ⟨_, ⟨-, hdst⟩, h⟩ := h
  exact ⟨hdst, unpadInto_length h⟩

/-- The combined operations share their beginning: a selector that is no padding, and 0 for the bare transform
(spec/41_rsa.md R106). -/
theorem combined_sound {s : State} (hs : s.Wf) {x : Args} (pad : Nat) {bare : Except Code (List Byte)} {padded : CmdResult}
    (hbare : FitsDst s x bare) (hpadded : padded.Sound) :
    (if 2 ≤ pad then .raise .unsupportedPadding s else if pad = 0 then emit s x bare else padded : CmdResult).Sound := by
  split
  · exact hs
  · split
    · exact emit_sound hs hbare
    · exact hpadded

theorem rsaPubencRule_sound (pad : Nat) {s : State} (hs : s.Wf) (x : Args) : (rsaPubencRule pad s x).Sound := by
  refine combined_sound hs pad (rsaPublicOut_fits s x) (emitDrawn_sound hs fun out e h => ?_)
  simp only [except_bind_eq_ok, regions_eq_ok, require_eq_ok, except_pure, decide_eq_true_eq] at h
  obtain ⟨_, ⟨-, hdst⟩, _, -, _, -, _, hcap, _, -, h⟩ := h
  cases h
  exact ⟨hdst, by simpa using hcap⟩

theorem rsaPrivdecRule_sound (pad : Nat) {s : State} (hs : s.Wf) (x : Args) : (rsaPrivdecRule pad s x).Sound := by
  refine combined_sound hs pad (rsaPrivateOut_fits s x) (emit_sound hs fun out h => ?_)
  simp only [except_bind_eq_ok, regions_eq_ok] at h
  obtain ⟨_, ⟨-, hdst⟩, _, -, _, -, _, -, h⟩ := h
  exact ⟨hdst, unpadInto_length h⟩

theorem rsaPrivencRule_sound (pad : Nat) {s : State} (hs : s.Wf) (x : Args) : (rsaPrivencRule pad s x).Sound := by
  refine combined_sound hs pad (rsaPrivateOut_fits s x) (emit_sound hs fun out h => ?_)
  simp only [except_bind_eq_ok, regions_eq_ok, require_eq_ok, except_pure, decide_eq_true_eq] at h
  obtain ⟨_, ⟨-, hdst⟩, _, -, _, -, _, hcap, _, -, h⟩ := h
  cases h
  exact ⟨hdst, by simpa using hcap⟩

theorem rsaPubdecRule_sound (pad : Nat) {s : State} (hs : s.Wf) (x : Args) : (rsaPubdecRule pad s x).Sound := by
  refine combined_sound hs pad (rsaPublicOut_fits s x) (emit_sound hs fun out h => ?_)
  simp only [except_bind_eq_ok, regions_eq_ok] at h
  obtain ⟨_, ⟨-, hdst⟩, _, -, _, -, _, -, h⟩ := h
  exact ⟨hdst, unpadInto_length h⟩

/-- A key check that passes answers 1 or 2 (spec/41_rsa.md R112). -/
theorem checkKey_le {k : RsaKey} {res : Word} (h : checkKey k = .ok res) : res.toNat ≤ 2 := by
  simp only [checkKey, except_bind_eq_ok] at h
  obtain ⟨_, -, _, -, _, -, h⟩ := h
  split at h
  · cases h
    decide
  · split at h
    · cases h
      decide
    · simp only [except_bind_eq_ok] at h
      obtain ⟨_, -, _, -, _, -, _, -, _, -, h⟩ := h
      cases h
      decide
    · cases h

theorem rsaCheckkeyRule_sound {s : State} (hs : s.Wf) (x : Args) : (rsaCheckkeyRule s x).Sound :=
  report_sound hs fun _ h => checkKey_le h

/-! ## The EC commands -/

theorem ecLoadcompRule_sound {s : State} (hs : s.Wf) (x : Args) : (ecLoadcompRule s x).Sound := by
  refine update_sound ((ecLoadcompRule_leaves s x).elim hs ?_)
  rintro _ ⟨v, hv, rfl⟩
  exact hs.withGroup (Group.load_wf hs.group _ hv)

theorem ecSetcurveRule_sound {s : State} (hs : s.Wf) (x : Args) : (ecSetcurveRule s x).Sound := by
  refine update_sound ((ecSetcurveRule_leaves s x).elim hs ?_)
  rintro _ ⟨r, hr, rfl⟩
  exact hs.withGroup (Group.ofCurve_wf hs.legal hr _)

theorem ecSetformRule_sound (form : Nat) {s : State} (hs : s.Wf) (x : Args) : (ecSetformRule form s x).Sound := by
  refine update_sound ((ecSetformRule_leaves form s x).elim hs ?_)
  rintro _ ⟨f, rfl⟩
  exact hs.setForm f

theorem ecCleargroupRule_sound {s : State} (hs : s.Wf) (x : Args) : (ecCleargroupRule s x).Sound :=
  update_sound (hs.withGroup (Group.empty_wf _))

theorem ecCheckgroupRule_sound {s : State} (hs : s.Wf) (x : Args) : (ecCheckgroupRule s x).Sound := by
  refine report_sound hs fun res h => ?_
  simp only [except_bind_eq_ok] at h
  obtain ⟨_, -, _, -, _, -, h⟩ := h
  cases h
  split <;> decide

theorem ecPtCheckRule_sound {s : State} (hs : s.Wf) (x : Args) : (ecPtCheckRule s x).Sound := by
  refine report_sound hs fun res h => ?_
  simp only [except_bind_eq_ok] at h
  obtain ⟨_, -, _, -, h⟩ := h
  cases h
  split <;> decide

theorem ecPtSetxyRule_sound {s : State} (hs : s.Wf) (x : Args) : (ecPtSetxyRule s x).Sound := by
  refine update_sound ((ecPtSetxyRule_leaves s x).elim hs ?_)
  rintro _ ⟨p, px, py, hp, hx, hy, rfl⟩
  exact hs.withPoint (Point.wf_of_lt hp rfl (by simp) hx hy)

theorem ecPtSetinfRule_sound {s : State} (hs : s.Wf) (x : Args) : (ecPtSetinfRule s x).Sound := by
  refine update_sound ((ecPtSetinfRule_leaves s x).elim hs ?_)
  rintro _ ⟨p, hp, rfl⟩
  exact hs.withPoint (Point.wf_of_lt hp rfl (by simp) (Nat.pow_pos (by decide)) (Nat.pow_pos (by decide)))

theorem ecPtEncodeRule_sound {s : State} (hs : s.Wf) (x : Args) : (ecPtEncodeRule s x).Sound := by
  refine emit_sound hs fun out h => ?_
  simp only [except_bind_eq_ok, require_eq_ok, except_pure, decide_eq_true_eq] at h
  obtain ⟨_, hdst, _, -, _, -, _, -, _, hcap, h⟩ := h
  cases h
  exact ⟨hdst, hcap⟩

theorem ecPtDecodeRule_sound {s : State} (hs : s.Wf) (x : Args) : (ecPtDecodeRule s x).Sound := by
  refine update_sound ((ecPtDecodeRule_leaves s x).elim hs ?_)
  rintro _ ⟨e, pt, he, hpt, rfl⟩
  have hfield := needCurve_field he
  obtain ⟨hv, hinf, hx, hy⟩ := decodePoint_reduced hfield.2 hpt
  have ⟨hfit, _⟩ := hs.group
  have hp : e.p < 256 ^ s.cfg.bnMax := fits_some.mp (hfield.1 ▸ hfit s.group.ep (by simp))
  exact hs.withPoint (Point.wf_of_lt hfield hv hinf (hx.trans hp) (hy.trans hp))

/-! ## Every command, every transaction, every step -/

theorem ruleOf_sound (i : Instr) {s : State} (hs : s.Wf) (x : Args) : (ruleOf i s x).Sound := by
  cases i with
  | cipherInit ctx => exact cipherInitRule_sound ctx hs x
  | cipherUpdate ctx => exact cipherUpdateRule_sound ctx hs x
  | cipherFinal ctx => exact cipherFinalRule_sound ctx hs x
  | cipherRelease ctx => exact cipherReleaseRule_sound ctx hs x
  | cipherReadiv ctx => exact cipherReadivRule_sound ctx hs x
  | rsaLoadcomp => exact rsaLoadcompRule_sound hs x
  | rsaClearkey => exact rsaClearkeyRule_sound hs x
  | rsaPublic => exact emit_sound hs (rsaPublicOut_fits s x)
  | rsaPrivate => exact emit_sound hs (rsaPrivateOut_fits s x)
  | rsaPad1 => exact rsaPad1Rule_sound hs x
  | rsaPad2 => exact rsaPad2Rule_sound hs x
  | rsaUnpad => exact rsaUnpadRule_sound hs x
  | rsaPubenc pad => exact rsaPubencRule_sound pad hs x
  | rsaPrivdec pad => exact rsaPrivdecRule_sound pad hs x
  | rsaPrivenc pad => exact rsaPrivencRule_sound pad hs x
  | rsaPubdec pad => exact rsaPubdecRule_sound pad hs x
  | rsaCheckkey => exact rsaCheckkeyRule_sound hs x
  | ecLoadcomp => exact ecLoadcompRule_sound hs x
  | ecSetcurve => exact ecSetcurveRule_sound hs x
  | ecSetform form => exact ecSetformRule_sound form hs x
  | ecCleargroup => exact ecCleargroupRule_sound hs x
  | ecCheckgroup => exact ecCheckgroupRule_sound hs x
  | ecPtSetxy => exact ecPtSetxyRule_sound hs x
  | ecPtSetinf => exact ecPtSetinfRule_sound hs x
  | ecPtCheck => exact ecPtCheckRule_sound hs x
  | ecPtEncode => exact ecPtEncodeRule_sound hs x
  | ecPtDecode => exact ecPtDecodeRule_sound hs x

theorem wordRule_sound (w : Word) {s : State} (hs : s.Wf) (x : Args) : (wordRule w s x).Sound := by
  unfold wordRule
  split
  · exact ruleOf_sound _ hs x
  · exact hs

theorem HostEffect.wf {s t : State} (h : HostEffect s t) (hs : s.Wf) : t.Wf := by
  cases h with
  | nothing => exact hs
  | args a => exact { hs with }
  | flags en i => exact { hs with }
  | softReset => exact hs.softReset
  | accept p => exact { hs with }
  | ram a out hin => exact { hs with ram := Memory.writeBytes_wf hs.ram out hin }

theorem busStep_wf {s : State} (hs : s.Wf) (op : BusOp) : (busStep s op).Wf := by
  obtain ⟨t, r, heffect, h⟩ := busStep_effect s op
  have ht := heffect.wf hs
  rw [h]
  exact { ht with }

theorem engineStep_wf {s t : State} (hs : s.Wf) (h : engineStep s = .next t) : t.Wf := by
  cases hp : s.pending with
  | none =>
    rw [engineStep_idle hp] at h
    cases h
    exact hs
  | some p =>
    rw [engineStep_pending hp] at h
    cases h
    exact complete_wf p (wordRule_sound p.word hs p.args)

/-- The curve of the default configuration may stand in the ROM of any datapath: its values are below 256. -/
theorem defaultCurve_wf {n : Nat} (hn : 1 ≤ n) : Curve.wf n ⟨23, 1, 1, 3, 10, 28, 1⟩ := by
  have hsmall : ∀ v ∈ [23, 1, 1, 3, 10, 28, 1], v < 256 ^ 1 := by decide
  exact ⟨by decide, by decide, fun v hv => (hsmall v hv).trans_le (Nat.pow_le_pow_right (by decide) hn)⟩

theorem defaultConfig_legal : Config.default.legal := by
  refine ⟨by decide, by decide, by decide, by decide, by decide, fun r hr => ?_⟩
  obtain rfl := List.mem_singleton.mp hr
  exact defaultCurve_wf (by decide)

/-- Settles O8: each register's reset value is one its rule allows. -/
theorem resetIsWellFormed : Obligations.ResetIsWellFormed :=
  ⟨fun _ _ hl hram => State.resetWith_wf hl hram, State.resetWith_wf defaultConfig_legal (Memory.empty_wf _)⟩

/-- Settles O9: a host transaction has one of the effects of `HostEffect`, a command's rule ends soundly, and a reset gives
the reset values; each keeps the invariant. -/
theorem stepKeepsWellFormed : Obligations.StepKeepsWellFormed := by
  intro s t hs h
  rcases hi : s.inputs with _ | ⟨_ | _ | bytes, rest⟩
  · rw [step_of_no_inputs hi] at h
    exact engineStep_wf hs h
  · rw [step_of_bus hi] at h
    cases h
    exact busStep_wf (hs.withInputs rest) _
  · rw [step_of_engine hi] at h
    exact engineStep_wf (hs.withInputs rest) h
  · rw [step_of_powerOn hi] at h
    cases h
    exact (hs.withInputs rest).powerOn bytes

end Sys2Proof.Machine
end

section
/-! What the host's register accesses do: reads, writes, command acceptance, CTRL (spec/10_state.md R17 to R39). -/

namespace Sys2Proof.Machine
open Sys2Proof.Spec

/-! ## One register transaction -/

/-- A host transaction, as an event, is `busStep`. -/
theorem bus_busStep (s : State) (op : BusOp) : Bus s op (busStep s op) := rfl

theorem bus_write_reg (s : State) {off : Nat} (hoff : off < 0x1000) (hal : off % 4 = 0) (v : Word) :
    Bus s (.write off .w32 v) { writeReg s off v with reply := some .ok } :=
  busStep_write_reg s hoff hal v ▸ bus_busStep s _

theorem bus_write_cmd (s : State) (v : Word) :
    Bus s (.write 0x01C .w32 v) { writeCmd s v with reply := some .ok } := bus_write_reg s (by decide) (by decide) v

theorem bus_write_ctrl (s : State) (v : Word) :
    Bus s (.write 0x010 .w32 v) { writeCtrl s v with reply := some .ok } := bus_write_reg s (by decide) (by decide) v

theorem bus_write_arg (s : State) {k : Nat} (h : k < 8) (v : Word) :
    Bus s (.write (0x040 + 4 * k) .w32 v) { s with args := s.args.set k v h, reply := some .ok } := by
  have hbus := bus_write_reg s (off := 0x040 + 4 * k) (by omega) (by omega) v
  rwa [writeReg_arg s h v] at hbus

theorem bus_write_cmd_idle {s : State} (h : s.pending = none) (v : Word) :
    Bus s (.write 0x01C .w32 v) { s with pending := some ⟨v, s.args⟩, reply := some .ok } := by
  simpa only [writeCmd_idle h] using bus_write_cmd s v

/-- A register reads as the value of its word, and the read changes nothing (spec/10_state.md R17, R18). -/
theorem reads_of_readReg {s : State} {off v : Nat} (hoff : off < 0x1000) (hal : off % 4 = 0)
    (hv : (readReg s off).toNat = v) : Reads s off v :=
  ⟨readReg s off, hv, busStep_read_reg s hoff hal ▸ bus_busStep s _⟩

/-! ## Words built from fields -/

/-- A word built from fields is the high field shifted, plus the low field. -/
theorem toNat_append_eq_add {m n : Nat} (a : BitVec m) (b : BitVec n) :
    (a ++ b).toNat = a.toNat * 2 ^ n + b.toNat := by
  rw [BitVec.toNat_append, ← Nat.shiftLeft_add_eq_or_of_lt b.isLt, Nat.shiftLeft_eq]

theorem toNat_ofNat_of_lt {w n : Nat} (h : n < 2 ^ w) : (BitVec.ofNat w n).toNat = n := by
  rw [BitVec.toNat_ofNat, Nat.mod_eq_of_lt h]

@[simp] theorem toNat_bit (b : Bool) : (bit b).toNat = b.toNat := by cases b <;> rfl

theorem toNat_codeNum (c : Code) : c.num.toNat = codeNumber c := by cases c <;> rfl

theorem toNat_modeNum (m : Mode) : m.num.toNat = modeNumber m := by cases m <;> rfl

theorem toNat_capsWord {c : Config} (h : c.nctx < 32) :
    (capsWord c).toNat = c.nctx + 64 * 2 ^ 8 + 2 ^ 16 + 2 ^ 17 + c.accelAvail.toNat * 2 ^ 18 := by
  have hn : (BitVec.ofNat 5 c.nctx).toNat = c.nctx := toNat_ofNat_of_lt (by omega)
  simp only [capsWord, toNat_append_eq_add, toNat_bit, hn, BitVec.toNat_ofNat, maxBs, Bool.toNat_true]
  omega

theorem toNat_ctrlWord (s : State) : (ctrlWord s).toNat = s.irqEn.toNat := by
  simp only [ctrlWord, toNat_append_eq_add, toNat_bit, BitVec.toNat_ofNat]
  omega

theorem toNat_statusWord (s : State) : (statusWord s).toNat =
    s.pending.isSome.toNat + codeNumber s.lastCode * 2 ^ 8 + s.lastOp.toNat * 2 ^ 16 := by
  simp only [statusWord, toNat_append_eq_add, toNat_bit, toNat_codeNum, BitVec.toNat_ofNat, State.busy]
  omega

theorem toNat_irqWord (i : Irq) :
    (irqWord i).toNat = i.done.toNat + i.err.toNat * 2 + i.overrun.toNat * 4 + i.ramlock.toNat * 8 := by
  simp only [irqWord, toNat_append_eq_add, toNat_bit, BitVec.toNat_ofNat]
  omega

theorem toNat_backendWord (b : Backend) : (backendWord b).toNat = b.locked.toNat + b.accelSel.toNat * 2 := by
  simp only [backendWord, toNat_append_eq_add, toNat_bit, BitVec.toNat_ofNat]
  omega

theorem toNat_slotWord {c : Slot} (hbs : c.bs < 128) (hfill : c.fill < 128) : (slotWord c).toNat =
    c.valid.toNat + c.ended.toNat * 2 + c.dir.toNat * 4 + c.pad.toNat * 8 + modeNumber c.mode * 2 ^ 4 +
      c.alg.toNat * 2 ^ 8 + c.fill * 2 ^ 16 + c.bs * 2 ^ 24 := by
  have hb : (BitVec.ofNat 7 c.bs).toNat = c.bs := toNat_ofNat_of_lt (by omega)
  have hf : (BitVec.ofNat 7 c.fill).toNat = c.fill := toNat_ofNat_of_lt (by omega)
  simp only [slotWord, toNat_append_eq_add, toNat_bit, toNat_modeNum, hb, hf, BitVec.toNat_ofNat]
  omega

theorem slotWord_cleared : slotWord Slot.cleared = 0 := by decide

theorem crt_eq_quintet (k : RsaKey) : k.crt = quintet k := rfl

theorem nlen_eq (k : RsaKey) : k.nlen = if k.n.isSome then bytelen (k.n.getD 0) else 0 := by
  cases h : k.n <;> simp [RsaKey.nlen, h]

theorem toNat_keyStatWord {k : RsaKey} (h : k.nlen < 1024) : (keyStatWord k).toNat =
    k.n.isSome.toNat + k.e.isSome.toNat * 2 + k.d.isSome.toNat * 4 + k.p.isSome.toNat * 8 +
      k.q.isSome.toNat * 16 + k.dmp.isSome.toNat * 32 + k.dmq.isSome.toNat * 64 +
      k.coef.isSome.toNat * 128 + (quintet k).toNat * 2 ^ 8 +
      (if k.n.isSome then bytelen (k.n.getD 0) else 0) * 2 ^ 16 := by
  have hn : (BitVec.ofNat 10 k.nlen).toNat = k.nlen := toNat_ofNat_of_lt (by omega)
  rw [← nlen_eq, ← crt_eq_quintet]
  simp only [keyStatWord, toNat_append_eq_add, toNat_bit, hn, BitVec.toNat_ofNat]
  omega

theorem toNat_ecStatWord (g : Group) (p : Point) : (ecStatWord g p).toNat =
    g.ep.isSome.toNat + g.ea.isSome.toNat * 2 + g.eb.isSome.toNat * 4 +
      g.gx.isSome.toNat * 8 + g.gy.isSome.toNat * 16 + g.en.isSome.toNat * 32 +
      g.eh.isSome.toNat * 64 + g.form.toNat * 2 ^ 7 + p.valid.toNat * 2 ^ 8 +
      p.inf.toNat * 2 ^ 9 + g.named.toNat * 2 ^ 10 + g.curveId.toNat * 2 ^ 16 := by
  simp only [ecStatWord, toNat_append_eq_add, toNat_bit, BitVec.toNat_ofNat]
  omega

/-! ## Register reads -/

/-- From ARG0 on, an offset is an ARG register, a context status or reads 0 (spec/10_state.md R19). -/
theorem readReg_from_034 (s : State) {off : Nat} (h : 0x034 ≤ off) :
    readReg s off =
      if 0x040 ≤ off ∧ off < 0x060 then s.args.getD ((off - 0x040) / 4) 0
      else if 0x080 ≤ off ∧ off < 0x0C0 then ctxStatWord s ((off - 0x080) / 4)
      else 0 := by
  unfold readReg
  split <;> simp at h ⊢

theorem readReg_arg (s : State) {k : Nat} (h : k < 8) : readReg s (0x040 + 4 * k) = s.args[k] := by
  have hk : (0x040 + 4 * k - 0x040) / 4 = k := by omega
  rw [readReg_from_034 s (by omega), if_pos (by omega), hk]
  simp [Vector.getD, h]

theorem readReg_ctxStat (s : State) {i : Nat} (h : i < 16) : readReg s (0x080 + 4 * i) = ctxStatWord s i := by
  have hi : (0x080 + 4 * i - 0x080) / 4 = i := by omega
  rw [readReg_from_034 s (by omega), if_neg (by omega), if_pos (by omega), hi]

theorem readReg_reserved (s : State) {off : Nat}
    (h : (0x034 ≤ off ∧ off < 0x040) ∨ (0x060 ≤ off ∧ off < 0x080) ∨ 0x0C0 ≤ off) : readReg s off = 0 := by
  rw [readReg_from_034 s (by omega), if_neg (by omega), if_neg (by omega)]

theorem reads_arg (s : State) {k : Nat} (h : k < 8) : Reads s (0x040 + 4 * k) s.args[k].toNat :=
  reads_of_readReg (by omega) (by omega) (by rw [readReg_arg s h])

theorem reads_cmd (s : State) : Reads s 0x01C 0 := reads_of_readReg (by decide) (by decide) rfl

theorem reads_ctrl (s : State) : Reads s 0x010 s.irqEn.toNat :=
  reads_of_readReg (by decide) (by decide) (toNat_ctrlWord s)

/-- Settles O50: each register's word is the sum of its fields, each field within its width. -/
theorem registerReads : Obligations.RegisterReads := by
  intro s hl
  obtain ⟨⟨-, hctx⟩, ⟨-, -, hdram⟩, ⟨-, hbn⟩, -⟩ := hl
  refine ⟨?id, ?caps, ?dram, ?bnmax, reads_ctrl s, ?status, ?irq, reads_cmd s, ?bytes, ?result, ?backend,
    fun k hk => reads_arg s hk, ?reserved⟩
  case id => exact reads_of_readReg (by decide) (by decide) rfl
  case caps => exact reads_of_readReg (by decide) (by decide) (toNat_capsWord (by omega))
  case dram => exact reads_of_readReg (by decide) (by decide) (toNat_ofNat_of_lt (by omega))
  case bnmax => exact reads_of_readReg (by decide) (by decide) (toNat_ofNat_of_lt (by omega))
  case status => exact reads_of_readReg (by decide) (by decide) (toNat_statusWord s)
  case irq => exact reads_of_readReg (by decide) (by decide) (toNat_irqWord s.irq)
  case bytes => exact reads_of_readReg (by decide) (by decide) rfl
  case result => exact reads_of_readReg (by decide) (by decide) rfl
  case backend => exact reads_of_readReg (by decide) (by decide) (toNat_backendWord s.backend)
  case reserved =>
    intro off hal hr
    exact reads_of_readReg (by omega) hal (by rw [readReg_reserved s (by omega)]; rfl)

/-- A context's status word: 0 past NCTX and while the context is invalid (spec/10_state.md R33). -/
theorem toNat_ctxStatWord {s : State} (hs : s.Wf) (i : Nat) : (ctxStatWord s i).toNat =
    let c := s.slot i
    if i < s.cfg.nctx ∧ c.valid then
      c.valid.toNat + c.ended.toNat * 2 + c.dir.toNat * 4 + c.pad.toNat * 8 + modeNumber c.mode * 2 ^ 4 +
        c.alg.toNat * 2 ^ 8 + c.fill * 2 ^ 16 + c.bs * 2 ^ 24
    else 0 := by
  have hc := hs.slot i
  unfold ctxStatWord
  by_cases hi : i < s.cfg.nctx
  · by_cases hv : (s.slot i).valid = true
    · obtain ⟨-, -, hmax⟩ := hc.block hs.legal hv
      have ⟨_, _, hvalid⟩ := hc
      obtain ⟨-, -, -, hfill, -⟩ := hvalid hv
      have hmaxBs : maxBs = 64 := rfl
      simp only [hi, hv, and_self, if_true]
      rw [toNat_slotWord (by omega) (by omega), hv]
    · have ⟨_, hcleared, _⟩ := hc
      simp only [hi, hv, if_true]
      rw [hcleared (by simpa using hv), slotWord_cleared]
      rfl
  · simp [hi]

theorem nlen_le {cfg : Config} {k : RsaKey} (h : k.wf cfg) : k.nlen ≤ cfg.bnMax := by
  unfold RsaKey.nlen
  split
  · rename_i n hn
    exact bytelen_le (fits_some.mp (hn ▸ h k.n (by simp)))
  · exact Nat.zero_le _

/-- Settles O51: the status words are the sums of their fields; that BS, FILL and NLEN fit theirs is `State.Wf`. -/
theorem contextKeyAndGroupReads : Obligations.ContextKeyAndGroupReads := by
  intro s hs
  obtain ⟨-, -, ⟨-, hbn⟩, -⟩ := hs.legal
  have hnlen := nlen_le hs.rsa
  refine ⟨fun i hi => ?ctx, ?key, ?group⟩
  case ctx => exact reads_of_readReg (by omega) (by omega) (by rw [readReg_ctxStat s hi, toNat_ctxStatWord hs])
  case key => exact reads_of_readReg (by decide) (by decide) (toNat_keyStatWord (by omega))
  case group => exact reads_of_readReg (by decide) (by decide) (toNat_ecStatWord s.group s.point)

/-! ## Register writes -/

/-- Settles O52: only the ARG registers, CTRL, IRQ_STATUS and CMD take a write, and an ARG register keeps it. -/
theorem registerWrites : Obligations.RegisterWrites := by
  refine ⟨fun s off v hoff hal hne hr => ?_, fun s k j hk hj v => ?_⟩
  · have hbus := bus_write_reg s hoff hal v
    rwa [writeReg_ignored s v hne hr] at hbus
  · refine ⟨_, bus_write_arg s hk v, ?_⟩
    have hread := reads_arg { s with args := s.args.set k v hk, reply := some .ok } hj
    by_cases hjk : j = k
    · subst hjk
      simpa using hread
    · simpa [Vector.getElem_set, hjk, Ne.symm hjk] using hread

/-- Settles O53: CMD is accepted while idle; while busy CMD and the soft reset are dropped with OVERRUN. -/
theorem cmdAcceptanceAndOverrun : Obligations.CmdAcceptanceAndOverrun := by
  refine fun s v => ⟨reads_cmd s, fun hidle => bus_write_cmd_idle hidle v, fun hbusy => ⟨?_, fun hreset => ?_⟩⟩
  · simpa only [writeCmd_busy hbusy] using bus_write_cmd s v
  · simpa only [writeCtrl_reset_busy hreset hbusy] using bus_write_ctrl s v

/-- The soft reset gives the values of R43's table. -/
theorem State.softReset_isReset (s : State) : IsReset s.softReset := by
  refine ⟨⟨fun k hk => by simp, rfl, rfl, rfl, rfl⟩, ⟨rfl, rfl, rfl, rfl⟩, ⟨rfl, rfl⟩,
    ⟨by simp, fun c hc => ?_⟩, ?_, ⟨?_, rfl, rfl, rfl⟩, ⟨rfl, rfl, rfl, rfl⟩⟩
  · obtain rfl := List.eq_of_mem_replicate hc
    exact ⟨⟨rfl, rfl, rfl, rfl⟩, ⟨rfl, rfl, rfl, rfl⟩, ⟨rfl, rfl, rfl, rfl⟩⟩
  · simp [keyComponents, RsaKey.empty]
  · simp [groupComponents, Group.empty]

/-- Settles O54: SOFT_RESET resets an idle engine, and only sets IRQ_EN and OVERRUN on a busy one. -/
theorem ctrlAndSoftReset : Obligations.CtrlAndSoftReset := by
  refine fun s v => ⟨reads_ctrl s, fun hplain => ?_, fun hreset hidle => ?_, fun hreset hbusy => ?_⟩
  · simpa only [writeCtrl_plain s hplain] using bus_write_ctrl s v
  · have hbus := bus_write_ctrl s v
    rw [writeCtrl_reset_idle hreset hidle] at hbus
    exact ⟨_, hbus, s.softReset_isReset, rfl, rfl, rfl, rfl, rfl, rfl⟩
  · simpa only [writeCtrl_reset_busy hreset hbusy] using bus_write_ctrl s v

end Sys2Proof.Machine
end

section
/-! What a command does not depend on and what it leaves alone: the live ARG registers (spec/10_state.md R21), the backend
latch (R34), and the frame of the cipher commands (spec/40_cipher.md section 4). -/

namespace Sys2Proof.Machine
open Sys2Proof.Spec

/-! ## The live ARG registers -/

/-- `s` with other values in the live ARG registers. -/
def State.withArgs (s : State) (live : Args) : State := { s with args := live }

/-- A rule's end with other values in the live ARG registers. -/
def CmdResult.withArgs (live : Args) : CmdResult → CmdResult
  | .ok s dst out res => .ok (s.withArgs live) dst out res
  | .raise code s => .raise code (s.withArgs live)

theorem complete_withArgs (p : Pending) (r : CmdResult) (live : Args) :
    complete p (r.withArgs live) = (complete p r).withArgs live := by
  cases r <;> rfl

theorem emit_withArgs (s : State) (live x : Args) (r : Except Code (List Byte)) :
    emit (s.withArgs live) x r = (emit s x r).withArgs live := by
  cases r <;> rfl

theorem emitDrawn_withArgs (s : State) (live x : Args) (r : Except Code (List Byte × Entropy)) :
    emitDrawn (s.withArgs live) x r = (emitDrawn s x r).withArgs live := by
  cases r <;> rfl

theorem report_withArgs (s : State) (live : Args) (r : Except Code Word) :
    report (s.withArgs live) r = (report s r).withArgs live := by
  cases r <;> rfl

/-- A check before an update does not depend on the live ARG registers: it is enough that what follows does not. -/
theorem update_bind_withArgs {α : Type} {s : State} {live : Args} (check : Except Code α) {k k' : α → Except Code State}
    (h : ∀ a, update (s.withArgs live) (k' a) = (update s (k a)).withArgs live) :
    update (s.withArgs live) (check >>= k') = (update s (check >>= k)).withArgs live := by
  cases check with
  | ok a => exact h a
  | error code => rfl

/-- A check that ends the rule at once does not depend on the live ARG registers, when neither way on does. -/
theorem ite_withArgs (c : Prop) [Decidable c] {live : Args} {a b a' b' : CmdResult} (ha : a' = a.withArgs live)
    (hb : b' = b.withArgs live) : (if c then a' else b') = (if c then a else b).withArgs live := by
  split <;> assumption

theorem cipherInitRule_withArgs (ctx : Nat) (s : State) (live x : Args) :
    cipherInitRule ctx (s.withArgs live) x = (cipherInitRule ctx s x).withArgs live := by
  refine ite_withArgs _ rfl ?_
  have hslot : cipherInitSlot (s.withArgs live) x = cipherInitSlot s x := rfl
  have hlatch : (s.withArgs live).latchBackend = s.latchBackend.withArgs live := by
    unfold State.latchBackend
    split <;> simp_all [State.withArgs]
  simp only [hslot, hlatch]
  cases cipherInitSlot s x <;> rfl

theorem cipherUpdateRule_withArgs (ctx : Nat) (s : State) (live x : Args) :
    cipherUpdateRule ctx (s.withArgs live) x = (cipherUpdateRule ctx s x).withArgs live := by
  have hchecks : cipherUpdateChecks ctx (s.withArgs live) x = cipherUpdateChecks ctx s x := rfl
  unfold cipherUpdateRule
  rw [hchecks]
  cases cipherUpdateChecks ctx s x <;> rfl

theorem cipherFinalRule_withArgs (ctx : Nat) (s : State) (live x : Args) :
    cipherFinalRule ctx (s.withArgs live) x = (cipherFinalRule ctx s x).withArgs live := by
  refine ite_withArgs _ rfl (ite_withArgs _ rfl (ite_withArgs _ rfl ?_))
  have hout : cipherFinalOut (s.withArgs live) (s.slot ctx) x = cipherFinalOut s (s.slot ctx) x := rfl
  rw [show (s.withArgs live).slot ctx = s.slot ctx from rfl, hout]
  cases cipherFinalOut s (s.slot ctx) x <;> rfl

theorem ecSetcurveRule_withArgs (s : State) (live x : Args) :
    ecSetcurveRule (s.withArgs live) x = (ecSetcurveRule s x).withArgs live := by
  unfold ecSetcurveRule
  rw [show (s.withArgs live).cfg = s.cfg from rfl]
  cases lookupCurve s.cfg (argVal x) <;> rfl

theorem ecPtDecodeRule_withArgs (s : State) (live x : Args) :
    ecPtDecodeRule (s.withArgs live) x = (ecPtDecodeRule s x).withArgs live := by
  refine update_bind_withArgs _ fun _ => update_bind_withArgs _ fun e => ?_
  rw [show srcBytes (s.withArgs live) x = srcBytes s x from rfl]
  cases decodePoint e (srcBytes s x) <;> rfl

/-- No command's rule reads the live ARG registers, and none changes them (spec/10_state.md R21). -/
theorem ruleOf_withArgs (i : Instr) (s : State) (live x : Args) :
    ruleOf i (s.withArgs live) x = (ruleOf i s x).withArgs live := by
  cases i with
  | cipherInit ctx => exact cipherInitRule_withArgs ctx s live x
  | cipherUpdate ctx => exact cipherUpdateRule_withArgs ctx s live x
  | cipherFinal ctx => exact cipherFinalRule_withArgs ctx s live x
  | cipherRelease ctx => exact update_bind_withArgs _ fun _ => rfl
  | cipherReadiv ctx => exact emit_withArgs s live x _
  | rsaLoadcomp =>
    exact update_bind_withArgs _ fun _ => update_bind_withArgs _ fun _ => update_bind_withArgs _ fun _ => rfl
  | rsaClearkey => rfl
  | rsaPublic => exact emit_withArgs s live x _
  | rsaPrivate => exact emit_withArgs s live x _
  | rsaPad1 => exact emit_withArgs s live x _
  | rsaPad2 => exact emitDrawn_withArgs s live x _
  | rsaUnpad => exact emit_withArgs s live x _
  | rsaPubenc pad =>
    exact ite_withArgs _ rfl (ite_withArgs _ (emit_withArgs s live x _) (emitDrawn_withArgs s live x _))
  | rsaPrivdec pad => exact ite_withArgs _ rfl (ite_withArgs _ (emit_withArgs s live x _) (emit_withArgs s live x _))
  | rsaPrivenc pad => exact ite_withArgs _ rfl (ite_withArgs _ (emit_withArgs s live x _) (emit_withArgs s live x _))
  | rsaPubdec pad => exact ite_withArgs _ rfl (ite_withArgs _ (emit_withArgs s live x _) (emit_withArgs s live x _))
  | rsaCheckkey => exact report_withArgs s live _
  | ecLoadcomp =>
    exact update_bind_withArgs _ fun _ => update_bind_withArgs _ fun _ => update_bind_withArgs _ fun _ => rfl
  | ecSetcurve => exact ecSetcurveRule_withArgs s live x
  | ecSetform form => exact update_bind_withArgs _ fun _ => rfl
  | ecCleargroup => rfl
  | ecCheckgroup => exact report_withArgs s live _
  | ecPtSetxy =>
    exact update_bind_withArgs _ fun _ => update_bind_withArgs _ fun _ => update_bind_withArgs _ fun _ =>
      update_bind_withArgs _ fun _ => update_bind_withArgs _ fun _ => rfl
  | ecPtSetinf => exact update_bind_withArgs _ fun _ => rfl
  | ecPtCheck => exact report_withArgs s live _
  | ecPtEncode => exact emit_withArgs s live x _
  | ecPtDecode => exact ecPtDecodeRule_withArgs s live x

/-- Settles O11: acceptance copies the ARG registers, and no rule reads them afterwards. -/
theorem commandReadsOnlyItsSnapshot : Obligations.CommandReadsOnlyItsSnapshot := by
  refine ⟨fun s w hidle => bus_write_cmd_idle hidle w, fun i s t live h => ?_, fun s k hk v => bus_write_arg s hk v⟩
  obtain ⟨p, hp, rfl⟩ := exec_next h
  have hlive := exec_pending i (s := s.withArgs live) hp
  rwa [ruleOf_withArgs, complete_withArgs] at hlive

/-! ## The states the cipher and RSA rules end in -/

/-- CIPHER_INIT with CTX < NCTX makes the one-time selection and writes its slot, whatever its outcome. -/
theorem cipherInitRule_state (ctx : Nat) (s : State) (x : Args) :
    (s.cfg.nctx ≤ ctx ∧ (cipherInitRule ctx s x).state = s) ∨
    (ctx < s.cfg.nctx ∧ ∃ c, (cipherInitRule ctx s x).state = s.latchBackend.setSlot ctx c) := by
  rcases cipherInitRule_cases ctx s x with ⟨hctx, h⟩ | ⟨hctx, ⟨code, h⟩ | ⟨c, -, h⟩⟩ <;> rw [h]
  · exact .inl ⟨hctx, rfl⟩
  · exact .inr ⟨hctx, Slot.cleared, rfl⟩
  · exact .inr ⟨hctx, c, rfl⟩

theorem cipherUpdateRule_leaves (ctx : Nat) (s : State) (x : Args) :
    (cipherUpdateRule ctx s x).Leaves s fun t => ∃ c, t = s.setSlot ctx c := by
  rcases cipherUpdateRule_cases ctx s x with ⟨code, h⟩ | ⟨-, h⟩ <;> rw [h]
  · exact .inl rfl
  · exact .inr ⟨_, rfl⟩

theorem cipherFinalRule_leaves (ctx : Nat) (s : State) (x : Args) :
    (cipherFinalRule ctx s x).Leaves s fun t => ∃ c, t = s.setSlot ctx c := by
  rcases cipherFinalRule_cases ctx s x with ⟨code, h⟩ | h | ⟨-, ⟨code, h⟩ | ⟨o, -, h⟩⟩ <;> rw [h]
  · exact .inl rfl
  · exact .inl rfl
  · exact .inr ⟨_, rfl⟩
  · exact .inr ⟨_, rfl⟩

/-- RSA_PUBENC changes at most the place in ENTROPY. -/
theorem rsaPubencRule_state (pad : Nat) (s : State) (x : Args) :
    ∃ e, (rsaPubencRule pad s x).state = { s with entropy := e } := by
  unfold rsaPubencRule
  split
  · exact ⟨s.entropy, rfl⟩
  · split
    · exact ⟨s.entropy, emit_state s x _⟩
    · exact emitDrawn_state s x _

theorem rsaPrivdecRule_state (pad : Nat) (s : State) (x : Args) : (rsaPrivdecRule pad s x).state = s := by
  unfold rsaPrivdecRule
  split_ifs <;> simp

theorem rsaPrivencRule_state (pad : Nat) (s : State) (x : Args) : (rsaPrivencRule pad s x).state = s := by
  unfold rsaPrivencRule
  split_ifs <;> simp

theorem rsaPubdecRule_state (pad : Nat) (s : State) (x : Args) : (rsaPubdecRule pad s x).state = s := by
  unfold rsaPubdecRule
  split_ifs <;> simp

/-! ## The backend latch -/

theorem CmdResult.Leaves.backend {r : CmdResult} {s : State} {Q : State → Prop} (h : r.Leaves s Q)
    (hQ : ∀ t, Q t → t.backend = s.backend) : r.state.backend = s.backend :=
  h.elim (P := fun t => t.backend = s.backend) rfl hQ

/-- Only CIPHER_INIT changes the backend latch (spec/10_state.md R34). -/
theorem ruleOf_backend {i : Instr} (hi : ∀ ctx, i ≠ .cipherInit ctx) (s : State) (x : Args) :
    (ruleOf i s x).state.backend = s.backend := by
  have kept {t : State} (h : t = s) : t.backend = s.backend := congrArg State.backend h
  have drawn {t : State} (h : ∃ e, t = { s with entropy := e }) : t.backend = s.backend := by
    obtain ⟨e, rfl⟩ := h
    rfl
  cases i with
  | cipherInit ctx => exact absurd rfl (hi ctx)
  | cipherUpdate ctx => exact (cipherUpdateRule_leaves ctx s x).backend (by rintro _ ⟨_, rfl⟩; rfl)
  | cipherFinal ctx => exact (cipherFinalRule_leaves ctx s x).backend (by rintro _ ⟨_, rfl⟩; rfl)
  | cipherRelease ctx => exact (cipherReleaseRule_leaves ctx s x).backend (by rintro _ rfl; rfl)
  | cipherReadiv ctx => exact kept (emit_state s x _)
  | rsaLoadcomp => exact (rsaLoadcompRule_leaves s x).backend (by rintro _ ⟨_, _, rfl⟩; rfl)
  | rsaClearkey => rfl
  | rsaPublic => exact kept (emit_state s x _)
  | rsaPrivate => exact kept (emit_state s x _)
  | rsaPad1 => exact kept (emit_state s x _)
  | rsaPad2 => exact drawn (emitDrawn_state s x _)
  | rsaUnpad => exact kept (emit_state s x _)
  | rsaPubenc pad => exact drawn (rsaPubencRule_state pad s x)
  | rsaPrivdec pad => exact kept (rsaPrivdecRule_state pad s x)
  | rsaPrivenc pad => exact kept (rsaPrivencRule_state pad s x)
  | rsaPubdec pad => exact kept (rsaPubdecRule_state pad s x)
  | rsaCheckkey => exact kept (report_state s _)
  | ecLoadcomp => exact (ecLoadcompRule_leaves s x).backend (by rintro _ ⟨_, _, rfl⟩; rfl)
  | ecSetcurve => exact (ecSetcurveRule_leaves s x).backend (by rintro _ ⟨_, _, rfl⟩; rfl)
  | ecSetform form => exact (ecSetformRule_leaves form s x).backend (by rintro _ ⟨_, rfl⟩; rfl)
  | ecCleargroup => rfl
  | ecCheckgroup => exact kept (report_state s _)
  | ecPtSetxy => exact (ecPtSetxyRule_leaves s x).backend (by rintro _ ⟨_, _, _, _, _, _, rfl⟩; rfl)
  | ecPtSetinf => exact (ecPtSetinfRule_leaves s x).backend (by rintro _ ⟨_, _, rfl⟩; rfl)
  | ecPtCheck => exact kept (report_state s _)
  | ecPtEncode => exact kept (emit_state s x _)
  | ecPtDecode => exact (ecPtDecodeRule_leaves s x).backend (by rintro _ ⟨_, _, _, _, rfl⟩; rfl)

/-- CIPHER_INIT makes the one-time selection if CTX < NCTX, whatever its outcome (spec/40_cipher.md R82). -/
theorem cipherInitRule_backend (ctx : Nat) (s : State) (x : Args) :
    (cipherInitRule ctx s x).state.backend = if ctx < s.cfg.nctx then selected s else s.backend := by
  rcases cipherInitRule_state ctx s x with ⟨hctx, h⟩ | ⟨hctx, c, h⟩
  · rw [h, if_neg (by omega)]
  · rw [h, if_pos hctx]
    exact s.latchBackend_backend

theorem HostEffect.backend {s t : State} (h : HostEffect s t) : t.backend = s.backend := by
  cases h <;> rfl

/-- No host transaction changes the backend latch. -/
theorem busStep_backend (s : State) (op : BusOp) : (busStep s op).backend = s.backend := by
  obtain ⟨t, r, heffect, h⟩ := busStep_effect s op
  rw [h]
  exact heffect.backend

/-- The backend latch once the engine has run the command word `w` (spec/10_state.md R34). -/
def latchAfter (w : Word) (s : State) : Backend :=
  match decode w with
  | .ok (.cipherInit c) => if c < s.cfg.nctx then selected s else s.backend
  | _ => s.backend

theorem wordRule_backend (w : Word) (s : State) (x : Args) : (wordRule w s x).state.backend = latchAfter w s := by
  unfold latchAfter
  split
  · rename_i c hd
    rw [wordRule_ok hd]
    exact cipherInitRule_backend c s x
  · rename_i hd
    cases h : decode w with
    | ok i =>
      rw [wordRule_ok h]
      exact ruleOf_backend (fun c hc => hd c (hc ▸ h)) s x
    | error e => rw [wordRule_error h, CmdResult.state_raise]

theorem engineStep_backend {s t : State} (h : engineStep s = .next t) :
    t.backend = s.pending.elim s.backend fun p => latchAfter p.word s := by
  cases hp : s.pending with
  | none =>
    rw [engineStep_idle hp] at h
    cases h
    rfl
  | some p =>
    rw [engineStep_pending hp] at h
    cases h
    rw [complete_backend]
    exact wordRule_backend p.word s p.args

/-- Settles O12: a host transaction keeps the latch, a power-on reset clears it, and of the commands only CIPHER_INIT writes
it. -/
theorem backendIsSelectedOnce : Obligations.BackendIsSelectedOnce := by
  intro s t h
  rcases hi : s.inputs with _ | ⟨_ | _ | bytes, rest⟩
  · rw [step_of_no_inputs hi] at h
    rw [engineStep_backend h]
    cases s.pending <;> rfl
  · rw [step_of_bus hi] at h
    cases h
    exact busStep_backend _ _
  · rw [step_of_engine hi] at h
    rw [engineStep_backend h]
    cases s.pending <;> rfl
  · rw [step_of_powerOn hi] at h
    cases h
    rfl

/-! ## The frame of the cipher commands -/

/-- What a cipher command on slot `ctx` leaves alone in every case (spec/40_cipher.md section 4). -/
structure SlotFrame (ctx : Nat) (s t : State) : Prop where
  others  : ∀ j, j ≠ ctx → t.slot j = s.slot j
  count   : t.slots.length = s.slots.length
  rsa     : t.rsa = s.rsa
  group   : t.group = s.group
  point   : t.point = s.point
  entropy : t.entropy = s.entropy

theorem SlotFrame.refl (ctx : Nat) (s : State) : SlotFrame ctx s s := ⟨fun _ _ => rfl, rfl, rfl, rfl, rfl, rfl⟩

theorem SlotFrame.setSlot (ctx : Nat) (s : State) (c : Slot) : SlotFrame ctx s (s.setSlot ctx c) :=
  ⟨fun j hj => s.slot_setSlot_other ctx j c (Ne.symm hj), by simp, rfl, rfl, rfl, rfl⟩

theorem SlotFrame.latchBackend {ctx : Nat} {s t : State} (h : SlotFrame ctx s.latchBackend t) : SlotFrame ctx s t where
  others j hj := by simpa [State.slot] using h.others j hj
  count := by simpa using h.count
  rsa := by simpa using h.rsa
  group := by simpa using h.group
  point := by simpa using h.point
  entropy := by simpa using h.entropy

/-- The five cipher commands, on slot `ctx` (spec/40_cipher.md R82 to R87). -/
def cipherCommands (ctx : Nat) : List Instr :=
  [.cipherInit ctx, .cipherUpdate ctx, .cipherFinal ctx, .cipherRelease ctx, .cipherReadiv ctx]

theorem cipherRule_frame {ctx : Nat} {i : Instr} (hi : i ∈ cipherCommands ctx) (s : State) (x : Args) :
    SlotFrame ctx s (ruleOf i s x).state := by
  have hsame := SlotFrame.refl ctx s
  simp only [cipherCommands, List.mem_cons, List.not_mem_nil, or_false] at hi
  rcases hi with rfl | rfl | rfl | rfl | rfl
  · change SlotFrame ctx s (cipherInitRule ctx s x).state
    rcases cipherInitRule_state ctx s x with ⟨-, h⟩ | ⟨-, c, h⟩ <;> rw [h]
    · exact hsame
    · exact (SlotFrame.setSlot ctx s.latchBackend c).latchBackend
  · exact (cipherUpdateRule_leaves ctx s x).elim hsame fun _ ⟨c, h⟩ => h ▸ .setSlot ctx s c
  · exact (cipherFinalRule_leaves ctx s x).elim hsame fun _ ⟨c, h⟩ => h ▸ .setSlot ctx s c
  · exact (cipherReleaseRule_leaves ctx s x).elim hsame fun _ h => h ▸ .setSlot ctx s _
  · exact (emit_state s x _).symm ▸ hsame

/-- RESULT is 0 after every cipher command (spec/10_state.md R31). -/
theorem cipherRule_result {ctx : Nat} {i : Instr} (hi : i ∈ cipherCommands ctx) (s : State) (x : Args) :
    (ruleOf i s x).result = 0 := by
  simp only [cipherCommands, List.mem_cons, List.not_mem_nil, or_false] at hi
  rcases hi with rfl | rfl | rfl | rfl | rfl
  · rcases cipherInitRule_cases ctx s x with ⟨-, h⟩ | ⟨-, ⟨_, h⟩ | ⟨_, -, h⟩⟩ <;> simp [ruleOf, h]
  · rcases cipherUpdateRule_cases ctx s x with ⟨_, h⟩ | ⟨-, h⟩ <;> simp [ruleOf, h]
  · rcases cipherFinalRule_cases ctx s x with ⟨_, h⟩ | h | ⟨-, ⟨_, h⟩ | ⟨_, -, h⟩⟩ <;> simp [ruleOf, h]
  · exact update_result s _
  · exact emit_result s x _

/-- Settles O14: the rule writes slot `ctx` at most, and completion touches none of these fields. -/
theorem cipherCommandsFrame : Obligations.CipherCommandsFrame := by
  intro i ctx s t hi h
  obtain ⟨p, -, rfl⟩ := exec_next h
  obtain ⟨hothers, hcount, hrsa, hgroup, hpoint, hentropy⟩ := cipherRule_frame hi s p.args
  refine ⟨fun j hj => ?_, by simpa using hcount, by simpa using hrsa, by simpa using hgroup, by simpa using hpoint,
    by simpa using hentropy, by simpa using cipherRule_result hi s p.args, fun hne => ?_⟩
  · simpa [State.slot] using hothers j hj
  · rw [complete_backend]
    refine ruleOf_backend (fun c hc => hne ?_) s p.args
    subst hc
    simpa using hi

end Sys2Proof.Machine
end

section
/-! What a command with a destination writes (spec/20_memory.md R54, R55), and the host's accesses to the Data RAM and to
nowhere (R44 to R51). -/

namespace Sys2Proof.Machine
open Sys2Proof.Spec

/-! ## The bytes a rule writes -/

/-- A rule leaves the Data RAM of `s` to completion, and what it stages, if anything, goes to the destination address, which
lies with its capacity inside the Data RAM, and fits that capacity (spec/20_memory.md R54, R55). -/
def CmdResult.WritesDst (s : State) (x : Args) : CmdResult → Prop
  | .ok t dst out _ =>
    t.ram = s.ram ∧ (out ≠ [] → dst = dstAddr x ∧ dstOk s x = true ∧ out.length ≤ dstCap x)
  | .raise _ t => t.ram = s.ram

theorem emit_writesDst {s : State} {x : Args} {r : Except Code (List Byte)} (h : FitsDst s x r) :
    (emit s x r).WritesDst s x := by
  cases r with
  | ok out => exact ⟨rfl, fun _ => ⟨rfl, h out rfl⟩⟩
  | error code => exact rfl

theorem emitDrawn_writesDst {s : State} {x : Args} {r : Except Code (List Byte × Entropy)}
    (h : ∀ out e, r = .ok (out, e) → dstOk s x = true ∧ out.length ≤ dstCap x) :
    (emitDrawn s x r).WritesDst s x := by
  rcases r with code | ⟨out, e⟩
  · exact rfl
  · exact ⟨rfl, fun _ => ⟨rfl, h out e rfl⟩⟩

/-- What completion then does to the Data RAM: exactly the BYTES_WRITTEN bytes at the destination can change. -/
theorem complete_writesDst {s : State} {p : Pending} {r : CmdResult} (h : r.WritesDst s p.args) :
    (∀ a, a < dstAddr p.args ∨ dstAddr p.args + (complete p r).bytesWritten.toNat ≤ a →
      (complete p r).ram.read a = s.ram.read a) ∧
    (complete p r).bytesWritten.toNat ≤ dstCap p.args ∧
    ((complete p r).bytesWritten ≠ 0 →
      dstAddr p.args + (complete p r).bytesWritten.toNat ≤ s.cfg.dramSize) := by
  cases r with
  | raise code t =>
    have hram : t.ram = s.ram := h
    simp [hram]
  | ok t dst out res =>
    obtain ⟨hram, hout⟩ := h
    by_cases hnil : out = []
    · simp [hnil, hram]
    · obtain ⟨rfl, hdst, hlen⟩ := hout hnil
      have hcap : dstCap p.args < 2 ^ 32 := p.args[3].isLt
      have hbytes : (BitVec.ofNat 32 out.length).toNat = out.length := toNat_ofNat_of_lt (by omega)
      simp only [complete_ok_ram, complete_ok_bytesWritten, hbytes, hram]
      exact ⟨fun a ha => s.ram.read_writeBytes_other out _ a ha, hlen, fun _ => dst_le hdst hlen⟩

/-! ## Every command with a destination -/

theorem cipherUpdateRule_writesDst (ctx : Nat) {s : State} (hs : s.Wf) (x : Args) :
    (cipherUpdateRule ctx s x).WritesDst s x := by
  rcases cipherUpdateRule_cases ctx s x with ⟨code, h⟩ | ⟨hchecks, h⟩ <;> rw [h]
  · exact rfl
  · obtain ⟨hvalid, hdst, hlen⟩ := cipherUpdateChecks_of_ok hchecks
    have hc := hs.slot ctx
    obtain ⟨hbs, -, hmax⟩ := hc.block hs.legal hvalid
    have ⟨⟨_, hmod1, _⟩, _⟩ := hc
    have hy := (updateRun_spec hbs (by omega) (srcBytes s x)).1
    exact ⟨rfl, fun _ => ⟨rfl, hdst, hy ▸ hlen⟩⟩

theorem cipherFinalRule_writesDst (ctx : Nat) (s : State) (x : Args) : (cipherFinalRule ctx s x).WritesDst s x := by
  rcases cipherFinalRule_cases ctx s x with ⟨code, h⟩ | h | ⟨-, ⟨code, h⟩ | ⟨o, ho, h⟩⟩ <;> rw [h]
  · exact rfl
  · exact ⟨rfl, fun hnil => absurd rfl hnil⟩
  · exact rfl
  · obtain ⟨hdst, -, hlen⟩ := cipherFinalOut_eq_ok.mp ho
    exact ⟨rfl, fun _ => ⟨rfl, hdst, hlen⟩⟩

theorem cipherReadivRule_writesDst (ctx : Nat) (s : State) (x : Args) : (cipherReadivRule ctx s x).WritesDst s x := by
  refine emit_writesDst fun out h => ?_
  simp only [except_bind_eq_ok, require_eq_ok, except_pure, decide_eq_true_eq] at h
  obtain ⟨_, -, _, -, _, hdst, _, hcap, h⟩ := h
  cases h
  exact ⟨hdst, (List.length_take_le _ _).trans hcap⟩

theorem rsaPad1Rule_writesDst (s : State) (x : Args) : (rsaPad1Rule s x).WritesDst s x := by
  refine emit_writesDst fun out h => ?_
  simp only [except_bind_eq_ok, padChecks_eq_ok, except_pure] at h
  obtain ⟨_, ⟨⟨-, hdst⟩, hlen, hcap⟩, h⟩ := h
  cases h
  exact ⟨hdst, by rwa [length_pad1 (by rwa [length_srcBytes])]⟩

theorem rsaPad2Rule_writesDst (s : State) (x : Args) : (rsaPad2Rule s x).WritesDst s x := by
  refine emitDrawn_writesDst fun out e h => ?_
  simp only [except_bind_eq_ok, padChecks_eq_ok, except_pure, Except.ok.injEq] at h
  obtain ⟨_, ⟨⟨-, hdst⟩, hlen, hcap⟩, h⟩ := h
  have hout := congrArg (fun r => r.1.length) h
  rw [length_pad2 _ (by rwa [length_srcBytes])] at hout
  exact ⟨hdst, hout ▸ hcap⟩

theorem rsaUnpadRule_writesDst (s : State) (x : Args) : (rsaUnpadRule s x).WritesDst s x := by
  refine emit_writesDst fun out h => ?_
  simp only [except_bind_eq_ok, regions_eq_ok] at h
  obtain ⟨_, ⟨-, hdst⟩, h⟩ := h
  exact ⟨hdst, unpadInto_length h⟩

/-- The combined operations share their beginning (spec/41_rsa.md R106). -/
theorem combined_writesDst {s : State} {x : Args} (pad : Nat) {bare : Except Code (List Byte)} {padded : CmdResult}
    (hbare : FitsDst s x bare) (hpadded : padded.WritesDst s x) :
    (if 2 ≤ pad then .raise .unsupportedPadding s
      else if pad = 0 then emit s x bare else padded : CmdResult).WritesDst s x := by
  split
  · exact rfl
  · split
    · exact emit_writesDst hbare
    · exact hpadded

theorem rsaPubencRule_writesDst (pad : Nat) (s : State) (x : Args) : (rsaPubencRule pad s x).WritesDst s x := by
  refine combined_writesDst pad (rsaPublicOut_fits s x) (emitDrawn_writesDst fun out e h => ?_)
  simp only [except_bind_eq_ok, regions_eq_ok, require_eq_ok, except_pure, decide_eq_true_eq] at h
  obtain ⟨_, ⟨-, hdst⟩, _, -, _, -, _, hcap, _, -, h⟩ := h
  cases h
  exact ⟨hdst, by simpa using hcap⟩

theorem rsaPrivdecRule_writesDst (pad : Nat) (s : State) (x : Args) : (rsaPrivdecRule pad s x).WritesDst s x := by
  refine combined_writesDst pad (rsaPrivateOut_fits s x) (emit_writesDst fun out h => ?_)
  simp only [except_bind_eq_ok, regions_eq_ok] at h
  obtain ⟨_, ⟨-, hdst⟩, _, -, _, -, _, -, h⟩ := h
  exact ⟨hdst, unpadInto_length h⟩

theorem rsaPrivencRule_writesDst (pad : Nat) (s : State) (x : Args) : (rsaPrivencRule pad s x).WritesDst s x := by
  refine combined_writesDst pad (rsaPrivateOut_fits s x) (emit_writesDst fun out h => ?_)
  simp only [except_bind_eq_ok, regions_eq_ok, require_eq_ok, except_pure, decide_eq_true_eq] at h
  obtain ⟨_, ⟨-, hdst⟩, _, -, _, -, _, hcap, _, -, h⟩ := h
  cases h
  exact ⟨hdst, by simpa using hcap⟩

theorem rsaPubdecRule_writesDst (pad : Nat) (s : State) (x : Args) : (rsaPubdecRule pad s x).WritesDst s x := by
  refine combined_writesDst pad (rsaPublicOut_fits s x) (emit_writesDst fun out h => ?_)
  simp only [except_bind_eq_ok, regions_eq_ok] at h
  obtain ⟨_, ⟨-, hdst⟩, _, -, _, -, _, -, h⟩ := h
  exact ⟨hdst, unpadInto_length h⟩

theorem ecPtEncodeRule_writesDst (s : State) (x : Args) : (ecPtEncodeRule s x).WritesDst s x := by
  refine emit_writesDst fun out h => ?_
  simp only [except_bind_eq_ok, require_eq_ok, except_pure, decide_eq_true_eq] at h
  obtain ⟨_, hdst, _, -, _, -, _, -, _, hcap, h⟩ := h
  cases h
  exact ⟨hdst, hcap⟩

theorem ruleOf_writesDst {i : Instr} (hi : storing i = true) {s : State} (hs : s.Wf) (x : Args) :
    (ruleOf i s x).WritesDst s x := by
  cases i with
  | cipherUpdate ctx => exact cipherUpdateRule_writesDst ctx hs x
  | cipherFinal ctx => exact cipherFinalRule_writesDst ctx s x
  | cipherReadiv ctx => exact cipherReadivRule_writesDst ctx s x
  | rsaPublic => exact emit_writesDst (rsaPublicOut_fits s x)
  | rsaPrivate => exact emit_writesDst (rsaPrivateOut_fits s x)
  | rsaPad1 => exact rsaPad1Rule_writesDst s x
  | rsaPad2 => exact rsaPad2Rule_writesDst s x
  | rsaUnpad => exact rsaUnpadRule_writesDst s x
  | rsaPubenc pad => exact rsaPubencRule_writesDst pad s x
  | rsaPrivdec pad => exact rsaPrivdecRule_writesDst pad s x
  | rsaPrivenc pad => exact rsaPrivencRule_writesDst pad s x
  | rsaPubdec pad => exact rsaPubdecRule_writesDst pad s x
  | ecPtEncode => exact ecPtEncodeRule_writesDst s x
  | _ => cases hi

/-- Settles O18: every rule with a destination stages at most ARG3 bytes, for ARG2, and completion writes just these. -/
theorem commandsWriteOnlyReportedBytes : Obligations.CommandsWriteOnlyReportedBytes := by
  intro i s t p hs hp hi h
  rw [exec_pending i hp] at h
  cases h
  exact complete_writesDst (ruleOf_writesDst hi hs p.args)

/-! ## Where a transaction goes -/

/-- R51's legal accesses are the ones that the address map sends somewhere. -/
theorem legalAccess_eq_true_iff {s : State} {off : Nat} {w : Width} :
    legalAccess s off w = true ↔ busTarget s.cfg off w ≠ .error := by
  simp only [legalAccess, busTarget, ramBase, Bool.or_eq_true, Bool.and_eq_true, decide_eq_true_eq, beq_iff_eq]
  by_cases hreg : off < 0x1000
  · simp [hreg, show ¬ 0x4000 ≤ off by omega]
  · simp only [hreg, if_false, false_and, false_or, and_assoc]
    split_ifs with hram <;> simp [hram]

/-- A legal access to the Data RAM's part of the map goes to the Data RAM (spec/20_memory.md R44). -/
theorem busTarget_ram {s : State} {a : Nat} {w : Width} (h : legalAccess s (0x4000 + a) w = true) :
    busTarget s.cfg (0x4000 + a) w = .ram a := by
  have hreg : ¬ 0x4000 + a < 0x1000 := by omega
  simp only [legalAccess, hreg, decide_false, Bool.false_and, Bool.false_or, Bool.and_eq_true, decide_eq_true_eq,
    beq_iff_eq, and_assoc] at h
  rw [busTarget, if_neg hreg, ramBase, if_pos h, Nat.add_sub_cancel_left]

theorem busRead_error {s : State} {off : Nat} {w : Width} (h : busTarget s.cfg off w = .error) :
    busRead s off w = (s, .busError) := by
  simp [busRead, h]

theorem busWrite_error {s : State} {off : Nat} {w : Width} (h : busTarget s.cfg off w = .error) (v : Word) :
    busWrite s off w v = (s, .busError) := by
  simp [busWrite, h]

theorem busRead_answers {s : State} {off : Nat} {w : Width} (h : busTarget s.cfg off w ≠ .error) :
    ∃ d, (busRead s off w).2 = .data d := by
  unfold busRead
  split
  · contradiction
  · exact ⟨_, rfl⟩
  · split <;> exact ⟨_, rfl⟩

theorem busWrite_answers {s : State} {off : Nat} {w : Width} (h : busTarget s.cfg off w ≠ .error) (v : Word) :
    (busWrite s off w v).2 = .ok := by
  unfold busWrite
  split
  · contradiction
  · rfl
  · split <;> rfl

/-- A read leaves what `busRead` says, and the bus keeps the answer. -/
theorem bus_read (s : State) (off : Nat) (w : Width) :
    Bus s (.read off w) { (busRead s off w).1 with reply := some (busRead s off w).2 } := bus_busStep s _

/-- A write leaves what `busWrite` says, and the bus keeps the answer. -/
theorem bus_write (s : State) (off : Nat) (w : Width) (v : Word) :
    Bus s (.write off w v) { (busWrite s off w v).1 with reply := some (busWrite s off w v).2 } := bus_busStep s _

/-- Settles O57: an access has a bus error exactly when the map sends it nowhere, and then the state stays. -/
theorem busErrorsChangeNothing : Obligations.BusErrorsChangeNothing := by
  refine fun s off w v => ⟨fun hillegal => ?_, fun hlegal => ?_⟩
  · have herr : busTarget s.cfg off w = .error := by
      by_contra hne
      simp [legalAccess_eq_true_iff.mpr hne] at hillegal
    constructor
    · simpa only [busRead_error herr] using bus_read s off w
    · simpa only [busWrite_error herr v] using bus_write s off w v
  · have htarget := legalAccess_eq_true_iff.mp hlegal
    obtain ⟨d, hd⟩ := busRead_answers htarget
    exact ⟨⟨_, d, bus_read s off w, congrArg some hd⟩,
      ⟨_, bus_write s off w v, congrArg some (busWrite_answers htarget v)⟩⟩

/-! ## Little-endian bytes (spec/20_memory.md R48) -/

theorem leValue_lt (bs : List Byte) : leValue bs < 256 ^ bs.length := by
  induction bs with
  | nil => simp [leValue]
  | cons b bs ih =>
    have hb : b.toNat < 256 := b.isLt
    rw [leValue, List.length_cons, Nat.pow_succ]
    omega

/-- Byte `j` of a region counts `256^j`. -/
theorem leValue_readBytes (m : Memory) (a n : Nat) :
    leValue (m.readBytes a n) = ((List.range n).map fun j => (m.read (a + j)).toNat * 2 ^ (8 * j)).sum := by
  induction n generalizing a with
  | zero => rfl
  | succ n ih =>
    have hshift (j : Nat) : (m.read (a + (j + 1))).toNat * 2 ^ (8 * (j + 1)) =
        256 * ((m.read (a + 1 + j)).toNat * 2 ^ (8 * j)) := by
      rw [show a + (j + 1) = a + 1 + j by omega]
      ring
    simp only [Memory.readBytes, leValue, ih, List.range_succ_eq_map, List.map_cons, List.map_map, List.sum_cons,
      Function.comp_def, Nat.succ_eq_add_one, hshift, List.sum_map_mul_left]
    simp

theorem getElem_leBytes (v n j : Nat) (h : j < (leBytes v n).length) :
    (leBytes v n)[j] = BitVec.ofNat 8 (v / 256 ^ j) := by
  induction n generalizing v j with
  | zero => simp at h
  | succ n ih =>
    cases j with
    | zero => simp [leBytes]
    | succ j => simp [leBytes, ih, Nat.div_div_eq_div_mul, Nat.pow_succ, Nat.mul_comm]

/-- Byte `j` of a data word is its bits [8j+7:8j]. -/
theorem getElem_leBytes_word (v : Word) (n j : Nat) (h : j < (leBytes v.toNat n).length) :
    (leBytes v.toNat n)[j] = v.extractLsb' (8 * j) 8 := by
  rw [getElem_leBytes, BitVec.extractLsb', Nat.shiftRight_eq_div_pow, Nat.pow_mul]

/-! ## Data RAM accesses while idle (spec/20_memory.md R48, R53) -/

theorem Width.bytes_le (w : Width) : w.bytes ≤ 4 := by cases w <;> decide

theorem busRead_ram_idle {s : State} {off a : Nat} {w : Width} (hidle : s.pending = none)
    (h : busTarget s.cfg off w = .ram a) :
    busRead s off w = (s, .data (BitVec.ofNat 32 (leValue (s.ram.readBytes a w.bytes)))) := by
  simp [busRead, h, State.busy_eq_false hidle]

theorem busWrite_ram_idle {s : State} {off a : Nat} {w : Width} (hidle : s.pending = none)
    (h : busTarget s.cfg off w = .ram a) (v : Word) :
    busWrite s off w v = ({ s with ram := s.ram.writeBytes a (leBytes v.toNat w.bytes) }, .ok) := by
  simp [busWrite, h, State.busy_eq_false hidle]

/-- The word a Data RAM read answers holds the bytes' value: they are at most four. -/
theorem toNat_readWord (m : Memory) (a : Nat) (w : Width) :
    (BitVec.ofNat 32 (leValue (m.readBytes a w.bytes))).toNat = leValue (m.readBytes a w.bytes) := by
  refine toNat_ofNat_of_lt ?_
  calc leValue (m.readBytes a w.bytes) < 256 ^ w.bytes := by simpa using leValue_lt (m.readBytes a w.bytes)
    _ ≤ 256 ^ 4 := Nat.pow_le_pow_right (by decide) w.bytes_le

/-- Settles O58: a read answers the little-endian value of the bytes, and a write stores the little-endian bytes of the
data, inside the canonical Data RAM. -/
theorem dataRamIsLittleEndian : Obligations.DataRamIsLittleEndian := by
  intro s a w hs hidle hlegal
  have htarget := busTarget_ram hlegal
  refine ⟨⟨_, ?_, (toNat_readWord s.ram a w).trans (leValue_readBytes s.ram a w.bytes)⟩,
    fun v => ⟨s.ram.writeBytes a (leBytes v.toNat w.bytes), ?_, fun j hj => ?_, fun b hb => ?_⟩⟩
  · simpa only [busRead_ram_idle hidle htarget] using bus_read s (0x4000 + a) w
  · simpa only [busWrite_ram_idle hidle htarget v] using bus_write s (0x4000 + a) w v
  · have hin : a + (leBytes v.toNat w.bytes).length ≤ s.cfg.dramSize := by
      simpa using busTarget_ram_le htarget
    rw [Memory.read_writeBytes_same hs.ram _ hin j (by simpa using hj), getElem_leBytes_word]
  · exact s.ram.read_writeBytes_other _ a b (by simpa using hb)

end Sys2Proof.Machine
end

section
/-! The decoder: decode is the inverse of encode, and it is the mask and match table (spec/30_encoding.md R64 to R69). -/

namespace Sys2Proof.Machine
open Sys2Proof.Spec

/-! ## The fields of a word -/

/-- A word is its three fields side by side (spec/30_encoding.md R64). -/
theorem toNat_word (w : Word) : w.toNat = (wordRes w).toNat * 4096 + (wordSel w).toNat * 256 + (wordOp w).toNat := by
  simp only [wordRes, wordSel, wordOp, BitVec.extractLsb'_toNat, Nat.shiftRight_eq_div_pow]
  omega

/-- The mask of a row that uses S (spec/30_encoding.md R69). -/
def selectorMask : Word := 0xFFFFF0FF

/-- The mask clears S and keeps RES and OP. -/
theorem fields_and_selectorMask (w : Word) :
    wordRes (w &&& selectorMask) = wordRes w ∧ wordSel (w &&& selectorMask) = 0 ∧
    wordOp (w &&& selectorMask) = wordOp w := by
  have hres : selectorMask.extractLsb' 12 20 = BitVec.allOnes 20 := by decide
  have hsel : selectorMask.extractLsb' 8 4 = 0 := by decide
  have hop : selectorMask.extractLsb' 0 8 = BitVec.allOnes 8 := by decide
  simp only [wordRes, wordSel, wordOp, BitVec.extractLsb'_and, hres, hsel, hop, BitVec.and_allOnes, true_and, and_true]
  exact BitVec.and_zero

/-! ## The opcode map, both ways (spec/30_encoding.md R66) -/

theorem noSel_eq_ok {i j : Instr} {s : Nat} : noSel i s = .ok j ↔ s = 0 ∧ i = j := by
  unfold noSel
  split <;> simp_all

/-- The opcode map reads back every command's own opcode and selector. -/
theorem decodeOp_opcode_selector (i : Instr) : decodeOp i.opcode.toNat i.selector = .ok i := by
  cases i <;> rfl

/-- A command the opcode map answers has the opcode and the selector it was asked for. -/
theorem opcode_selector_of_decodeOp {op s : Nat} {i : Instr} (h : decodeOp op s = .ok i) :
    i.opcode.toNat = op ∧ i.selector = s := by
  unfold decodeOp at h
  split at h <;> grind [noSel_eq_ok, Instr.opcode, Instr.selector]

theorem decodeOp_eq_ok {op s : Nat} {i : Instr} : decodeOp op s = .ok i ↔ i.opcode.toNat = op ∧ i.selector = s := by
  refine ⟨opcode_selector_of_decodeOp, ?_⟩
  rintro ⟨rfl, rfl⟩
  exact decodeOp_opcode_selector i

/-! ## decode and encode -/

/-- What decoding says of a word's fields (spec/30_encoding.md R68). -/
theorem decode_eq_ok {w : Word} {i : Instr} :
    decode w = .ok i ↔ wordRes w = 0 ∧ i.opcode = wordOp w ∧ i.selector = (wordSel w).toNat := by
  unfold decode
  split <;> simp_all [decodeOp_eq_ok, BitVec.toNat_inj]

theorem wf_of_decode {w : Word} {i : Instr} (h : decode w = .ok i) : i.wf := by
  obtain ⟨-, -, hsel⟩ := decode_eq_ok.mp h
  exact hsel.trans_lt (wordSel w).isLt

theorem encode_of_decode {w : Word} {i : Instr} (h : decode w = .ok i) : encode i = w := by
  obtain ⟨hres, hop, hsel⟩ := decode_eq_ok.mp h
  have hw := toNat_word w
  have hlt := w.isLt
  have hzero : (wordRes w).toNat = 0 := by simp [hres]
  refine BitVec.eq_of_toNat_eq ?_
  simp only [encode, hop, hsel, BitVec.toNat_ofNat]
  omega

theorem decode_encode {i : Instr} (h : i.wf) : decode (encode i) = .ok i := by
  obtain ⟨hop, hsel, hres⟩ := Laws.EncodeShape.fields i.opcode i.selector h
  exact decode_eq_ok.mpr ⟨hres, hop.symm, hsel.symm⟩

/-- Settles O2: a word is its three fields, and the opcode map is read the same way in both directions. -/
theorem decodeAndEncodeAgree : Obligations.DecodeAndEncodeAgree := by
  intro w i
  constructor
  · exact fun h => ⟨wf_of_decode h, encode_of_decode h⟩
  · rintro ⟨hwf, rfl⟩
    exact decode_encode hwf

/-! ## The mask and match table (spec/30_encoding.md R69) -/

/-- A row that uses S: its mask leaves S out, and its command carries S, with the match value as its word at S = 0. -/
theorem selectorRow_shape : ∀ r ∈ selectorRows,
    r.mask = selectorMask ∧ r.value = encode (r.instr 0) ∧
    ∀ n, (r.instr n).selector = n ∧ (r.instr n).opcode = (r.instr 0).opcode := by
  simp [selectorRows, selectorMask, encode, Instr.selector, Instr.opcode]

/-- A row that requires S = 0: it compares the whole word, with the word of its one command. -/
theorem plainRow_shape : ∀ r ∈ plainRows,
    r.mask = BitVec.allOnes 32 ∧ ∀ n, r.value = encode (r.instr n) ∧ (r.instr n).selector = 0 := by
  simp [plainRows, encode, Instr.selector, Instr.opcode]

theorem selectorRow_matches_iff {r : Row} (hr : r ∈ selectorRows) (w : Word) :
    r.Matches w ↔ decode w = .ok (r.instr (wordSel w).toNat) := by
  obtain ⟨hmask, hvalue, hinstr⟩ := selectorRow_shape r hr
  obtain ⟨hres, hsel, hop⟩ := fields_and_selectorMask w
  obtain ⟨hselector, hopcode⟩ := hinstr (wordSel w).toNat
  have hzero : (r.instr 0).selector = 0 := (hinstr 0).1
  calc r.Matches w
    _ ↔ encode (r.instr 0) = w &&& selectorMask := by rw [Row.Matches, hmask, hvalue, eq_comm]
    _ ↔ decode (w &&& selectorMask) = .ok (r.instr 0) := by
      rw [decodeAndEncodeAgree, and_iff_right (show (r.instr 0).selector < 16 by omega)]
    _ ↔ wordRes w = 0 ∧ (r.instr 0).opcode = wordOp w := by simp [decode_eq_ok, hres, hsel, hop, hzero]
    _ ↔ decode w = .ok (r.instr (wordSel w).toNat) := by simp [decode_eq_ok, hselector, hopcode]

theorem plainRow_matches_iff {r : Row} (hr : r ∈ plainRows) (w : Word) :
    r.Matches w ↔ decode w = .ok (r.instr (wordSel w).toNat) := by
  obtain ⟨hmask, hinstr⟩ := plainRow_shape r hr
  obtain ⟨hvalue, hselector⟩ := hinstr (wordSel w).toNat
  rw [decodeAndEncodeAgree, and_iff_right (show (r.instr (wordSel w).toNat).selector < 16 by omega), Row.Matches, hmask,
    BitVec.and_allOnes, hvalue, eq_comm]

/-- A word matches a row exactly when it decodes to the row's command with S = `w[11:8]`. -/
theorem row_matches_iff {r : Row} (hr : r ∈ rows) (w : Word) :
    r.Matches w ↔ decode w = .ok (r.instr (wordSel w).toNat) := by
  rcases List.mem_append.mp hr with h | h
  · exact selectorRow_matches_iff h w
  · exact plainRow_matches_iff h w

/-- Every command stands in a row, at its own selector. -/
theorem exists_row (i : Instr) : ∃ r ∈ rows, r.instr i.selector = i := by
  cases i <;> simp [rows, selectorRows, plainRows, Instr.selector]

theorem exists_row_matches {w : Word} {i : Instr} (h : decode w = .ok i) : ∃ r ∈ rows, r.Matches w := by
  obtain ⟨r, hr, hi⟩ := exists_row i
  obtain ⟨-, -, hsel⟩ := decode_eq_ok.mp h
  exact ⟨r, hr, (row_matches_iff hr w).mpr (by rw [← hsel, hi, h])⟩

/-- Two rows have different commands, whatever the selector. -/
theorem rows_instr_pairwise : rows.Pairwise fun r r' => ∀ n, r.instr n ≠ r'.instr n := by
  simp [rows, selectorRows, plainRows]

/-- A word no row matches has no command. -/
theorem decode_error_of_no_row {w : Word} (h : ∀ r ∈ rows, ¬ r.Matches w) : ∃ e, decode w = .error e := by
  cases hd : decode w with
  | error e => exact ⟨e, rfl⟩
  | ok i =>
    obtain ⟨r, hr, hm⟩ := exists_row_matches hd
    exact absurd hm (h r hr)

/-- The engine's turn on a word that is no command (spec/60_exceptions.md R132). -/
theorem turn_of_decode_error {s : State} {p : Pending} {e : Illegal} (hp : s.pending = some p)
    (h : decode p.word = .error e) : Turn s (failed s p .illegalCommand) := by
  rw [Turn, step_of_engine rfl, engineStep_pending hp, wordRule_error h]
  rfl

/-- Settles O3: matching a row is decoding to its command, the rows' commands differ, and each command has its row. -/
theorem decoderMatchesMaskTable : Obligations.DecoderMatchesMaskTable := by
  refine ⟨fun r hr w => (row_matches_iff hr w).mp, ?_, fun s p hp hrows => ?_⟩
  · refine rows_instr_pairwise.imp_of_mem fun hr hr' hne w ⟨hm, hm'⟩ => hne (wordSel w).toNat ?_
    rw [row_matches_iff hr] at hm
    rw [row_matches_iff hr', hm] at hm'
    exact Except.ok.inj hm'
  · obtain ⟨e, he⟩ := decode_error_of_no_row hrows
    exact turn_of_decode_error hp he

/-- Settles O1: each word is decoded. -/
theorem exampleEncodings : Obligations.ExampleEncodings := by
  unfold Obligations.ExampleEncodings
  decide

end Sys2Proof.Machine
end

section
/-! What a command without a destination writes: nothing (spec/30_encoding.md R67; spec/20_memory.md R46). -/

namespace Sys2Proof.Machine
open Sys2Proof.Spec

/-! ## Rules that stage no byte -/

/-- A rule that leaves the Data RAM of `s` as it is, and stages no byte for it. -/
def CmdResult.WritesNothing (s : State) : CmdResult → Prop
  | .ok t _ out _ => t.ram = s.ram ∧ out = []
  | .raise _ t => t.ram = s.ram

theorem complete_writesNothing (p : Pending) {s : State} {r : CmdResult} (h : r.WritesNothing s) :
    (complete p r).ram = s.ram ∧ (complete p r).bytesWritten = 0 := by
  cases r with
  | ok t dst out res =>
    obtain ⟨hram, rfl⟩ := h
    exact ⟨hram, rfl⟩
  | raise code t => exact ⟨h, rfl⟩

theorem report_writesNothing (s : State) (r : Except Code Word) : (report s r).WritesNothing s := by
  cases r with
  | ok res => exact ⟨rfl, rfl⟩
  | error code => exact rfl

/-- A rule that updates engine state stages no byte; it is left to see that its update keeps the Data RAM. -/
theorem update_writesNothing {s : State} {r : Except Code State} {Q : State → Prop} (h : (update s r).Leaves s Q)
    (hQ : ∀ t, Q t → t.ram = s.ram) : (update s r).WritesNothing s := by
  have hram : (update s r).state.ram = s.ram := h.elim (P := fun t => t.ram = s.ram) rfl hQ
  cases r with
  | ok t => exact ⟨hram, rfl⟩
  | error code => exact rfl

theorem cipherInitRule_writesNothing (ctx : Nat) (s : State) (x : Args) : (cipherInitRule ctx s x).WritesNothing s := by
  rcases cipherInitRule_cases ctx s x with ⟨-, h⟩ | ⟨-, ⟨code, h⟩ | ⟨c, -, h⟩⟩ <;> rw [h]
  · exact rfl
  · exact s.latchBackend_ram
  · exact ⟨s.latchBackend_ram, rfl⟩

/-! ## Every command without a destination -/

theorem ruleOf_writesNothing {i : Instr} (hi : storing i = false) (s : State) (x : Args) :
    (ruleOf i s x).WritesNothing s := by
  cases i with
  | cipherInit ctx => exact cipherInitRule_writesNothing ctx s x
  | cipherRelease ctx => exact update_writesNothing (cipherReleaseRule_leaves ctx s x) (by rintro _ rfl; rfl)
  | rsaLoadcomp => exact update_writesNothing (rsaLoadcompRule_leaves s x) (by rintro _ ⟨_, _, rfl⟩; rfl)
  | rsaClearkey => exact ⟨rfl, rfl⟩
  | rsaCheckkey => exact report_writesNothing s _
  | ecLoadcomp => exact update_writesNothing (ecLoadcompRule_leaves s x) (by rintro _ ⟨_, _, rfl⟩; rfl)
  | ecSetcurve => exact update_writesNothing (ecSetcurveRule_leaves s x) (by rintro _ ⟨_, _, rfl⟩; rfl)
  | ecSetform form => exact update_writesNothing (ecSetformRule_leaves form s x) (by rintro _ ⟨_, rfl⟩; rfl)
  | ecCleargroup => exact ⟨rfl, rfl⟩
  | ecCheckgroup => exact report_writesNothing s _
  | ecPtSetxy => exact update_writesNothing (ecPtSetxyRule_leaves s x) (by rintro _ ⟨_, _, _, _, _, _, rfl⟩; rfl)
  | ecPtSetinf => exact update_writesNothing (ecPtSetinfRule_leaves s x) (by rintro _ ⟨_, _, rfl⟩; rfl)
  | ecPtCheck => exact report_writesNothing s _
  | ecPtDecode => exact update_writesNothing (ecPtDecodeRule_leaves s x) (by rintro _ ⟨_, _, _, _, rfl⟩; rfl)
  | _ => cases hi

/-- Settles O17: a rule without a destination stages no byte and keeps the Data RAM, so completion finds nothing to
write. -/
theorem commandsWithoutDestinationLeaveRam : Obligations.CommandsWithoutDestinationLeaveRam := by
  intro i s t hi h
  obtain ⟨p, -, rfl⟩ := exec_next h
  obtain ⟨hram, hbytes⟩ := complete_writesNothing p (ruleOf_writesNothing hi s p.args)
  exact ⟨fun a => by rw [hram], hbytes⟩

end Sys2Proof.Machine
end

section
/-! The checks of a rule in the form the statements give them: a list, of which the first failing one names the code
(spec/60_exceptions.md R133). -/

namespace Sys2Proof.Machine
open Sys2Proof.Spec

/-- A list of checks, run in order: the first that fails raises its code. -/
def runChecks : List (Bool × Code) → Except Code Unit
  | [] => .ok ()
  | (passes, code) :: rest => require passes code >>= fun _ => runChecks rest

@[simp] theorem runChecks_nil : runChecks [] = .ok () := rfl

@[simp] theorem require_bind_ok (passes : Bool) (code : Code) :
    (require passes code >>= fun _ => .ok ()) = require passes code := by
  cases passes <;> rfl

@[simp] theorem runChecks_cons (passes : Bool) (code : Code) (rest : List (Bool × Code)) :
    runChecks ((passes, code) :: rest) = require passes code >>= fun _ => runChecks rest := rfl

theorem firstFailing_eq_none {checks : List (Bool × Code)} :
    firstFailing checks = none ↔ ∀ c ∈ checks, c.1 = true := by
  induction checks with
  | nil => simp [firstFailing]
  | cons c rest ih =>
    obtain ⟨passes, code⟩ := c
    cases passes <;> simp [firstFailing, ih]

theorem runChecks_of_none {checks : List (Bool × Code)} (h : firstFailing checks = none) :
    runChecks checks = .ok () := by
  induction checks with
  | nil => rfl
  | cons c rest ih =>
    obtain ⟨passes, code⟩ := c
    cases passes
    · simp [firstFailing] at h
    · exact ih (by simpa [firstFailing] using h)

theorem runChecks_of_some {checks : List (Bool × Code)} {code : Code} (h : firstFailing checks = some code) :
    runChecks checks = .error code := by
  induction checks with
  | nil => simp [firstFailing] at h
  | cons c rest ih =>
    obtain ⟨passes, code'⟩ := c
    cases passes
    · simpa [firstFailing] using h
    · exact ih (by simpa [firstFailing] using h)

theorem forall_of_runChecks_ok {checks : List (Bool × Code)} {u : Unit} (h : runChecks checks = .ok u) :
    ∀ c ∈ checks, c.1 = true := by
  rw [← firstFailing_eq_none, Option.eq_none_iff_forall_ne_some]
  intro code hsome
  rw [runChecks_of_some hsome] at h
  cases h

/-- The code a failing list of checks raises is one of the list's. -/
theorem mem_of_runChecks_error {checks : List (Bool × Code)} {code : Code} (h : runChecks checks = .error code) :
    code ∈ checks.map Prod.snd := by
  induction checks with
  | nil => cases h
  | cons c rest ih =>
    obtain ⟨passes, code'⟩ := c
    rw [runChecks_cons, except_bind_eq_error] at h
    rcases h with h | ⟨_, -, h⟩
    · simp [(require_eq_error.mp h).2]
    · exact List.mem_cons_of_mem _ (ih h)

theorem firstFailing_append (checks rest : List (Bool × Code)) :
    firstFailing (checks ++ rest) = (firstFailing checks).or (firstFailing rest) := by
  induction checks with
  | nil => rfl
  | cons c cs ih =>
    obtain ⟨passes, code⟩ := c
    cases passes
    · rfl
    · exact ih

/-- A pending command's `Runs` statement is one about the end of its rule. -/
theorem runs_of_rule {i : Instr} {s : State} {p : Pending} {checks : List (Bool × Code)} {ok : CmdResult}
    {fail : Code → CmdResult} (hp : s.pending = some p) (hok : firstFailing checks = none → ruleOf i s p.args = ok)
    (hfail : ∀ code, firstFailing checks = some code → ruleOf i s p.args = fail code) :
    Runs i s checks (complete p ok) fun code => complete p (fail code) :=
  ⟨fun h => by rw [exec_pending i hp, hok h], fun code h => by rw [exec_pending i hp, hfail code h]⟩

/-- A rule that checks and then only writes output. -/
theorem runs_of_emit {i : Instr} {s : State} {p : Pending} {checks : List (Bool × Code)} {out : List Byte}
    (hp : s.pending = some p) (h : ruleOf i s p.args = emit s p.args (runChecks checks >>= fun _ => .ok out)) :
    Runs i s checks (wrote s p (dstAddr p.args) out) (failed s p) :=
  runs_of_rule (ok := .ok s (dstAddr p.args) out 0) (fail := fun code => .raise code s) hp
    (fun hnone => by rw [h, runChecks_of_none hnone]; rfl) (fun code hsome => by rw [h, runChecks_of_some hsome]; rfl)

/-- A rule that checks and then only updates engine state. -/
theorem runs_of_update {i : Instr} {s t : State} {p : Pending} {checks : List (Bool × Code)}
    (hp : s.pending = some p) (h : ruleOf i s p.args = update s (runChecks checks >>= fun _ => .ok t)) :
    Runs i s checks (completed t p 0 0) (failed s p) :=
  runs_of_rule (ok := .ok t 0 [] 0) (fail := fun code => .raise code s) hp
    (fun hnone => by rw [h, runChecks_of_none hnone]; rfl) (fun code hsome => by rw [h, runChecks_of_some hsome]; rfl)

/-- The word of OP and S is the command's encoding (spec/30_encoding.md R66). -/
theorem decode_opcode_selector {i : Instr} (h : i.wf) :
    decode (BitVec.ofNat 32 (i.opcode.toNat + i.selector * 256)) = .ok i := by
  rw [Nat.add_comm]
  exact decode_encode h

end Sys2Proof.Machine
end

section
/-! The five cipher commands one by one (spec/40_cipher.md R77, R78, R82 to R87), and the context state machine
(R88, R89). -/

namespace Sys2Proof.Machine
open Sys2Proof.Spec

/-! ## The chaining modes and the counter -/

/-- Settles O19: each row of the table is a branch of `blockStep`. -/
theorem blockStepTable : Obligations.BlockStepTable :=
  fun _ _ _ _ _ =>
    ⟨rfl, rfl, rfl, rfl, rfl, rfl, rfl, rfl, fun _ => rfl, fun _ => rfl, fun _ => rfl⟩

/-- Settles O20: the counter is the `I2OS` of a number that was reduced to its width. -/
theorem counterCountsLowBytes : Obligations.CounterCountsLowBytes := by
  intro r bs hr w
  have hhigh : (r.take (bs - w)).length = bs - w := by simp [hr]
  refine ⟨length_ctrInc hr, ?_, ?_⟩
  · rw [ctrInc, List.take_left' hhigh]
  · rw [ctrInc, List.drop_left' hhigh, os2i_i2os _ _ (Nat.mod_lt _ (by positivity))]

/-! ## CIPHER_RELEASE and CIPHER_READIV -/

theorem cipherReadivRule_eq (ctx : Nat) (s : State) (x : Args) : cipherReadivRule ctx s x =
    emit s x (runChecks
      [ (decide (ctx < s.cfg.nctx), .invalidParameters), ((s.slot ctx).valid, .invalidParameters)
      , (dstOk s x, .invalidParameters), (decide ((s.slot ctx).bs ≤ dstCap x), .bufferTooSmall) ] >>= fun _ =>
      .ok ((s.slot ctx).mod1.take (s.slot ctx).bs)) := by
  simp [cipherReadivRule, bind_assoc]

theorem cipherReleaseRule_eq (ctx : Nat) (s : State) (x : Args) : cipherReleaseRule ctx s x =
    update s (runChecks [(decide (ctx < s.cfg.nctx), .invalidParameters)] >>= fun _ =>
      .ok (s.setSlot ctx Slot.cleared)) := by
  simp [cipherReleaseRule]

/-- Settles O25: the two rules are their checks, then the clear of the slot and the output of MOD1. -/
theorem cipherReleaseAndReadiv : Obligations.CipherReleaseAndReadiv :=
  ⟨fun ctx h =>
      ⟨decode_opcode_selector (i := .cipherRelease ctx) h, decode_opcode_selector (i := .cipherReadiv ctx) h⟩,
    fun ctx s p hp => ⟨runs_of_update hp (cipherReleaseRule_eq ctx s p.args),
      runs_of_emit hp (cipherReadivRule_eq ctx s p.args)⟩⟩

/-! ## CIPHER_INIT -/

/-- The modes of the codes 0..6, and no other (spec/40_cipher.md R76). -/
theorem modeOf_eq (code : BitVec 4) : modeOf code = if code.toNat ≤ 6 then some (modeNamed code.toNat) else none := by
  revert code
  decide

theorem requiresIv_modeNamed {n : Nat} (h : n ≤ 6) : (modeNamed n).requiresIv = (n != 0) := by
  revert h
  revert n
  decide

theorem modeNamed_eq_ecb {n : Nat} (h : n ≤ 6) : (modeNamed n == .ecb) = (n == 0) := by
  revert h
  revert n
  decide

theorem blockStyle_eq (m : Mode) : m.blockStyle = blockStyle m := by cases m <;> rfl

theorem effectivePad_eq (t : Descriptor) (m : Mode) (padEn : Bool) :
    effectivePad t m padEn = (padEn && blockStyle m && !t.stream) := by
  rw [effectivePad, blockStyle_eq]
  cases padEn <;> cases blockStyle m <;> cases t.stream <;> rfl

/-- The IV block CIPHER_INIT reads: zeros where neither the mode nor the transform needs one. -/
def initIv (s : State) (x : Args) (t : Descriptor) : List Byte :=
  if (cfgMode x).toNat != 0 || t.stream then s.ram.readBytes (src2Addr x) t.bs else zeros t.bs

/-- Checks (2) to (8) of CIPHER_INIT, where an unmapped algorithm has fallen out at (3) (spec/40_cipher.md R82). -/
def initChecks (s : State) (x : Args) (mapped : Option Descriptor) (t : Descriptor) : List (Bool × Code) :=
  [ (cfgReserved x == 0 && decide ((cfgMode x).toNat ≤ 6), .invalidParameters)
  , (mapped.isSome, .invalidKey)
  , (!t.stream || (cfgMode x).toNat == 0, .invalidParameters)
  , (srcOk s x, .invalidParameters)
  , (!((cfgMode x).toNat != 0 || t.stream) || region s (src2Addr x) t.bs, .invalidParameters)
  , (decide (srcLen x ≤ s.cfg.maxKey) && t.keyLens.contains (srcLen x), .invalidKey)
  , ((transformKs t (srcBytes s x) (initIv s x t)).isSome, .invalidKey) ]

theorem isSome_of_initChecks {s : State} {x : Args} {mapped : Option Descriptor} {t : Descriptor}
    (h : ∀ c ∈ initChecks s x mapped t, c.1 = true) : (transformKs t (srcBytes s x) (initIv s x t)).isSome = true :=
  h ((transformKs t (srcBytes s x) (initIv s x t)).isSome, .invalidKey) (by simp [initChecks])

/-- CIPHER_INIT's slot is `initSlot`, once the checks pass. -/
theorem cipherInitSlot_eq (s : State) (x : Args) : cipherInitSlot s x =
    let mapped := lookupTransform s.cfg (cfgAlg x)
    let t := mapped.getD ⟨0, [], false, .rotXor⟩
    runChecks (initChecks s x mapped t) >>= fun _ =>
      .ok (initSlot x (modeNamed (cfgMode x).toNat) t
        (if (cfgMode x).toNat = 0 then zeros t.bs else initIv s x t)
        ((transformKs t (srcBytes s x) (initIv s x t)).getD [])) := by
  by_cases hmode : (cfgMode x).toNat ≤ 6
  · cases ht : lookupTransform s.cfg (cfgAlg x) with
    | none => simp [cipherInitSlot, initChecks, modeOf_eq, hmode, ht]
    | some t =>
      have hiv : (if (cfgMode x).toNat != 0 || t.stream then s.ram.readBytes (src2Addr x) t.bs else zeros t.bs) =
          initIv s x t := rfl
      simp only [cipherInitSlot, modeOf_eq, hmode, ht, if_true, except_ok_bind, requiresIv_modeNamed hmode,
        modeNamed_eq_ecb hmode, hiv]
      cases hks : transformKs t (srcBytes s x) (initIv s x t) <;>
        simp [hks, hmode, initChecks, bind_assoc, srcOk, initSlot, Slot.cleared]
  · cases hres : cfgReserved x == 0#18 <;> simp [cipherInitSlot, initChecks, modeOf_eq, hmode, hres]

theorem length_initIv (s : State) (x : Args) (t : Descriptor) : (initIv s x t).length = t.bs := by
  unfold initIv
  split <;> simp [zeros]

theorem overlay_zeros_eq {iv : List Byte} {n : Nat} (h : iv.length = n) (m : Nat) :
    overlay iv (zeros m) = iv ++ zeros (m - n) := by
  simp [overlay, zeros, h]

theorem State.latchBackend_eq (s : State) : s.latchBackend = { s with backend := selected s } := by
  unfold State.latchBackend selected
  split <;> simp_all

/-- The rule of CIPHER_INIT after check (1). -/
theorem cipherInitRule_of_lt {ctx : Nat} {s : State} (h : ctx < s.cfg.nctx) (x : Args) : cipherInitRule ctx s x =
    match cipherInitSlot s x with
    | .ok c => .ok (s.latchBackend.setSlot ctx c) 0 [] 0
    | .error code => .raise code (s.latchBackend.setSlot ctx Slot.cleared) := by
  unfold cipherInitRule
  rw [if_neg (by omega)]
  cases cipherInitSlot s x <;> simp

theorem cipherInitRule_of_ge {ctx : Nat} {s : State} (h : s.cfg.nctx ≤ ctx) (x : Args) :
    cipherInitRule ctx s x = .raise .invalidParameters s := if_pos h

/-- The slot of CIPHER_INIT, field by field (spec/40_cipher.md R81, R82). -/
theorem initSlot_eq (x : Args) (mode : Mode) {t : Descriptor} {iv : List Byte} (h : iv.length = t.bs) (ts : List Byte) :
    initSlot x mode t iv ts =
      { valid := true, ended := false, dir := cfgDir x, pad := cfgPadEn x && blockStyle mode && !t.stream
        mode := mode, alg := cfgAlg x, bs := t.bs, fill := 0
        buf := zeros 64, mod1 := iv ++ zeros (64 - t.bs), mod2 := zeros 64, ts := some ts } := by
  simp only [initSlot, Slot.cleared, effectivePad_eq, overlay_zeros_eq h, maxBs]

/-- Settles O22: check (1) decides about the latch and the clear, `cipherInitSlot_eq` says the rest. -/
theorem cipherInitSetsUpContext : Obligations.CipherInitSetsUpContext := by
  refine ⟨fun ctx h => decode_opcode_selector (i := .cipherInit ctx) h, fun ctx s p hp => ?_⟩
  intro x mapped t mode needIv iv ts cleared slot _
  have hmod1 : (if mode = 0 then zeros t.bs else iv).length = t.bs := by
    split
    · simp [zeros]
    · exact length_initIv s x t
  have hslot : cipherInitSlot s x =
      runChecks (initChecks s x mapped t) >>= fun _ => .ok { slot with ts := some (ts.getD []) } :=
    (cipherInitSlot_eq s x).trans
      (congrArg (fun c => runChecks (initChecks s x mapped t) >>= fun _ => .ok c) (initSlot_eq x _ hmod1 _))
  change Runs _ s ((decide (ctx < s.cfg.nctx), .invalidParameters) :: initChecks s x mapped t) _ _
  refine runs_of_rule (ok := .ok { s with backend := selected s, slots := s.slots.set ctx slot } 0 [] 0)
    (fail := fun code => .raise code (if ctx < s.cfg.nctx then cleared else s)) hp (fun hnone => ?_) (fun code hsome => ?_)
  · obtain ⟨hctx, hrest⟩ := List.forall_mem_cons.mp (firstFailing_eq_none.mp hnone)
    obtain ⟨v, hv⟩ := Option.isSome_iff_exists.mp (isSome_of_initChecks hrest)
    have hts : some (ts.getD []) = ts := by
      rw [show ts = some v from hv]
      rfl
    change cipherInitRule ctx s x = _
    rw [cipherInitRule_of_lt (by simpa using hctx), hslot, runChecks_of_none (firstFailing_eq_none.mpr hrest), hts,
      State.latchBackend_eq]
    rfl
  · change cipherInitRule ctx s x = _
    by_cases hctx : ctx < s.cfg.nctx
    · have hrest : firstFailing (initChecks s x mapped t) = some code := by simpa [firstFailing, hctx] using hsome
      rw [cipherInitRule_of_lt hctx, hslot, runChecks_of_some hrest, State.latchBackend_eq, if_pos hctx]
      rfl
    · obtain rfl : Code.invalidParameters = code := by simpa [firstFailing, hctx] using hsome
      rw [cipherInitRule_of_ge (by omega), if_neg hctx]

/-! ## CIPHER_UPDATE -/

/-- `n + m` blocks are `n` blocks, and then `m` on what they left. -/
theorem runBlocks_add (t : Descriptor) (mode : Mode) (dir : Bool) (bs n m : Nat) (r ts data : List Byte) :
    runBlocks t mode dir bs (n + m) r ts data =
      let o := runBlocks t mode dir bs n r ts data
      let rest := runBlocks t mode dir bs m o.r o.ts (data.drop (n * bs))
      ⟨o.y ++ rest.y, rest.r, rest.ts⟩ := by
  induction n generalizing r ts data with
  | zero => simp [runBlocks]
  | succ n ih => simp [Nat.succ_add n m, runBlocks, ih, Nat.succ_mul, Nat.add_comm bs]

theorem runBlocks_one (t : Descriptor) (mode : Mode) (dir : Bool) (bs : Nat) (r ts data : List Byte) :
    runBlocks t mode dir bs 1 r ts data = blockStep t mode dir bs r ts (data.take bs) := by
  simp [runBlocks]

/-- The loop of R84 runs the blocks one after the other. -/
theorem blockLoop_eq : blockLoop = fun t c data n =>
    let o := runBlocks t c.mode c.dir c.bs n (c.mod1.take c.bs) (c.ts.getD []) data
    (o.y, o.r, o.ts) := by
  funext t c data n
  induction n with
  | zero => rfl
  | succ n ih =>
    simp only [runBlocks_add, runBlocks_one]
    rw [blockLoop, List.range_succ, List.foldl_append]
    change List.foldl _ (blockLoop t c data n) _ = _
    rw [ih]
    rfl

theorem keep_eq_kept : keep = kept := by
  funext c total
  simp [keep, kept]

theorem cipherUpdateChecks_eq (ctx : Nat) (s : State) (x : Args) : cipherUpdateChecks ctx s x = runChecks
    [ (decide (ctx < s.cfg.nctx), .invalidParameters), ((s.slot ctx).valid, .invalidParameters)
    , (!(s.slot ctx).ended, .invalidParameters), (srcOk s x, .invalidParameters), (dstOk s x, .invalidParameters)
    , (decide (updateBlocks (s.slot ctx) (updateData (s.slot ctx) (srcBytes s x)).length * (s.slot ctx).bs ≤ dstCap x),
        .bufferTooSmall) ] := by
  simp [cipherUpdateChecks]

/-- The slot of CIPHER_UPDATE, field by field (spec/40_cipher.md R84). -/
theorem updateSlot_eq (cfg : Config) (c : Slot) (input : List Byte) : updateSlot cfg c input =
    let data := updateData c input
    let o := updateRun cfg c input
    { c with
      mod1 := o.r ++ c.mod1.drop o.r.length
      ts := some o.ts
      buf := data.drop (data.length - keep c data.length) ++ c.buf.drop (keep c data.length)
      fill := keep c data.length } := by
  have hlen : ((updateData c input).drop ((updateData c input).length - keep c (updateData c input).length)).length =
      keep c (updateData c input).length := by
    have := keep_le c (updateData c input).length
    simp
    omega
  simp only [updateSlot, overlay, hlen]

theorem cipherUpdateRule_of_ok {ctx : Nat} {s : State} {x : Args} (h : cipherUpdateChecks ctx s x = .ok ()) :
    cipherUpdateRule ctx s x = .ok (s.setSlot ctx (updateSlot s.cfg (s.slot ctx) (srcBytes s x))) (dstAddr x)
      (updateRun s.cfg (s.slot ctx) (srcBytes s x)).y 0 := by
  simp [cipherUpdateRule, h]

theorem cipherUpdateRule_of_error {ctx : Nat} {s : State} {x : Args} {code : Code}
    (h : cipherUpdateChecks ctx s x = .error code) : cipherUpdateRule ctx s x = .raise code s := by
  simp [cipherUpdateRule, h]

/-- Settles O23: the checks are `cipherUpdateChecks`, and the loop is `runBlocks`. -/
theorem cipherUpdateProcessesBlocks : Obligations.CipherUpdateProcessesBlocks := by
  refine ⟨fun ctx h => decode_opcode_selector (i := .cipherUpdate ctx) h, fun ctx s p hp => ?_⟩
  rw [← keep_eq_kept, blockLoop_eq]
  have hslot := updateSlot_eq s.cfg (s.slot ctx) (srcBytes s p.args)
  refine runs_of_rule (ok := .ok (s.setSlot ctx _) (dstAddr p.args) _ 0) (fail := fun code => .raise code s) hp
    (fun hnone => ?_) (fun code hsome => ?_)
  · exact hslot ▸ cipherUpdateRule_of_ok (cipherUpdateChecks_eq ctx s p.args ▸ runChecks_of_none hnone)
  · exact cipherUpdateRule_of_error (cipherUpdateChecks_eq ctx s p.args ▸ runChecks_of_some hsome)

/-! ## CIPHER_FINAL -/

/-- Checks (4) to (6) of CIPHER_FINAL, each in the contexts it belongs to (spec/40_cipher.md R85). -/
def outputChecks (t : Descriptor) (c : Slot) : List (Bool × Code) :=
  [ (!(c.pad && c.dir) || c.fill == c.bs, .badPadding)
  , (!(c.pad && c.dir) || (padLength t c != 0 && decide (padLength t c ≤ c.bs)), .badPadding)
  , (c.pad || c.fill == 0 || !blockStyle c.mode || t.stream, .invalidParameters) ]

/-- The output block of `lastOutput`. -/
def lastBlock (t : Descriptor) (c : Slot) : BlockOut :=
  ⟨(lastOutput t c).1, (lastOutput t c).2.1, (lastOutput t c).2.2⟩

theorem finalUnpad_eq {t : Descriptor} {c : Slot} (hpad : c.pad = true) (hdir : c.dir = true) :
    finalUnpad t c = runChecks (outputChecks t c) >>= fun _ => .ok (lastBlock t c) := by
  simp [finalUnpad, outputChecks, hpad, hdir, lastBlock, lastOutput, padLength, bind_assoc]

/-- A partial block in a mode that has one (spec/40_cipher.md R85). -/
theorem finalPartial_of_styled {t : Descriptor} {c : Slot} (hpad : c.pad = false) (hfill : c.fill ≠ 0)
    (hstyle : (c.mode.blockStyle && !t.stream) = false) : finalPartial t c = .ok (lastBlock t c) := by
  simp only [finalPartial, hfill, hstyle, if_false, lastBlock, lastOutput, hpad]
  cases c.mode with
  | ecb => cases c.dir <;> rfl
  | _ => rfl

theorem finalPartial_eq {t : Descriptor} {c : Slot} (hpad : c.pad = false) :
    finalPartial t c = runChecks (outputChecks t c) >>= fun _ => .ok (lastBlock t c) := by
  have hchecks : runChecks (outputChecks t c) =
      require (c.fill == 0 || !(c.mode.blockStyle && !t.stream)) .invalidParameters := by
    simp [outputChecks, hpad, blockStyle_eq, Bool.or_assoc]
  rw [hchecks]
  by_cases hfill : c.fill = 0
  · simp [finalPartial, hpad, hfill, lastBlock, lastOutput]
  · have hne : (c.fill == 0) = false := by simpa using hfill
    cases hstyle : c.mode.blockStyle && !t.stream
    · simp [finalPartial_of_styled hpad hfill hstyle]
    · simp [finalPartial, hfill, hne, hstyle]

theorem finalOutput_eq (t : Descriptor) (c : Slot) :
    finalOutput t c = runChecks (outputChecks t c) >>= fun _ => .ok (lastBlock t c) := by
  unfold finalOutput
  split
  · rename_i hpad
    split
    · exact finalUnpad_eq hpad ‹_›
    · rename_i hdir
      simp [outputChecks, hpad, hdir, lastBlock, lastOutput, padBlock]
  · exact finalPartial_eq (by simpa using ‹¬ c.pad = true›)

/-- Checks (3) to (7) of CIPHER_FINAL (spec/40_cipher.md R85). -/
def finalChecks (s : State) (c : Slot) (x : Args) : List (Bool × Code) :=
  (dstOk s x, .invalidParameters) :: outputChecks (slotTransform s.cfg c) c ++
    [(decide ((lastBlock (slotTransform s.cfg c) c).y.length ≤ dstCap x), .bufferTooSmall)]

theorem cipherFinalOut_eq (s : State) (c : Slot) (x : Args) :
    cipherFinalOut s c x = runChecks (finalChecks s c x) >>= fun _ => .ok (lastBlock (slotTransform s.cfg c) c) := by
  simp [cipherFinalOut, finalChecks, finalOutput_eq, outputChecks, bind_assoc]

theorem cipherFinalRule_of_ended {ctx : Nat} {s : State} (hctx : ctx < s.cfg.nctx) (hvalid : (s.slot ctx).valid = true)
    (hended : (s.slot ctx).ended = true) (x : Args) : cipherFinalRule ctx s x = .ok s 0 [] 0 := by
  simp [cipherFinalRule, hvalid, hended, show ¬ s.cfg.nctx ≤ ctx by omega]

theorem cipherFinalRule_of_active {ctx : Nat} {s : State} (hctx : ctx < s.cfg.nctx) (hvalid : (s.slot ctx).valid = true)
    (hended : (s.slot ctx).ended = false) (x : Args) : cipherFinalRule ctx s x =
      match cipherFinalOut s (s.slot ctx) x with
      | .error code => .raise code (s.setSlot ctx { s.slot ctx with ended := true })
      | .ok o => .ok (s.setSlot ctx (finalSlot (s.slot ctx) o)) (dstAddr x) o.y 0 := by
  dsimp only [cipherFinalRule]
  rw [if_neg (by omega), if_neg (by simp [hvalid]), if_neg (by simp [hended])]
  cases cipherFinalOut s (s.slot ctx) x <;> rfl

/-- Checks (1) and (2) of CIPHER_FINAL (spec/40_cipher.md R85). -/
theorem cipherFinalRule_of_not_found {ctx : Nat} {s : State} (h : ¬ (ctx < s.cfg.nctx ∧ (s.slot ctx).valid = true))
    (x : Args) : cipherFinalRule ctx s x = .raise .invalidParameters s := by
  simp only [cipherFinalRule]
  split
  · rfl
  · rw [if_pos]
    simp_all

/-- Settles O24: past checks (1) and (2) an ended slot is left as it is, and for another `cipherFinalOut_eq` says the
rest. -/
theorem cipherFinalEndsContext : Obligations.CipherFinalEndsContext := by
  refine ⟨fun ctx h => decode_opcode_selector (i := .cipherFinal ctx) h, fun ctx s p hp => ?_⟩
  intro x c t last found content ended finished
  have hfound (h : ctx < s.cfg.nctx ∧ c.valid = true) : firstFailing found = none := by
    simp [firstFailing, found, h]
  have hlost (h : ¬ (ctx < s.cfg.nctx ∧ c.valid = true)) : firstFailing found = some .invalidParameters := by
    by_cases hctx : ctx < s.cfg.nctx <;> simp_all [firstFailing, found]
  split <;> rename_i hended
  · refine runs_of_rule (ok := .ok s 0 [] 0) (fail := fun code => .raise code s) hp (fun hnone => ?_) (fun code hsome => ?_)
    · have hin := not_imp_comm.mp hlost (by simp [hnone])
      exact cipherFinalRule_of_ended hin.1 hin.2 hended x
    · have hout := not_imp_not.mpr hfound (by simp [hsome])
      obtain rfl : Code.invalidParameters = code := by simpa [hlost hout] using hsome
      exact cipherFinalRule_of_not_found hout x
  · have hactive : c.ended = false := by simpa using hended
    have hout : cipherFinalOut s c x = runChecks content >>= fun _ => .ok (lastBlock t c) := cipherFinalOut_eq s c x
    refine runs_of_rule (ok := .ok (s.setSlot ctx finished) (dstAddr x) last.1 0)
      (fail := fun code => .raise code (if ctx < s.cfg.nctx ∧ c.valid then ended else s)) hp (fun hnone => ?_)
      (fun code hsome => ?_)
    · obtain ⟨hf, hc⟩ := Option.or_eq_none_iff.mp (firstFailing_append found content ▸ hnone)
      have hin := not_imp_comm.mp hlost (by simp [hf])
      rw [runChecks_of_none hc] at hout
      exact (cipherFinalRule_of_active hin.1 hin.2 hactive x).trans (by rw [hout]; rfl)
    · by_cases hin : ctx < s.cfg.nctx ∧ c.valid = true
      · rw [firstFailing_append, hfound hin, Option.none_or] at hsome
        rw [runChecks_of_some hsome] at hout
        rw [if_pos hin]
        exact (cipherFinalRule_of_active hin.1 hin.2 hactive x).trans (by rw [hout]; rfl)
      · obtain rfl : Code.invalidParameters = code := by simpa [firstFailing_append, hlost hin] using hsome
        rw [if_neg hin]
        exact cipherFinalRule_of_not_found hin x

/-! ## The context state machine (spec/40_cipher.md R88, R89) -/

theorem complete_slot (p : Pending) (r : CmdResult) (i : Nat) : (complete p r).slot i = r.state.slot i := by
  simp [State.slot]

/-- What CIPHER_INIT alone decides about a context: it is valid, with this DIR, MODE, ALG, BS and PAD (R88). -/
def Slot.SameSetup (d c : Slot) : Prop :=
  d.valid = c.valid ∧ d.dir = c.dir ∧ d.mode = c.mode ∧ d.alg = c.alg ∧ d.bs = c.bs ∧ d.pad = c.pad

theorem Slot.SameSetup.refl (c : Slot) : c.SameSetup c := ⟨rfl, rfl, rfl, rfl, rfl, rfl⟩

/-- The commands that work on a context that stands: they check that it is valid, and only move it on. -/
def contextCommands (ctx : Nat) : List Instr := [.cipherUpdate ctx, .cipherFinal ctx, .cipherReadiv ctx]

/-- On an invalid context they raise InvalidParameters at check (2). -/
theorem contextRule_of_invalid {ctx : Nat} {i : Instr} (hi : i ∈ contextCommands ctx) {s : State}
    (hctx : ctx < s.cfg.nctx) (h : (s.slot ctx).valid = false) (x : Args) :
    ruleOf i s x = .raise .invalidParameters s := by
  simp only [contextCommands, List.mem_cons, List.not_mem_nil, or_false] at hi
  rcases hi with rfl | rfl | rfl
  · exact cipherUpdateRule_of_error (by simp [cipherUpdateChecks_eq, hctx, h])
  · exact cipherFinalRule_of_not_found (by simp [h]) x
  · simp [ruleOf, cipherReadivRule_eq, hctx, h, emit]

theorem contextRule_sameSetup {ctx : Nat} {i : Instr} (hi : i ∈ contextCommands ctx) {s : State}
    (hctx : ctx < s.slots.length) (x : Args) : ((ruleOf i s x).state.slot ctx).SameSetup (s.slot ctx) := by
  have hset (c : Slot) (h : c.SameSetup (s.slot ctx)) : ((s.setSlot ctx c).slot ctx).SameSetup (s.slot ctx) :=
    (s.slot_setSlot_same ctx c hctx).symm ▸ h
  have hsame := Slot.SameSetup.refl (s.slot ctx)
  simp only [contextCommands, List.mem_cons, List.not_mem_nil, or_false] at hi
  rcases hi with rfl | rfl | rfl
  · rcases cipherUpdateRule_cases ctx s x with ⟨_, h⟩ | ⟨-, h⟩ <;> rw [ruleOf, h]
    · exact hsame
    · exact hset _ hsame
  · rcases cipherFinalRule_cases ctx s x with ⟨_, h⟩ | h | ⟨-, ⟨_, h⟩ | ⟨_, -, h⟩⟩ <;> rw [ruleOf, h]
    · exact hsame
    · exact hsame
    · exact hset _ hsame
    · exact hset _ hsame
  · exact (emit_state s x _).symm ▸ hsame

/-- A CIPHER_INIT that fails does not end with OK. -/
theorem cipherInitSlot_error_ne_ok {s : State} {x : Args} {code : Code} (h : cipherInitSlot s x = .error code) :
    code ≠ .ok := by
  rw [cipherInitSlot_eq, except_bind_eq_error] at h
  rcases h with h | ⟨_, -, h⟩
  · have hmem := mem_of_runChecks_error h
    rintro rfl
    simp [initChecks] at hmem
  · cases h

theorem cipherInitSlot_active {s : State} {x : Args} {c : Slot} (h : cipherInitSlot s x = .ok c) :
    c.valid = true ∧ c.ended = false := by
  obtain ⟨mode, t, iv, ts, -, -, -, -, rfl⟩ := cipherInitSlot_of_ok h
  exact ⟨rfl, rfl⟩

/-- CIPHER_INIT leaves an active context after OK and a cleared slot otherwise. -/
theorem cipherInitRule_context {ctx : Nat} {s : State} (hctx : ctx < s.cfg.nctx) (hslots : ctx < s.slots.length)
    (p : Pending) :
    let t := complete p (cipherInitRule ctx s p.args)
    (t.lastCode = .ok → (t.slot ctx).valid = true ∧ (t.slot ctx).ended = false) ∧
    (t.lastCode ≠ .ok → t.slot ctx = Slot.cleared) := by
  have hset (c : Slot) : (s.latchBackend.setSlot ctx c).slot ctx = c :=
    State.slot_setSlot_same _ ctx c (by simpa using hslots)
  rw [cipherInitRule_of_lt hctx]
  cases h : cipherInitSlot s p.args with
  | ok c => simpa [complete_slot, hset] using cipherInitSlot_active h
  | error code => simp [complete_slot, hset, cipherInitSlot_error_ne_ok h]

/-- CIPHER_UPDATE keeps an active context active, and leaves an ended one as it is. -/
theorem cipherUpdateRule_context {ctx : Nat} {s : State} (hctx : ctx < s.cfg.nctx) (hslots : ctx < s.slots.length)
    (hvalid : (s.slot ctx).valid = true) (x : Args) :
    ((s.slot ctx).ended = false → ((cipherUpdateRule ctx s x).state.slot ctx).ended = false) ∧
    ((s.slot ctx).ended = true → cipherUpdateRule ctx s x = .raise .invalidParameters s) := by
  refine ⟨fun hactive => ?_, fun hended => ?_⟩
  · rcases cipherUpdateRule_cases ctx s x with ⟨_, h⟩ | ⟨-, h⟩ <;> rw [h]
    · exact hactive
    · rw [CmdResult.state_ok, State.slot_setSlot_same _ _ _ hslots]
      exact hactive
  · exact cipherUpdateRule_of_error (by simp [cipherUpdateChecks_eq, hctx, hvalid, hended])

/-- CIPHER_FINAL ends a valid context, whatever its outcome. -/
theorem cipherFinalRule_ended {ctx : Nat} {s : State} (hctx : ctx < s.cfg.nctx) (hslots : ctx < s.slots.length)
    (hvalid : (s.slot ctx).valid = true) (x : Args) : ((cipherFinalRule ctx s x).state.slot ctx).ended = true := by
  cases hended : (s.slot ctx).ended with
  | true => simpa [cipherFinalRule_of_ended hctx hvalid hended] using hended
  | false =>
    rw [cipherFinalRule_of_active hctx hvalid hended]
    cases cipherFinalOut s (s.slot ctx) x <;> simp [State.slot_setSlot_same _ _ _ hslots, finalSlot]

/-- Settles O26: each cell of the table, from what the command's rule does to its slot. -/
theorem contextStateMachine : Obligations.ContextStateMachine := by
  intro ctx s t hs hctx c d
  have hslots : ctx < s.slots.length := hs.slotCount ▸ hctx
  refine ⟨fun h => ?init, fun h => ?release, fun i hi h => ?context, fun h hvalid => ?update, fun h hvalid => ?final,
    fun h => ?readiv⟩ <;> obtain ⟨p, hp, rfl⟩ := exec_next h <;> have hd : d = _ := complete_slot p _ ctx
  case init => exact cipherInitRule_context hctx hslots p
  case release => simp [hd, ruleOf, cipherReleaseRule_eq, hctx, update, State.slot_setSlot_same _ _ _ hslots]
  case context =>
    refine ⟨fun hinvalid => ?_, ?_⟩
    · simp [hd, c, contextRule_of_invalid hi hctx hinvalid]
    · rw [hd]
      exact contextRule_sameSetup hi hslots p.args
  case update =>
    obtain ⟨hactive, hended⟩ := cipherUpdateRule_context hctx hslots hvalid p.args
    refine ⟨fun h => ?_, fun h => ?_⟩
    · rw [hd]
      exact hactive h
    · simp [hd, c, ruleOf, hended h]
  case final =>
    refine ⟨?_, fun hended => ?_⟩
    · rw [hd]
      exact cipherFinalRule_ended hctx hslots hvalid p.args
    · simp [hd, c, ruleOf, cipherFinalRule_of_ended hctx hvalid hended]
  case readiv => exact hd.trans (congrArg (State.slot · ctx) (emit_state s p.args _))

end Sys2Proof.Machine
end

section
/-! Two changes of the state that a command does not see: another backend latch (spec/40_cipher.md R75), and CTR slots in
the place of GCM slots (R79). -/

namespace Sys2Proof.Machine
open Sys2Proof.Spec

/-! ## A change of state under the shapes of a rule's end -/

/-- A rule's end, with the change `f` made to the state it ends in. -/
def CmdResult.mapState (f : State → State) : CmdResult → CmdResult
  | .ok s dst out res => .ok (f s) dst out res
  | .raise code s => .raise code (f s)

variable {s : State} {f : State → State}

theorem emit_mapState (x : Args) (r : Except Code (List Byte)) : emit (f s) x r = (emit s x r).mapState f := by
  cases r <;> rfl

theorem report_mapState (r : Except Code Word) : report (f s) r = (report s r).mapState f := by
  cases r <;> rfl

theorem emitDrawn_mapState (hf : ∀ e, { f s with entropy := e } = f { s with entropy := e }) (x : Args)
    (r : Except Code (List Byte × Entropy)) : emitDrawn (f s) x r = (emitDrawn s x r).mapState f := by
  rcases r with code | ⟨out, e⟩
  · rfl
  · exact congrArg (CmdResult.ok · (dstAddr x) out 0) (hf e)

/-- A check before an update sees nothing of the change: it is enough that what follows does not. -/
theorem update_bind_mapState {α : Type} (check : Except Code α) {k k' : α → Except Code State}
    (h : ∀ a, update (f s) (k' a) = (update s (k a)).mapState f) :
    update (f s) (check >>= k') = (update s (check >>= k)).mapState f := by
  cases check with
  | ok a => exact h a
  | error code => rfl

/-- A check that ends the rule at once sees nothing of the change, when neither way on does. -/
theorem ite_mapState (c : Prop) [Decidable c] {a b a' b' : CmdResult} (ha : a' = a.mapState f)
    (hb : b' = b.mapState f) : (if c then a' else b') = (if c then a else b).mapState f := by
  split <;> assumption

end Sys2Proof.Machine
end

section
/-! The backend latch never changes a result (spec/40_cipher.md R75). -/

namespace Sys2Proof.Machine
open Sys2Proof.Spec

/-- `s` with another backend latch. -/
def State.withBackend (b : Backend) (s : State) : State := { s with backend := b }

theorem complete_withBackend (p : Pending) (r : CmdResult) (b : Backend) :
    complete p (r.mapState (State.withBackend b)) = (complete p r).withBackend b := by
  cases r <;> rfl

/-- CIPHER_INIT sees the latch in nothing but the latch it leaves. -/
theorem cipherInitRule_withBackend (ctx : Nat) (s : State) (b : Backend) (x : Args) :
    ∃ b', cipherInitRule ctx (s.withBackend b) x = (cipherInitRule ctx s x).mapState (State.withBackend b') := by
  have hcfg : (s.withBackend b).cfg = s.cfg := rfl
  by_cases hctx : ctx < s.cfg.nctx
  · have hslot : cipherInitSlot (s.withBackend b) x = cipherInitSlot s x := rfl
    refine ⟨selected (s.withBackend b), ?_⟩
    rw [cipherInitRule_of_lt (hcfg ▸ hctx), cipherInitRule_of_lt hctx, hslot, State.latchBackend_eq,
      State.latchBackend_eq]
    cases cipherInitSlot s x <;> rfl
  · refine ⟨b, ?_⟩
    rw [cipherInitRule_of_ge (hcfg ▸ Nat.le_of_not_lt hctx), cipherInitRule_of_ge (Nat.le_of_not_lt hctx)]
    rfl

theorem cipherUpdateRule_withBackend (ctx : Nat) (s : State) (b : Backend) (x : Args) :
    cipherUpdateRule ctx (s.withBackend b) x = (cipherUpdateRule ctx s x).mapState (State.withBackend b) := by
  have hchecks : cipherUpdateChecks ctx (s.withBackend b) x = cipherUpdateChecks ctx s x := rfl
  unfold cipherUpdateRule
  rw [hchecks]
  cases cipherUpdateChecks ctx s x <;> rfl

theorem cipherFinalRule_withBackend (ctx : Nat) (s : State) (b : Backend) (x : Args) :
    cipherFinalRule ctx (s.withBackend b) x = (cipherFinalRule ctx s x).mapState (State.withBackend b) := by
  refine ite_mapState _ rfl (ite_mapState _ rfl (ite_mapState _ rfl ?_))
  have hout : cipherFinalOut (s.withBackend b) (s.slot ctx) x = cipherFinalOut s (s.slot ctx) x := rfl
  rw [show (s.withBackend b).slot ctx = s.slot ctx from rfl, hout]
  cases cipherFinalOut s (s.slot ctx) x <;> rfl

theorem ecSetcurveRule_withBackend (s : State) (b : Backend) (x : Args) :
    ecSetcurveRule (s.withBackend b) x = (ecSetcurveRule s x).mapState (State.withBackend b) := by
  unfold ecSetcurveRule
  rw [show (s.withBackend b).cfg = s.cfg from rfl]
  cases lookupCurve s.cfg (argVal x) <;> rfl

theorem ecPtDecodeRule_withBackend (s : State) (b : Backend) (x : Args) :
    ecPtDecodeRule (s.withBackend b) x = (ecPtDecodeRule s x).mapState (State.withBackend b) := by
  refine update_bind_mapState _ fun _ => update_bind_mapState _ fun e => ?_
  rw [show srcBytes (s.withBackend b) x = srcBytes s x from rfl]
  cases decodePoint e (srcBytes s x) <;> rfl

/-- Every command but CIPHER_INIT keeps the latch and sees nothing of it. -/
theorem ruleOf_withBackend {i : Instr} (hi : ∀ ctx, i ≠ .cipherInit ctx) (s : State) (b : Backend) (x : Args) :
    ruleOf i (s.withBackend b) x = (ruleOf i s x).mapState (State.withBackend b) := by
  have hdraw (e : Entropy) : { s.withBackend b with entropy := e } = State.withBackend b { s with entropy := e } := rfl
  cases i with
  | cipherInit ctx => exact absurd rfl (hi ctx)
  | cipherUpdate ctx => exact cipherUpdateRule_withBackend ctx s b x
  | cipherFinal ctx => exact cipherFinalRule_withBackend ctx s b x
  | cipherRelease ctx => exact update_bind_mapState _ fun _ => rfl
  | cipherReadiv ctx => exact emit_mapState x _
  | rsaLoadcomp =>
    exact update_bind_mapState _ fun _ => update_bind_mapState _ fun _ => update_bind_mapState _ fun _ => rfl
  | rsaClearkey => rfl
  | rsaPublic => exact emit_mapState x _
  | rsaPrivate => exact emit_mapState x _
  | rsaPad1 => exact emit_mapState x _
  | rsaPad2 => exact emitDrawn_mapState hdraw x _
  | rsaUnpad => exact emit_mapState x _
  | rsaPubenc pad => exact ite_mapState _ rfl (ite_mapState _ (emit_mapState x _) (emitDrawn_mapState hdraw x _))
  | rsaPrivdec pad => exact ite_mapState _ rfl (ite_mapState _ (emit_mapState x _) (emit_mapState x _))
  | rsaPrivenc pad => exact ite_mapState _ rfl (ite_mapState _ (emit_mapState x _) (emit_mapState x _))
  | rsaPubdec pad => exact ite_mapState _ rfl (ite_mapState _ (emit_mapState x _) (emit_mapState x _))
  | rsaCheckkey => exact report_mapState _
  | ecLoadcomp =>
    exact update_bind_mapState _ fun _ => update_bind_mapState _ fun _ => update_bind_mapState _ fun _ => rfl
  | ecSetcurve => exact ecSetcurveRule_withBackend s b x
  | ecSetform form => exact update_bind_mapState _ fun _ => rfl
  | ecCleargroup => rfl
  | ecCheckgroup => exact report_mapState _
  | ecPtSetxy =>
    exact update_bind_mapState _ fun _ => update_bind_mapState _ fun _ => update_bind_mapState _ fun _ =>
      update_bind_mapState _ fun _ => update_bind_mapState _ fun _ => rfl
  | ecPtSetinf => exact update_bind_mapState _ fun _ => rfl
  | ecPtCheck => exact report_mapState _
  | ecPtEncode => exact emit_mapState x _
  | ecPtDecode => exact ecPtDecodeRule_withBackend s b x

/-- The rule of any command, with another latch before it, ends as it does otherwise, but for the latch. -/
theorem exists_ruleOf_withBackend (i : Instr) (s : State) (b : Backend) (x : Args) :
    ∃ b', ruleOf i (s.withBackend b) x = (ruleOf i s x).mapState (State.withBackend b') := by
  by_cases hi : ∃ ctx, i = .cipherInit ctx
  · obtain ⟨ctx, rfl⟩ := hi
    exact cipherInitRule_withBackend ctx s b x
  · exact ⟨b, ruleOf_withBackend (not_exists.mp hi) s b x⟩

/-- Settles O13: a rule's end differs in the latch alone, and completion carries the latch over. -/
theorem backendNeverChangesResults : Obligations.BackendNeverChangesResults := by
  intro i s t b h
  obtain ⟨p, hp, rfl⟩ := exec_next h
  obtain ⟨b', hrule⟩ := exists_ruleOf_withBackend i s b p.args
  have hrun := exec_pending i (s := s.withBackend b) hp
  rw [hrule, complete_withBackend] at hrun
  exact ⟨b', hrun⟩

end Sys2Proof.Machine
end

section
/-! MODE 6 behaves as MODE 5 (spec/40_cipher.md R79). -/

namespace Sys2Proof.Machine
open Sys2Proof.Spec

/-! ## A GCM slot read as a CTR slot -/

/-- The slot with MODE 6 read as MODE 5. -/
def Slot.asCtr (c : Slot) : Slot := if c.mode = .gcm then { c with mode := .ctr } else c

/-- MODE 6 read as MODE 5. -/
def Mode.asCtr (m : Mode) : Mode := if m = .gcm then .ctr else m

/-- Only MODE changes. -/
theorem Slot.asCtr_eq (c : Slot) : c.asCtr = { c with mode := c.mode.asCtr } := by
  unfold Slot.asCtr Mode.asCtr
  split <;> rfl

@[simp] theorem Mode.asCtr_blockStyle (m : Mode) : m.asCtr.blockStyle = m.blockStyle := by cases m <;> rfl

theorem blockStep_asCtr (t : Descriptor) (m : Mode) : blockStep t m.asCtr = blockStep t m := by cases m <;> rfl

theorem runBlocks_asCtr (t : Descriptor) (m : Mode) (dir : Bool) (bs n : Nat) (r ts data : List Byte) :
    runBlocks t m.asCtr dir bs n r ts data = runBlocks t m dir bs n r ts data := by
  induction n generalizing r ts data with
  | zero => rfl
  | succ n ih => simp only [runBlocks, blockStep_asCtr, ih]

theorem updateRun_asCtr (cfg : Config) (c : Slot) (input : List Byte) :
    updateRun cfg c.asCtr input = updateRun cfg c input := by
  rw [Slot.asCtr_eq]
  exact runBlocks_asCtr ..

theorem updateSlot_asCtr (cfg : Config) (c : Slot) (input : List Byte) :
    updateSlot cfg c.asCtr input = (updateSlot cfg c input).asCtr := by
  rw [updateSlot, updateRun_asCtr, Slot.asCtr_eq, Slot.asCtr_eq]
  rfl

theorem finalPartial_asCtr (t : Descriptor) (c : Slot) : finalPartial t c.asCtr = finalPartial t c := by
  rw [Slot.asCtr_eq]
  simp only [finalPartial, Mode.asCtr_blockStyle]
  cases c.mode <;> rfl

theorem finalOutput_asCtr (t : Descriptor) (c : Slot) : finalOutput t c.asCtr = finalOutput t c := by
  have hpartial := finalPartial_asCtr t c
  rw [Slot.asCtr_eq] at hpartial ⊢
  simp only [finalOutput, finalUnpad, blockStep_asCtr, hpartial, padBlock]

theorem finalSlot_asCtr (c : Slot) (o : BlockOut) : finalSlot c.asCtr o = (finalSlot c o).asCtr := by
  rw [Slot.asCtr_eq, Slot.asCtr_eq]
  rfl

theorem Slot.asCtr_setEnded (c : Slot) (e : Bool) : { c.asCtr with ended := e } = Slot.asCtr { c with ended := e } := by
  rw [Slot.asCtr_eq, Slot.asCtr_eq]

/-! ## A state with its GCM slots read as CTR slots -/

theorem asCtr_slot (s : State) (i : Nat) : (asCtr s).slot i = (s.slot i).asCtr := by
  simp only [State.slot, asCtr, List.getD_eq_getElem?_getD, List.getElem?_map]
  cases s.slots[i]? <;> rfl

theorem asCtr_setSlot (s : State) (i : Nat) (c : Slot) : asCtr (s.setSlot i c) = (asCtr s).setSlot i c.asCtr := by
  simp [asCtr, State.setSlot, List.map_set, Slot.asCtr]

theorem asCtr_latchBackend (s : State) : asCtr s.latchBackend = (asCtr s).latchBackend := by
  simp only [State.latchBackend_eq]
  rfl

theorem complete_asCtr (p : Pending) (r : CmdResult) : complete p (r.mapState asCtr) = asCtr (complete p r) := by
  cases r <;> rfl

/-! ## The four commands on a context that stands -/

theorem cipherUpdateRule_asCtr (ctx : Nat) (s : State) (x : Args) :
    cipherUpdateRule ctx (asCtr s) x = (cipherUpdateRule ctx s x).mapState asCtr := by
  have hchecks : cipherUpdateChecks ctx (asCtr s) x = cipherUpdateChecks ctx s x := by
    rw [cipherUpdateChecks_eq, cipherUpdateChecks_eq, asCtr_slot, Slot.asCtr_eq]
    rfl
  unfold cipherUpdateRule
  rw [hchecks]
  cases cipherUpdateChecks ctx s x with
  | error code => rfl
  | ok u =>
    simp only [asCtr_slot, updateSlot_asCtr, updateRun_asCtr, CmdResult.mapState, asCtr_setSlot]
    rfl

theorem cipherFinalOut_asCtr (s : State) (c : Slot) (x : Args) :
    cipherFinalOut (asCtr s) c.asCtr x = cipherFinalOut s c x := by
  have ht : slotTransform (asCtr s).cfg c.asCtr = slotTransform s.cfg c := by
    rw [Slot.asCtr_eq]
    rfl
  simp only [cipherFinalOut, ht, finalOutput_asCtr]
  rfl

theorem cipherFinalRule_asCtr (ctx : Nat) (s : State) (x : Args) :
    cipherFinalRule ctx (asCtr s) x = (cipherFinalRule ctx s x).mapState asCtr := by
  have hvalid : ((asCtr s).slot ctx).valid = (s.slot ctx).valid := by rw [asCtr_slot, Slot.asCtr_eq]
  have hended : ((asCtr s).slot ctx).ended = (s.slot ctx).ended := by rw [asCtr_slot, Slot.asCtr_eq]
  by_cases hin : ctx < s.cfg.nctx ∧ (s.slot ctx).valid = true
  · obtain ⟨hctx, hv⟩ := hin
    cases he : (s.slot ctx).ended with
    | true =>
      rw [cipherFinalRule_of_ended (s := asCtr s) hctx (hvalid.trans hv) (hended.trans he),
        cipherFinalRule_of_ended hctx hv he]
      rfl
    | false =>
      rw [cipherFinalRule_of_active (s := asCtr s) hctx (hvalid.trans hv) (hended.trans he),
        cipherFinalRule_of_active hctx hv he, asCtr_slot, cipherFinalOut_asCtr]
      cases cipherFinalOut s (s.slot ctx) x <;>
        simp only [CmdResult.mapState, asCtr_setSlot, finalSlot_asCtr, Slot.asCtr_setEnded]
  · rw [cipherFinalRule_of_not_found hin, cipherFinalRule_of_not_found (hvalid ▸ hin)]
    rfl

theorem cipherReleaseRule_asCtr (ctx : Nat) (s : State) (x : Args) :
    cipherReleaseRule ctx (asCtr s) x = (cipherReleaseRule ctx s x).mapState asCtr :=
  update_bind_mapState _ fun _ => congrArg (CmdResult.ok · 0 [] 0) (asCtr_setSlot s ctx Slot.cleared).symm

theorem cipherReadivRule_asCtr (ctx : Nat) (s : State) (x : Args) :
    cipherReadivRule ctx (asCtr s) x = (cipherReadivRule ctx s x).mapState asCtr := by
  rw [cipherReadivRule_eq, cipherReadivRule_eq, asCtr_slot, Slot.asCtr_eq]
  exact emit_mapState x _

/-! ## CIPHER_INIT with MODE 6 and with MODE 5 -/

/-- A CFG word with MODE 5 in the place of MODE 6: no other field changes. -/
theorem cfg_mode5 {w : Word} (h : w.extractLsb' 8 4 = 6) :
    (w - 0x100).extractLsb' 8 4 = 5 ∧ (w - 0x100).extractLsb' 0 8 = w.extractLsb' 0 8 ∧
    (w - 0x100).extractLsb' 14 18 = w.extractLsb' 14 18 ∧
    (w - 0x100).getLsbD 12 = w.getLsbD 12 ∧ (w - 0x100).getLsbD 13 = w.getLsbD 13 := by
  have h6 : w.toNat / 256 % 16 = 6 := by
    simpa [BitVec.extractLsb'_toNat, Nat.shiftRight_eq_div_pow] using congrArg BitVec.toNat h
  have h5 : (5 : BitVec 4).toNat = 5 := rfl
  have hlt := w.isLt
  have hsub : (w - 0x100).toNat = w.toNat - 0x100 := by
    rw [BitVec.toNat_sub]
    simp
    omega
  refine ⟨BitVec.eq_of_toNat_eq ?_, BitVec.eq_of_toNat_eq ?_, BitVec.eq_of_toNat_eq ?_, ?_, ?_⟩ <;>
    simp only [BitVec.extractLsb'_toNat, Nat.shiftRight_eq_div_pow, BitVec.getLsbD, Nat.testBit_eq_decide_div_mod_eq, hsub,
      h5, decide_eq_decide] <;> omega

/-- The ARG snapshot with MODE 5 in the place of MODE 6. -/
def argsMode5 (x : Args) : Args := x.set 4 (x[4] - 0x100)

theorem srcAddr_argsMode5 (x : Args) : srcAddr (argsMode5 x) = srcAddr x := by simp [srcAddr, argsMode5]

theorem srcLen_argsMode5 (x : Args) : srcLen (argsMode5 x) = srcLen x := by simp [srcLen, argsMode5]

theorem src2Addr_argsMode5 (x : Args) : src2Addr (argsMode5 x) = src2Addr x := by simp [src2Addr, argsMode5]

/-- What CIPHER_INIT sets up in MODE 6, read as CTR, is what it sets up in MODE 5. -/
theorem cipherInitSlot_mode5 {x : Args} (h : cfgMode x = 6) (s : State) :
    cipherInitSlot s (argsMode5 x) = (cipherInitSlot s x).map Slot.asCtr := by
  obtain ⟨hmode, halg, hres, hdir, hpad⟩ := cfg_mode5 h
  have hmode : cfgMode (argsMode5 x) = 5 := by simpa [cfgMode, argsMode5] using hmode
  have halg : cfgAlg (argsMode5 x) = cfgAlg x := by simpa [cfgAlg, argsMode5] using halg
  have hres : cfgReserved (argsMode5 x) = cfgReserved x := by simpa [cfgReserved, argsMode5] using hres
  have hdir : cfgDir (argsMode5 x) = cfgDir x := by simpa [cfgDir, argsMode5] using hdir
  have hpad : cfgPadEn (argsMode5 x) = cfgPadEn x := by simpa [cfgPadEn, argsMode5] using hpad
  have hiv (t : Descriptor) : initIv s (argsMode5 x) t = initIv s x t := by simp [initIv, hmode, h, src2Addr_argsMode5]
  have hchecks (mapped : Option Descriptor) (t : Descriptor) :
      initChecks s (argsMode5 x) mapped t = initChecks s x mapped t := by
    simp [initChecks, hiv, hmode, h, hres, srcOk, srcBytes, srcAddr_argsMode5, srcLen_argsMode5, src2Addr_argsMode5]
  have hslot (t : Descriptor) (iv ts : List Byte) :
      initSlot (argsMode5 x) .ctr t iv ts = (initSlot x .gcm t iv ts).asCtr := by
    simp [initSlot, Slot.asCtr, halg, hdir, effectivePad, Mode.blockStyle]
  have h5 : modeNamed (cfgMode (argsMode5 x)).toNat = .ctr := by rw [hmode]; rfl
  have h6 : modeNamed (cfgMode x).toNat = .gcm := by rw [h]; rfl
  have hne5 : (cfgMode (argsMode5 x)).toNat ≠ 0 := by rw [hmode]; decide
  have hne6 : (cfgMode x).toNat ≠ 0 := by rw [h]; decide
  simp only [cipherInitSlot_eq, halg, hchecks, hiv, h5, h6, hne5, hne6, if_false, hslot, srcBytes, srcAddr_argsMode5,
    srcLen_argsMode5]
  cases runChecks (initChecks s x _ _) <;> rfl

/-- `s` with its GCM slots read as CTR slots, and another command pending. -/
def asCtrPending (p : Pending) (s : State) : State := asCtr { s with pending := some p }

theorem complete_asCtrPending (p : Pending) (x : Args) (r : CmdResult) :
    complete { p with args := x } (r.mapState (asCtrPending { p with args := x })) = asCtr (complete p r) := by
  cases r <;> rfl

theorem asCtrPending_setSlot (p : Pending) (s : State) (i : Nat) (c : Slot) :
    asCtrPending p (s.latchBackend.setSlot i c) = (asCtrPending p s).latchBackend.setSlot i c.asCtr := by
  rw [asCtrPending, asCtrPending, ← asCtr_latchBackend, ← asCtr_setSlot, State.latchBackend_eq, State.latchBackend_eq]
  rfl

theorem cipherInitRule_mode5 {x : Args} (h : cfgMode x = 6) (ctx : Nat) (s : State) (p : Pending) :
    cipherInitRule ctx (asCtrPending p s) (argsMode5 x) = (cipherInitRule ctx s x).mapState (asCtrPending p) := by
  have hcfg : (asCtrPending p s).cfg = s.cfg := rfl
  by_cases hctx : ctx < s.cfg.nctx
  · have hslot : cipherInitSlot (asCtrPending p s) (argsMode5 x) = (cipherInitSlot s x).map Slot.asCtr :=
      cipherInitSlot_mode5 h s
    have hcleared : Slot.cleared = Slot.cleared.asCtr := rfl
    rw [cipherInitRule_of_lt (hcfg ▸ hctx), cipherInitRule_of_lt hctx, hslot]
    cases cipherInitSlot s x with
    | ok c => simp only [Except.map, CmdResult.mapState, asCtrPending_setSlot]
    | error code => simp only [Except.map, CmdResult.mapState, asCtrPending_setSlot, ← hcleared]
  · rw [cipherInitRule_of_ge (hcfg ▸ Nat.le_of_not_lt hctx), cipherInitRule_of_ge (Nat.le_of_not_lt hctx)]
    rfl

/-- Settles O21: each rule commutes with reading the GCM slots as CTR slots, and so does completion. -/
theorem gcmBehavesAsCtr : Obligations.GcmBehavesAsCtr := by
  refine ⟨fun i ctx s t hi h => ?_, fun ctx s t p hp hmode h => ?_⟩
  · obtain ⟨p, hp, rfl⟩ := exec_next h
    have hrule : ruleOf i (asCtr s) p.args = (ruleOf i s p.args).mapState asCtr := by
      simp only [List.mem_cons, List.not_mem_nil, or_false] at hi
      rcases hi with rfl | rfl | rfl | rfl
      · exact cipherUpdateRule_asCtr ctx s p.args
      · exact cipherFinalRule_asCtr ctx s p.args
      · exact cipherReleaseRule_asCtr ctx s p.args
      · exact cipherReadivRule_asCtr ctx s p.args
    rw [exec_pending i (s := asCtr s) hp, hrule, complete_asCtr]
  · rw [exec_pending _ hp] at h
    cases h
    have hrun := exec_pending (.cipherInit ctx) (s := asCtrPending { p with args := argsMode5 p.args } s) rfl
    rw [ruleOf, cipherInitRule_mode5 hmode, complete_asCtrPending] at hrun
    exact hrun

end Sys2Proof.Machine
end

section
/-! A stream of CIPHER_UPDATEs and a CIPHER_FINAL: what they output depends only on the concatenated input
(spec/40_cipher.md R83, R84, R90 (c)). -/

namespace Sys2Proof.Machine
open Sys2Proof.Spec

/-! ## The code and the output of a rule, as the host sees them -/

/-- The status code a rule ends with. -/
def CmdResult.code : CmdResult → Code
  | .ok _ _ _ _ => .ok
  | .raise code _ => code

/-- The bytes a rule writes: none after an error. -/
def CmdResult.out : CmdResult → List Byte
  | .ok _ _ out _ => out
  | .raise _ _ => []

@[simp] theorem CmdResult.code_ok (s : State) (dst : Nat) (out : List Byte) (res : Word) :
    (CmdResult.ok s dst out res).code = .ok := rfl
@[simp] theorem CmdResult.code_raise (code : Code) (s : State) : (CmdResult.raise code s).code = code := rfl
@[simp] theorem CmdResult.out_ok (s : State) (dst : Nat) (out : List Byte) (res : Word) :
    (CmdResult.ok s dst out res).out = out := rfl
@[simp] theorem CmdResult.out_raise (code : Code) (s : State) : (CmdResult.raise code s).out = [] := rfl

@[simp] theorem complete_lastCode (p : Pending) (r : CmdResult) : (complete p r).lastCode = r.code := by cases r <;> rfl

/-- The BYTES_WRITTEN bytes at the destination are the rule's output. -/
theorem readBytes_complete {s : State} {p : Pending} {r : CmdResult} (hram : s.ram.wf s.cfg.dramSize = true)
    (h : r.WritesDst s p.args) :
    (complete p r).ram.readBytes (dstAddr p.args) (complete p r).bytesWritten.toNat = r.out := by
  cases r with
  | raise code t => rfl
  | ok t dst out res =>
    obtain ⟨ht, hout⟩ := h
    by_cases hnil : out = []
    · subst hnil
      rfl
    · obtain ⟨rfl, hdst, hlen⟩ := hout hnil
      have hcap : dstCap p.args < 2 ^ 32 := p.args[3].isLt
      rw [complete_ok_ram, complete_ok_bytesWritten, toNat_ofNat_of_lt (by omega), ht]
      exact Memory.readBytes_writeBytes hram out (dst_le hdst hlen)

/-- `s` with Data RAM `m` and the command `i` pending on the ARG registers `x`. -/
def State.given (s : State) (m : Memory) (i : Instr) (x : Args) : State :=
  { s with ram := m, pending := some ⟨encode i, x⟩ }

theorem State.Wf.given {s : State} (hs : s.Wf) {m : Memory} (hm : m.wf s.cfg.dramSize = true) (i : Instr) (x : Args) :
    (s.given m i x).Wf := { hs with ram := hm }

theorem exec_given (s : State) (m : Memory) (i : Instr) (x : Args) :
    exec i (s.given m i x) = .next (complete ⟨encode i, x⟩ (ruleOf i (s.given m i x) x)) := exec_pending i rfl

/-! ## Blocks of a longer input -/

/-- What an Update keeps of bytes that an Update kept before, with more after them. -/
theorem keep_add (c : Slot) (a b : Nat) : keep c (keep c a + b) = keep c (a + b) := by
  unfold keep
  split
  · by_cases ha : a = 0
    · simp [ha]
    · rw [if_neg ha, if_neg (by omega), if_neg (by omega), show (a - 1) % c.bs + 1 + b - 1 = (a - 1) % c.bs + b by omega,
        Nat.mod_add_mod, show a - 1 + b = a + b - 1 by omega]
  · rw [Nat.mod_add_mod]

/-- The blocks of a longer input come in two parts. -/
theorem updateBlocks_add {c : Slot} (h : 0 < c.bs) (a b : Nat) :
    updateBlocks c (a + b) = updateBlocks c a + updateBlocks c (keep c a + b) := by
  refine Nat.eq_of_mul_eq_mul_right h ?_
  rw [Nat.add_mul, updateBlocks_mul, updateBlocks_mul, updateBlocks_mul, keep_add]
  have ha := keep_le c a
  have hb := keep_le c (keep c a + b)
  rw [keep_add] at hb
  omega

/-- Blocks do not see what comes after them. -/
theorem runBlocks_append (t : Descriptor) (mode : Mode) (dir : Bool) {bs n : Nat} (r ts : List Byte) {data : List Byte}
    (h : n * bs ≤ data.length) (more : List Byte) :
    runBlocks t mode dir bs n r ts (data ++ more) = runBlocks t mode dir bs n r ts data := by
  induction n generalizing r ts data with
  | zero => rfl
  | succ n ih =>
    rw [Nat.succ_mul] at h
    simp only [runBlocks, List.take_append_of_le_length (show bs ≤ data.length by omega),
      List.drop_append_of_le_length (show bs ≤ data.length by omega)]
    rw [ih _ _ (by simp; omega)]

/-! ## A context in the middle of a stream -/

/-- The context `c` after some blocks: feedback register `r`, transform state `ts`, and the bytes `tail` buffered; as far as
it is observable. -/
def Slot.stand (c : Slot) (r ts tail : List Byte) : Slot :=
  { c with mod1 := overlay r c.mod1, ts := some ts, buf := tail, fill := tail.length }

/-- What a valid context's slot is like, in the terms the stream needs. -/
structure Slot.Ready (cfg : Config) (c : Slot) : Prop where
  block : c.bs = (slotTransform cfg c).bs
  pos   : 0 < c.bs
  mod1  : c.bs ≤ c.mod1.length
  buf   : c.fill ≤ c.buf.length
  ts    : c.ts.isSome = true
  fill  : keep c c.fill = c.fill

/-- What the buffer of a valid context can hold is what an Update without input would keep (spec/40_cipher.md R84). -/
theorem keep_of_le {c : Slot} {n : Nat} (h : n ≤ c.bs) (hfull : n = c.bs → c.pad = true ∧ c.dir = true) :
    keep c n = n := by
  unfold keep
  split
  · split
    · omega
    · rw [Nat.mod_eq_of_lt (by omega)]
      omega
  · refine Nat.mod_eq_of_lt (Nat.lt_of_le_of_ne h fun he => ?_)
    simp_all

theorem Slot.wf.ready {cfg : Config} {c : Slot} (h : c.wf cfg) (hl : cfg.legal) (hv : c.valid = true) : c.Ready cfg := by
  obtain ⟨hbs, hpos, hmax⟩ := h.block hl hv
  obtain ⟨⟨hbuf, hmod1, -⟩, -, hvalid⟩ := h
  obtain ⟨-, hts, -, hfill, hfull, -⟩ := hvalid hv
  exact ⟨hbs, hpos, by omega, by omega, hts, keep_of_le hfill hfull⟩

theorem observable_updateSlot (cfg : Config) (c : Slot) (input : List Byte) :
    observable (updateSlot cfg c input) =
      let data := updateData c input
      let o := updateRun cfg c input
      c.stand o.r o.ts (data.drop (updateBlocks c data.length * c.bs)) := by
  have hkeep := keep_le c (updateData c input).length
  have hlen : ((updateData c input).drop (updateBlocks c (updateData c input).length * c.bs)).length =
      keep c (updateData c input).length := by
    rw [updateBlocks_mul, List.length_drop]
    omega
  rw [updateSlot_eq]
  simp only [observable, Slot.stand, hlen, overlay]
  rw [List.take_left' (by simp; omega), updateBlocks_mul]

section Ready
variable {cfg : Config} {c : Slot} (h : c.Ready cfg)
include h

theorem Slot.Ready.length_updateData (input : List Byte) : (updateData c input).length = c.fill + input.length := by
  simp [updateData, h.buf]

/-- An Update without input processes no block. -/
theorem Slot.Ready.updateBlocks_nil : updateBlocks c (updateData c []).length = 0 := by
  simp [updateBlocks, h.length_updateData, h.fill]

theorem Slot.Ready.updateRun_nil : updateRun cfg c [] = ⟨[], c.mod1.take c.bs, c.ts.getD []⟩ := by
  simp [updateRun, h.updateBlocks_nil, runBlocks]

/-- A context stands where its registers say. -/
theorem Slot.Ready.observable_eq : observable c = c.stand (c.mod1.take c.bs) (c.ts.getD []) (c.buf.take c.fill) := by
  obtain ⟨ts, hts⟩ := Option.isSome_iff_exists.mp h.ts
  simp [observable, Slot.stand, overlay_take, hts, h.buf]

/-- An Update without input leaves the context as it is, as far as it is observable. -/
theorem Slot.Ready.updateSlot_nil : observable (updateSlot cfg c []) = observable c := by
  simp only [observable_updateSlot, h.observable_eq, h.updateRun_nil, h.updateBlocks_nil]
  simp [updateData]

theorem Slot.Ready.length_updateRun_r (input : List Byte) : (updateRun cfg c input).r.length = c.bs :=
  (updateRun_spec h.block h.mod1 input).2.1

/-- What the next Update starts from: the registers that the blocks before it left. -/
theorem Slot.Ready.updateSlot_mod1 (input : List Byte) :
    (updateSlot cfg c input).mod1.take c.bs = (updateRun cfg c input).r :=
  List.take_left' (h.length_updateRun_r input)

omit h in
/-- The bytes the next Update works on: those the Updates before it did not use, and its input. -/
theorem updateData_updateSlot (a b : List Byte) : updateData (updateSlot cfg c a) b =
    (updateData c a).drop (updateBlocks c (updateData c a).length * c.bs) ++ b :=
  congrArg (fun d : Slot => d.buf ++ b) (observable_updateSlot cfg c a)

omit h in
theorem updateData_append (a b : List Byte) : updateData c (a ++ b) = updateData c a ++ b := by simp [updateData]

/-- The whole blocks of two Updates. -/
theorem Slot.Ready.updateBlocks_append (a b : List Byte) : updateBlocks c (updateData c (a ++ b)).length =
    updateBlocks c (updateData c a).length + updateBlocks c (updateData (updateSlot cfg c a) b).length := by
  have hkeep := keep_le c (updateData c a).length
  rw [updateData_append, List.length_append, updateBlocks_add h.pos, updateData_updateSlot, List.length_append,
    List.length_drop, updateBlocks_mul, Nat.sub_sub_self hkeep]

omit h in
theorem updateBlocks_mul_le (c : Slot) (total : Nat) : updateBlocks c total * c.bs ≤ total := by
  rw [updateBlocks_mul]
  omega

/-- Two Updates run the blocks of one Update with both inputs. -/
theorem Slot.Ready.updateRun_append (a b : List Byte) :
    updateRun cfg c (a ++ b) =
      let first := updateRun cfg c a
      let second := updateRun cfg (updateSlot cfg c a) b
      ⟨first.y ++ second.y, second.r, second.ts⟩ := by
  have hfirst := updateBlocks_mul_le c (updateData c a).length
  have hsecond : updateRun cfg (updateSlot cfg c a) b =
      runBlocks (slotTransform cfg c) c.mode c.dir c.bs (updateBlocks c (updateData (updateSlot cfg c a) b).length)
        (updateRun cfg c a).r (updateRun cfg c a).ts (updateData (updateSlot cfg c a) b) := by
    rw [← h.updateSlot_mod1]
    rfl
  rw [hsecond, updateRun, h.updateBlocks_append, runBlocks_add, updateData_append, runBlocks_append _ _ _ _ _ hfirst,
    List.drop_append_of_le_length hfirst, updateData_updateSlot]
  rfl

omit h in
theorem overlay_overlay {a b : List Byte} (hab : a.length = b.length) (m : List Byte) :
    overlay a (overlay b m) = overlay a m := by
  simp [overlay, hab]

/-- Two Updates leave the context that one Update with both inputs leaves, as far as it is observable. -/
theorem Slot.Ready.updateSlot_append (a b : List Byte) :
    observable (updateSlot cfg c (a ++ b)) = observable (updateSlot cfg (updateSlot cfg c a) b) := by
  have hfirst := updateBlocks_mul_le c (updateData c a).length
  have hr : (updateRun cfg (updateSlot cfg c a) b).r.length = (updateRun cfg c a).r.length := by
    rw [h.length_updateRun_r a, ← h.length_updateRun_r (a ++ b), h.updateRun_append]
  have htail : (updateData c (a ++ b)).drop (updateBlocks c (updateData c (a ++ b)).length * c.bs) =
      (updateData (updateSlot cfg c a) b).drop
        (updateBlocks (updateSlot cfg c a) (updateData (updateSlot cfg c a) b).length * c.bs) := by
    rw [h.updateBlocks_append, Nat.add_mul, ← List.drop_drop, updateData_append,
      List.drop_append_of_le_length hfirst, ← updateData_updateSlot]
    rfl
  rw [observable_updateSlot, observable_updateSlot, h.updateRun_append]
  simp only [htail, Slot.stand]
  rw [← overlay_overlay hr c.mod1]
  rfl

end Ready

/-! ## A stream of Updates -/

/-- What a stream of Updates leaves of the context `c`: nothing happened; or `c` was active, and the output and the context
are those of one Update with the whole input. -/
def Fed (cfg : Config) (c : Slot) (input out : List Byte) (d : Slot) : Prop :=
  (input = [] ∧ out = [] ∧ d = c) ∨
  (c.valid = true ∧ c.ended = false ∧ out = (updateRun cfg c input).y ∧
    observable d = observable (updateSlot cfg c input))

theorem complete_cfg (p : Pending) (r : CmdResult) : (complete p r).cfg = r.state.cfg := by cases r <;> rfl

/-- An Update that completes OK passed its checks: the context was active. -/
theorem cipherUpdateRule_of_code_ok {ctx : Nat} {s : State} {x : Args} (h : (cipherUpdateRule ctx s x).code = .ok) :
    (s.slot ctx).valid = true ∧ (s.slot ctx).ended = false ∧
      cipherUpdateRule ctx s x = .ok (s.setSlot ctx (updateSlot s.cfg (s.slot ctx) (srcBytes s x))) (dstAddr x)
        (updateRun s.cfg (s.slot ctx) (srcBytes s x)).y 0 := by
  cases hchecks : cipherUpdateChecks ctx s x with
  | error code =>
    obtain rfl : code = .ok := by simpa [cipherUpdateRule_of_error hchecks] using h
    have hmem := mem_of_runChecks_error (cipherUpdateChecks_eq ctx s x ▸ hchecks)
    simp at hmem
  | ok u =>
    have hpass := hchecks
    simp only [cipherUpdateChecks, except_bind_eq_ok, require_eq_ok] at hpass
    obtain ⟨_, -, _, hvalid, _, hactive, -⟩ := hpass
    exact ⟨hvalid, by simpa using hactive, cipherUpdateRule_of_ok hchecks⟩

/-- One CIPHER_UPDATE of a stream that completes OK. -/
theorem update_spec {ctx : Nat} {s t : State} {m : Memory} {x : Args} (hs : s.Wf) (hctx : ctx < s.cfg.nctx)
    (hm : m.wf s.cfg.dramSize = true) (h : exec (.cipherUpdate ctx) (s.given m (.cipherUpdate ctx) x) = .next t)
    (hok : t.lastCode = .ok) :
    t.Wf ∧ t.cfg = s.cfg ∧ (s.slot ctx).valid = true ∧ (s.slot ctx).ended = false ∧
      let input := m.readBytes x[0].toNat x[1].toNat
      t.slot ctx = updateSlot s.cfg (s.slot ctx) input ∧
      t.ram.readBytes x[2].toNat t.bytesWritten.toNat = (updateRun s.cfg (s.slot ctx) input).y := by
  have hwf := hs.given hm (.cipherUpdate ctx) x
  rw [exec_given] at h
  cases h
  have hslots : ctx < (s.given m (.cipherUpdate ctx) x).slots.length := hwf.slotCount ▸ hctx
  have hsound := complete_wf ⟨encode (.cipherUpdate ctx), x⟩ (cipherUpdateRule_sound ctx hwf x)
  have hback := readBytes_complete (p := ⟨encode (.cipherUpdate ctx), x⟩) hm (cipherUpdateRule_writesDst ctx hwf x)
  obtain ⟨hvalid, hactive, hrule⟩ := cipherUpdateRule_of_code_ok (complete_lastCode _ _ ▸ hok)
  refine ⟨hsound, ?_, hvalid, hactive, ?_, ?_⟩
  · rw [complete_cfg, ruleOf, hrule]
    rfl
  · rw [complete_slot, ruleOf, hrule]
    exact State.slot_setSlot_same _ _ _ hslots
  · exact hback.trans (by rw [hrule]; rfl)

/-- The first Update of a stream, and the rest. -/
theorem feed_cons {ctx : Nat} {m : Memory} {x : Args} {rest : List (Memory × Args)} {s u : State} {input out : List Byte}
    (h : feed ctx s ((m, x) :: rest) = some (u, input, out)) :
    ∃ t i o, exec (.cipherUpdate ctx) (s.given m (.cipherUpdate ctx) x) = .next t ∧ t.lastCode = .ok ∧
      feed ctx t rest = some (u, i, o) ∧ input = m.readBytes x[0].toNat x[1].toNat ++ i ∧
      out = t.ram.readBytes x[2].toNat t.bytesWritten.toNat ++ o := by
  unfold feed at h
  split at h
  · rename_i t ht
    split at h
    · obtain ⟨⟨u', i, o⟩, hrest, hsome⟩ := Option.map_eq_some_iff.mp h
      cases hsome
      exact ⟨t, i, o, ht, ‹_›, hrest, rfl, rfl⟩
    · cases h
  · cases h

/-- A stream of Updates does to the context and outputs what one Update with the whole input does and outputs. -/
theorem feed_spec {ctx : Nat} {xs : List (Memory × Args)} {s u : State} {input out : List Byte} (hs : s.Wf)
    (hctx : ctx < s.cfg.nctx) (hxs : ∀ e ∈ xs, e.1.wf s.cfg.dramSize = true) (h : feed ctx s xs = some (u, input, out)) :
    u.Wf ∧ u.cfg = s.cfg ∧ Fed s.cfg (s.slot ctx) input out (u.slot ctx) := by
  induction xs generalizing s input out with
  | nil =>
    cases h
    exact ⟨hs, rfl, .inl ⟨rfl, rfl, rfl⟩⟩
  | cons e rest ih =>
    obtain ⟨m, x⟩ := e
    obtain ⟨hm, hrest⟩ := List.forall_mem_cons.mp hxs
    obtain ⟨t, i, o, ht, hok, hfeed, rfl, rfl⟩ := feed_cons h
    obtain ⟨htwf, hcfg, hvalid, hactive, hslot, hout⟩ := update_spec hs hctx hm ht hok
    obtain ⟨huwf, hucfg, hfed⟩ := ih htwf (hcfg ▸ hctx) (hcfg ▸ hrest) hfeed
    have hready := (hs.slot ctx).ready hs.legal hvalid
    rw [hcfg, hslot] at hfed
    rw [hout]
    refine ⟨huwf, hucfg.trans hcfg, .inr ⟨hvalid, hactive, ?_⟩⟩
    rcases hfed with ⟨rfl, rfl, hd⟩ | ⟨-, -, rfl, hd⟩
    · simp [hd]
    · rw [hready.updateRun_append, hready.updateSlot_append]
      exact ⟨rfl, hd⟩

theorem Fed.of_ready {cfg : Config} {c d : Slot} {input out : List Byte} (hc : c.Ready cfg) (h : Fed cfg c input out d) :
    out = (updateRun cfg c input).y ∧ observable d = observable (updateSlot cfg c input) := by
  rcases h with ⟨rfl, rfl, rfl⟩ | ⟨-, -, hout, hd⟩
  · simp [hc.updateRun_nil, hc.updateSlot_nil]
  · exact ⟨hout, hd⟩

/-- Two streams with the same input end alike. -/
theorem Fed.unique {cfg : Config} {c d d' : Slot} {input out out' : List Byte} (hl : cfg.legal) (hc : c.wf cfg)
    (h : Fed cfg c input out d) (h' : Fed cfg c input out' d') : out = out' ∧ observable d = observable d' := by
  cases hv : c.valid with
  | true =>
    obtain ⟨ho, hd⟩ := h.of_ready (hc.ready hl hv)
    obtain ⟨ho', hd'⟩ := h'.of_ready (hc.ready hl hv)
    exact ⟨ho.trans ho'.symm, hd.trans hd'.symm⟩
  | false =>
    obtain ⟨-, ho, hd⟩ : input = [] ∧ out = [] ∧ d = c := by simpa [Fed, hv] using h
    obtain ⟨-, ho', hd'⟩ : input = [] ∧ out' = [] ∧ d' = c := by simpa [Fed, hv] using h'
    exact ⟨ho.trans ho'.symm, congrArg observable (hd.trans hd'.symm)⟩

/-! ## CIPHER_FINAL after a stream -/

/-- CIPHER_FINAL sees of a context what is observable of it. -/
theorem finalOutput_observable (t : Descriptor) (c : Slot) : finalOutput t (observable c) = finalOutput t c := by
  have hpart : (observable c).buf.take c.fill = c.buf.take c.fill := by simp [observable]
  have hunpad : finalUnpad t (observable c) = finalUnpad t c := by
    by_cases hfill : c.fill = c.bs
    · simp only [finalUnpad, observable, ← hfill, List.take_take, Nat.min_self]
    · have hne : (c.fill == c.bs) = false := by simpa using hfill
      simp [finalUnpad, observable, hne]
  have hpartial : finalPartial t (observable c) = finalPartial t c := by
    simp only [finalPartial, observable, List.take_take, Nat.min_self]
  have hpad : padBlock (observable c) = padBlock c := by simp only [padBlock, observable, List.take_take, Nat.min_self]
  rw [finalOutput, hunpad, hpartial, hpad]
  rfl

/-- What the host sees of a CIPHER_FINAL: the code and the output of its rule. -/
theorem finish_eq {ctx : Nat} {s : State} {m : Memory} (hm : m.wf s.cfg.dramSize = true) (x : Args) :
    finish ctx s m x =
      let r := cipherFinalRule ctx (s.given m (.cipherFinal ctx) x) x
      some (r.code, r.out) := by
  have hback := readBytes_complete (p := ⟨encode (.cipherFinal ctx), x⟩) hm
    (cipherFinalRule_writesDst ctx (s.given m (.cipherFinal ctx) x) x)
  have hrun := exec_given s m (.cipherFinal ctx) x
  simp only [State.given] at hrun
  rw [finish, hrun]
  exact congrArg some (Prod.ext (complete_lastCode _ _) hback)

theorem cipherFinalOut_congr {s s' : State} {c c' : Slot} (hcfg : s.cfg = s'.cfg) (h : observable c = observable c')
    (x : Args) : cipherFinalOut s c x = cipherFinalOut s' c' x := by
  have ht : slotTransform s.cfg c = slotTransform s'.cfg c' := by
    rw [hcfg]
    exact (congrArg (slotTransform s'.cfg) h :)
  have hout : finalOutput (slotTransform s.cfg c) c = finalOutput (slotTransform s'.cfg c') c' := by
    rw [ht, ← finalOutput_observable, h, finalOutput_observable]
  rw [cipherFinalOut, hout]
  simp only [cipherFinalOut, dstOk, region, hcfg]

/-- The code and the output of CIPHER_FINAL depend on the configuration and on what is observable of the context. -/
theorem cipherFinalRule_congr {ctx : Nat} {s s' : State} (hcfg : s.cfg = s'.cfg)
    (h : observable (s.slot ctx) = observable (s'.slot ctx)) (x : Args) :
    (cipherFinalRule ctx s x).code = (cipherFinalRule ctx s' x).code ∧
    (cipherFinalRule ctx s x).out = (cipherFinalRule ctx s' x).out := by
  have hvalid : (s.slot ctx).valid = (s'.slot ctx).valid := (congrArg Slot.valid h :)
  have hended : (s.slot ctx).ended = (s'.slot ctx).ended := (congrArg Slot.ended h :)
  by_cases hin : ctx < s.cfg.nctx ∧ (s.slot ctx).valid = true
  · have hin' := hin
    rw [hcfg, hvalid] at hin'
    cases he : (s.slot ctx).ended with
    | true =>
      rw [cipherFinalRule_of_ended hin.1 hin.2 he, cipherFinalRule_of_ended hin'.1 hin'.2 (hended ▸ he)]
      exact ⟨rfl, rfl⟩
    | false =>
      rw [cipherFinalRule_of_active hin.1 hin.2 he, cipherFinalRule_of_active hin'.1 hin'.2 (hended ▸ he),
        cipherFinalOut_congr hcfg h]
      cases cipherFinalOut s' (s'.slot ctx) x <;> exact ⟨rfl, rfl⟩
  · rw [cipherFinalRule_of_not_found hin, cipherFinalRule_of_not_found (hcfg ▸ hvalid ▸ hin)]
    exact ⟨rfl, rfl⟩

/-- Settles O27: both streams do what one Update with the whole input does, and CIPHER_FINAL sees the same context. -/
theorem chunkingIndependence : Obligations.ChunkingIndependence := by
  intro ctx s s' u u' xs ys input out out' hs hs' hcfg hctx hslot hmem hxs hys
  obtain ⟨hmx, hmy⟩ := List.forall_mem_append.mp hmem
  obtain ⟨-, hu, hfed⟩ := feed_spec hs hctx hmx hxs
  obtain ⟨-, hu', hfed'⟩ := feed_spec hs' (hcfg ▸ hctx) (hcfg ▸ hmy) hys
  rw [← hcfg] at hu'
  rw [← hcfg, ← hslot] at hfed'
  obtain ⟨hout, hobs⟩ := hfed.unique hs.legal (hs.slot ctx) hfed'
  refine ⟨hout, hobs, fun m m' x hm hm' => ?_⟩
  obtain ⟨hcode, hbytes⟩ := cipherFinalRule_congr (s := u.given m (.cipherFinal ctx) x)
    (s' := u'.given m' (.cipherFinal ctx) x) (hu.trans hu'.symm) hobs x
  rw [finish_eq (hu ▸ hm), finish_eq (hu' ▸ hm')]
  simp only [hcode, hbytes]

end Sys2Proof.Machine
end

section
/-! What a context encrypts, a context with the same key and IV decrypts (spec/40_cipher.md R90 (a), R74). -/

namespace Sys2Proof.Machine
open Sys2Proof.Spec

/-! ## Blocks -/

theorem zeros_zero : zeros 0 = [] := rfl

/-- A descriptor with the round-trip property decrypts the block it encrypted, and stands where the encryption stood. -/
theorem RoundTrips.decrypt_encrypt {t : Descriptor} {used : List Byte → Prop} (h : RoundTrips t used) {ts b : List Byte}
    (hts : used ts) (hb : b.length = t.bs) : transformDec t ts (transformEnc t ts b).1 = (b, (transformEnc t ts b).2) := by
  obtain ⟨hy, hstate⟩ := h.2.2 ts b hts (.inl hb)
  have hz : zeros (t.bs - b.length) = [] := by rw [hb, Nat.sub_self, zeros_zero]
  have hsent : (transformEnc t ts b).1.take b.length = (transformEnc t ts b).1 :=
    List.take_of_length_le (by simp [hb])
  have hback : (transformDec t ts (transformEnc t ts b).1).1.take b.length =
      (transformDec t ts (transformEnc t ts b).1).1 := List.take_of_length_le (by simp [hb])
  simp only [hz, List.append_nil, hsent, hback] at hy hstate
  exact Prod.ext hy (hstate hb)

/-- One block back: the plaintext, the feedback register and the transform state of the encryption. -/
theorem blockStep_roundTrip {t : Descriptor} {used : List Byte → Prop} (h : RoundTrips t used) (mode : Mode)
    {r ts b : List Byte} (hts : used ts) (hr : r.length = t.bs) (hb : b.length = t.bs) :
    let o := blockStep t mode false t.bs r ts b
    blockStep t mode true t.bs r ts o.y = ⟨b, o.r, o.ts⟩ ∧ used o.ts := by
  have hx : (xorBytes b r).length = t.bs := by simp [hb, hr]
  have hxx : xorBytes (xorBytes b r) r = b := by
    rw [xorBytes_comm (xorBytes b r), xorBytes_comm b, xorBytes_cancel (by omega)]
  have hused {v : List Byte} (hv : v.length = t.bs) : used (transformEnc t ts v).2 := h.2.1 ts v hts hv
  have hkey : xorBytes (transformEnc t ts r).1 (xorBytes (transformEnc t ts r).1 b) = b := xorBytes_cancel (by simp [hb])
  cases mode with
  | ecb => exact ⟨by simp [blockStep, h.decrypt_encrypt hts hb], hused hb⟩
  | cbc => exact ⟨by simp [blockStep, h.decrypt_encrypt hts hx, hxx], hused hx⟩
  | pcbc =>
    refine ⟨?_, hused hx⟩
    simp only [blockStep, h.decrypt_encrypt hts hx, hxx, if_true, Bool.false_eq_true, if_false,
      xorBytes_comm b (transformEnc t ts (xorBytes b r)).1]
  | cfb => exact ⟨by simp [blockStep, hkey], hused hr⟩
  | ofb => exact ⟨by simp [blockStep, hkey], hused hr⟩
  | ctr => exact ⟨by simp [blockStep, hkey], hused hr⟩
  | gcm => exact ⟨by simp [blockStep, hkey], hused hr⟩

/-- Any number of blocks back. -/
theorem runBlocks_roundTrip {t : Descriptor} {used : List Byte → Prop} (h : RoundTrips t used) (mode : Mode) {n : Nat}
    {r ts data : List Byte} (hts : used ts) (hr : r.length = t.bs) (hd : n * t.bs ≤ data.length) :
    let o := runBlocks t mode false t.bs n r ts data
    runBlocks t mode true t.bs n r ts o.y = ⟨data.take (n * t.bs), o.r, o.ts⟩ ∧ used o.ts := by
  induction n generalizing r ts data with
  | zero => simp [runBlocks, hts]
  | succ n ih =>
    rw [Nat.succ_mul] at hd
    have hb : (data.take t.bs).length = t.bs := by simp; omega
    obtain ⟨hback, hused⟩ := blockStep_roundTrip h mode hts hr hb
    obtain ⟨hy, hr'⟩ := length_blockStep mode false ts hr hb
    obtain ⟨hrest, hused'⟩ := ih hused hr' (data := data.drop t.bs) (by simp; omega)
    refine ⟨?_, hused'⟩
    simp only [runBlocks, List.take_left' hy, List.drop_left' hy, hback, hrest]
    congr 1
    rw [← List.take_add, Nat.succ_mul, Nat.add_comm]

/-! ## The last, partial block -/

/-- The slot of a context that decrypts. -/
def Slot.decrypting (c : Slot) : Slot := { c with dir := true }

/-- What CIPHER_FINAL computes without padding, on a context in the middle of a stream. -/
theorem finalPartial_stand (t : Descriptor) {c : Slot} {r : List Byte} (hr : r.length = c.bs) (ts part : List Byte) :
    finalPartial t (c.stand r ts part) =
      if part = [] then .ok ⟨[], r, ts⟩
      else if c.mode.blockStyle && !t.stream then .error .invalidParameters
      else if c.mode = .ecb then
        let z := (if c.dir then transformDec else transformEnc) t ts (part ++ zeros (c.bs - part.length))
        .ok ⟨z.1.take part.length, r, z.2⟩
      else
        let z := transformEnc t ts r
        .ok ⟨xorBytes (z.1.take part.length) part,
          if c.mode = .ofb then z.1 else if c.mode = .ctr ∨ c.mode = .gcm then ctrInc r c.bs else r, z.2⟩ := by
  simp only [finalPartial, Slot.stand, overlay, List.take_left' hr, List.take_length, Option.getD_some,
    List.length_eq_zero_iff]
  refine ite_congr rfl (fun _ => rfl) fun _ => ite_congr rfl (fun _ => rfl) fun _ => ?_
  cases c.mode with
  | ecb => cases c.dir <;> rfl
  | _ => rfl

/-- What CIPHER_FINAL computes without padding is as long as the bytes that were buffered. -/
theorem length_finalPartial {t : Descriptor} {c : Slot} {r ts part : List Byte} (hbs : c.bs = t.bs) (hr : r.length = c.bs)
    (hpart : part.length ≤ c.bs) {o : BlockOut} (h : finalPartial t (c.stand r ts part) = .ok o) :
    o.y.length = part.length := by
  rw [finalPartial_stand t hr] at h
  split_ifs at h <;> cases h <;> simp_all

/-- The partial block back. -/
theorem finalPartial_roundTrip {t : Descriptor} {used : List Byte → Prop} (h : RoundTrips t used) {c : Slot}
    {r ts part : List Byte} (hts : used ts) (hbs : c.bs = t.bs) (hr : r.length = c.bs) (hpart : part.length ≤ c.bs)
    (hdir : c.dir = false) {o : BlockOut} (ho : finalPartial t (c.stand r ts part) = .ok o) :
    ∃ o', finalPartial t (c.decrypting.stand r ts o.y) = .ok o' ∧ o'.y = part := by
  have hlen := length_finalPartial hbs hr hpart ho
  have hnil : o.y = [] ↔ part = [] := by rw [← List.length_eq_zero_iff, hlen, List.length_eq_zero_iff]
  rw [finalPartial_stand t hr] at ho
  rw [finalPartial_stand t (c := c.decrypting) hr]
  simp only [hnil, hlen, Slot.decrypting, hdir] at ho ⊢
  by_cases hempty : part = []
  · exact ⟨_, if_pos hempty, hempty.symm⟩
  by_cases hstyle : (c.mode.blockStyle && !t.stream) = true
  · simp [hempty, hstyle] at ho
  rw [if_neg hempty, if_neg hstyle] at ho ⊢
  by_cases hecb : c.mode = .ecb
  · have hstream : t.stream = true := by simpa [hecb, Mode.blockStyle] using hstyle
    rw [if_pos hecb] at ho ⊢
    cases ho
    exact ⟨_, rfl, hbs ▸ (h.2.2 ts part hts (.inr ⟨hstream, hbs ▸ hpart⟩)).1⟩
  · rw [if_neg hecb] at ho ⊢
    cases ho
    exact ⟨_, rfl, xorBytes_cancel (by simpa [← hbs] using hpart)⟩

/-! ## The last, padded block -/

/-- The last block of a padded encryption that has `part` left over (spec/40_cipher.md R85). -/
def padded (bs : Nat) (part : List Byte) : List Byte :=
  part ++ List.replicate (bs - part.length) (BitVec.ofNat 8 (bs - part.length))

theorem length_padded {bs : Nat} {part : List Byte} (h : part.length ≤ bs) : (padded bs part).length = bs := by
  simp [padded, h]

/-- The last byte of a padded block is the number of its pad bytes. -/
theorem padded_last {bs : Nat} {part : List Byte} (hmax : bs ≤ maxBs) (h : part.length < bs) :
    ((padded bs part).getD (bs - 1) 0).toNat = bs - part.length := by
  have hsmall : maxBs = 64 := rfl
  have hlast : (padded bs part).getD (bs - 1) 0 = BitVec.ofNat 8 (bs - part.length) := by
    rw [padded, List.getD_append_right _ _ _ _ (by omega), List.getD_replicate _ (by omega)]
  rw [hlast, toNat_ofNat_of_lt (by omega)]

theorem finalOutput_padded_encrypt (t : Descriptor) {c : Slot} {r : List Byte} (hr : r.length = c.bs) (ts part : List Byte)
    (hpad : c.pad = true) (hdir : c.dir = false) :
    finalOutput t (c.stand r ts part) = .ok (blockStep t c.mode false c.bs r ts (padded c.bs part)) := by
  simp [finalOutput, Slot.stand, overlay, hpad, hdir, padBlock, padded, List.take_left' hr]

theorem finalOutput_padded_decrypt (t : Descriptor) {c : Slot} {r block : List Byte} (hr : r.length = c.bs)
    (hblock : block.length = c.bs) (ts : List Byte) (hpad : c.pad = true) {part : List Byte} {r' ts' : List Byte}
    (hmax : c.bs ≤ maxBs) (hpart : part.length < c.bs)
    (hback : blockStep t c.mode true c.bs r ts block = ⟨padded c.bs part, r', ts'⟩) :
    finalOutput t (c.decrypting.stand r ts block) = .ok ⟨part, r', ts'⟩ := by
  have hl := padded_last hmax hpart
  have hcut : (padded c.bs part).take (c.bs - (c.bs - part.length)) = part := List.take_left' (by omega)
  have hfull : block.take c.bs = block := List.take_of_length_le (by omega)
  have hcheck : (c.bs - part.length != 0 && decide (c.bs - part.length ≤ c.bs)) = true := by simp; omega
  simp only [finalOutput, finalUnpad, Slot.stand, Slot.decrypting, overlay, hpad, List.take_left' hr, Option.getD_some,
    hblock, hfull, hback, hl, hcut, hcheck, beq_self_eq_true, require_true, except_ok_bind, except_pure, if_true]

/-- CIPHER_FINAL of the decryption gives back what was left over for CIPHER_FINAL of the encryption. -/
theorem finalOutput_roundTrip {t : Descriptor} {used : List Byte → Prop} (h : RoundTrips t used) {c : Slot}
    {r ts part : List Byte} (hts : used ts) (hbs : c.bs = t.bs) (hmax : c.bs ≤ maxBs) (hr : r.length = c.bs)
    (hpart : part.length < c.bs) (hdir : c.dir = false) {o : BlockOut} (ho : finalOutput t (c.stand r ts part) = .ok o) :
    o.y.length = (if c.pad then c.bs else part.length) ∧
      ∃ o', finalOutput t (c.decrypting.stand r ts o.y) = .ok o' ∧ o'.y = part := by
  cases hpad : c.pad with
  | true =>
    rw [finalOutput_padded_encrypt t hr ts part hpad hdir] at ho
    cases ho
    have hblock := length_padded hpart.le
    rw [hbs] at hr hblock
    have hy := (length_blockStep c.mode false ts hr hblock).1
    have hback := (blockStep_roundTrip h c.mode hts hr hblock).1
    rw [← hbs] at hr hy hback
    exact ⟨hy, _, finalOutput_padded_decrypt t hr hy ts hpad hmax hpart hback, rfl⟩
  | false =>
    have hplain (d : Slot) (hd : d.pad = false) : finalOutput t d = finalPartial t d := by simp [finalOutput, hd]
    rw [hplain (c.stand r ts part) hpad] at ho
    rw [hplain (c.decrypting.stand r ts o.y) hpad]
    exact ⟨length_finalPartial hbs hr hpart.le ho, finalPartial_roundTrip h hts hbs hr hpart.le hdir ho⟩

/-! ## A whole stream -/

/-- A context right after CIPHER_INIT, as the round trip needs it. -/
structure Slot.Fresh (cfg : Config) (c : Slot) (used : List Byte → Prop) : Prop where
  ready : c.Ready cfg
  fill  : c.fill = 0
  dir   : c.dir = false
  used  : used (c.ts.getD [])
  max   : c.bs ≤ maxBs

section Fresh
variable {cfg : Config} {c : Slot} {used : List Byte → Prop} (hc : c.Fresh cfg used)
include hc

theorem Slot.Fresh.updateData_eq (v : List Byte) : updateData c v = v := by simp [updateData, hc.fill]

/-- The bytes of the input that make no whole block are fewer than a block. -/
theorem Slot.Fresh.length_rest (plain : List Byte) :
    (plain.drop (updateBlocks c plain.length * c.bs)).length < c.bs := by
  have hkeep : keep c plain.length < c.bs := by simpa [keep, hc.dir] using Nat.mod_lt plain.length hc.ready.pos
  have hle := keep_le c plain.length
  rw [updateBlocks_mul, List.length_drop]
  omega

theorem Slot.Fresh.length_updateRun_y (plain : List Byte) :
    (updateRun cfg c plain).y.length = updateBlocks c plain.length * c.bs := by
  simpa only [hc.updateData_eq] using (updateRun_spec hc.ready.block hc.ready.mod1 plain).1

/-- The whole blocks of a plaintext, encrypted, decrypt to themselves, and leave what the encryption left. -/
theorem Slot.Fresh.runBlocks_back (h : RoundTrips (slotTransform cfg c) used) (plain : List Byte) :
    let o := updateRun cfg c plain
    let n := updateBlocks c plain.length
    runBlocks (slotTransform cfg c) c.mode true c.bs n (c.mod1.take c.bs) (c.ts.getD []) o.y =
      ⟨plain.take (n * c.bs), o.r, o.ts⟩ ∧ used o.ts := by
  have hbs := hc.ready.block
  have hrun : updateRun cfg c plain = runBlocks (slotTransform cfg c) c.mode false c.bs (updateBlocks c plain.length)
      (c.mod1.take c.bs) (c.ts.getD []) plain := by
    simp only [updateRun, hc.updateData_eq, hc.dir]
  have hback := runBlocks_roundTrip h c.mode (n := updateBlocks c plain.length) (r := c.mod1.take c.bs) (data := plain)
    hc.used (by simpa [← hbs] using hc.ready.mod1) (hbs ▸ updateBlocks_mul_le c plain.length)
  rwa [← hbs, ← hrun] at hback

/-- What an Update of the decryption keeps of a whole ciphertext is what CIPHER_FINAL of the encryption wrote: a block
with padding, a partial block without. -/
theorem Slot.Fresh.updateBlocks_decrypting (n : Nat) {k : Nat}
    (hk : k = c.bs ∧ c.pad = true ∨ k < c.bs ∧ c.pad = false) :
    updateBlocks c.decrypting (n * c.bs + k) = n := by
  have hpos := hc.ready.pos
  have hkeep : keep c.decrypting (n * c.bs + k) = k := by
    rcases hk with ⟨rfl, hpad⟩ | ⟨hk, hpad⟩
    · have hlast : n * c.bs + c.bs - 1 = c.bs - 1 + n * c.bs := by omega
      simp only [keep, Slot.decrypting, hpad, Bool.and_self, if_true, hlast, Nat.add_mul_mod_self_right,
        Nat.mod_eq_of_lt (show c.bs - 1 < c.bs by omega)]
      rw [if_neg (by omega)]
      omega
    · simp [keep, Slot.decrypting, hpad, Nat.mod_eq_of_lt hk]
  rw [updateBlocks, hkeep, Nat.add_sub_cancel]
  exact Nat.mul_div_cancel n hpos

/-- A whole ciphertext decrypts to the plaintext. -/
theorem Slot.Fresh.stream_roundTrip (h : RoundTrips (slotTransform cfg c) used) {plain : List Byte} {o : BlockOut}
    (ho : finalOutput (slotTransform cfg c) (observable (updateSlot cfg c plain)) = .ok o) :
    let cipher := (updateRun cfg c plain).y ++ o.y
    ∃ o', finalOutput (slotTransform cfg c) (observable (updateSlot cfg c.decrypting cipher)) = .ok o' ∧
      (updateRun cfg c.decrypting cipher).y ++ o'.y = plain := by
  intro cipher
  have hpart := hc.length_rest plain
  have hy := hc.length_updateRun_y plain
  obtain ⟨hback, hused⟩ := hc.runBlocks_back h plain
  -- the encryption leaves less than a block, of which CIPHER_FINAL makes `o.y`
  rw [observable_updateSlot] at ho
  simp only [hc.updateData_eq] at ho
  generalize updateBlocks c plain.length = n at hpart hy hback ho
  obtain ⟨hlen, o', ho', hpart'⟩ := finalOutput_roundTrip h hused hc.ready.block hc.max
    (hc.ready.length_updateRun_r plain) hpart hc.dir ho
  -- the decryption runs as many blocks, and CIPHER_FINAL makes of `o.y` what the encryption had left
  have hdata : updateData c.decrypting cipher = cipher := hc.updateData_eq cipher
  have hn : updateBlocks c.decrypting cipher.length = n := by
    rw [List.length_append, hy]
    refine hc.updateBlocks_decrypting n ?_
    cases hpad : c.pad with
    | true => exact .inl ⟨by simpa [hpad] using hlen, rfl⟩
    | false => exact .inr ⟨by rw [hlen, hpad]; exact hpart, rfl⟩
  have hrun : updateRun cfg c.decrypting cipher =
      ⟨plain.take (n * c.bs), (updateRun cfg c plain).r, (updateRun cfg c plain).ts⟩ := by
    rw [← hback, ← runBlocks_append _ _ _ _ _ hy.ge o.y, updateRun, hdata, hn]
    rfl
  have hrest : cipher.drop (n * c.decrypting.bs) = o.y := List.drop_left' hy
  refine ⟨o', ?_, ?_⟩
  · rw [observable_updateSlot]
    simp only [hdata, hn, hrun, hrest]
    exact ho'
  · rw [hrun, hpart']
    exact List.take_append_drop _ _

end Fresh

/-! ## The whole life of the two contexts -/

theorem start_eq (ctx : Nat) (s : State) (m : Memory) (x : Args) : start ctx s m x =
    let t := complete ⟨encode (.cipherInit ctx), x⟩ (cipherInitRule ctx (s.given m (.cipherInit ctx) x) x)
    if t.lastCode = .ok then some t else none := rfl

/-- What a CIPHER_INIT that completes OK sets up. -/
theorem start_spec {ctx : Nat} {s a : State} {m : Memory} {x : Args} (hs : s.Wf) (hctx : ctx < s.cfg.nctx)
    (hm : m.wf s.cfg.dramSize = true) (h : start ctx s m x = some a) :
    a.Wf ∧ a.cfg = s.cfg ∧ cipherInitSlot (s.given m (.cipherInit ctx) x) x = .ok (a.slot ctx) := by
  have hwf := hs.given hm (.cipherInit ctx) x
  have hslots : ctx < (s.given m (.cipherInit ctx) x).slots.length := hwf.slotCount ▸ hctx
  have hsound := complete_wf ⟨encode (.cipherInit ctx), x⟩ (cipherInitRule_sound ctx hwf x)
  simp only [start_eq, complete_lastCode, Option.ite_none_right_eq_some, Option.some.injEq] at h
  obtain ⟨hcode, rfl⟩ := h
  refine ⟨hsound, ?_⟩
  rw [complete_cfg, complete_slot]
  rw [cipherInitRule_of_lt (s := s.given m _ x) hctx] at hcode ⊢
  cases hslot : cipherInitSlot (s.given m (.cipherInit ctx) x) x with
  | error code =>
    rw [hslot] at hcode
    exact absurd hcode (cipherInitSlot_error_ne_ok hslot)
  | ok c =>
    refine ⟨State.latchBackend_cfg _, congrArg Except.ok ?_⟩
    exact (State.slot_setSlot_same _ ctx c (by simpa using hslots)).symm

/-- The slot of a CIPHER_INIT that passes its checks, when its algorithm is mapped. -/
theorem cipherInitSlot_spec {s : State} {x : Args} {t : Descriptor} {c : Slot}
    (ht : lookupTransform s.cfg (cfgAlg x) = some t) (h : cipherInitSlot s x = .ok c) :
    t.keyLens.contains (srcLen x) = true ∧ ∃ ts, transformKs t (srcBytes s x) (initIv s x t) = some ts ∧
      c = initSlot x (modeNamed (cfgMode x).toNat) t (if (cfgMode x).toNat = 0 then zeros t.bs else initIv s x t) ts := by
  rw [cipherInitSlot_eq, ht] at h
  dsimp only [Option.getD_some] at h
  obtain ⟨_, hchecks, hc⟩ := except_bind_eq_ok.mp h
  have hpass := forall_of_runChecks_ok hchecks
  obtain ⟨ts, hts⟩ := Option.isSome_iff_exists.mp (isSome_of_initChecks hpass)
  have hkey := hpass (decide (srcLen x ≤ s.cfg.maxKey) && t.keyLens.contains (srcLen x), .invalidKey)
    (by simp [initChecks])
  rw [hts] at hc
  cases hc
  exact ⟨(Bool.and_eq_true_iff.mp hkey).2, ts, hts, rfl⟩

theorem observable_observable (c : Slot) : observable (observable c) = observable c := by simp [observable]

theorem cipherFinalOut_error_ne_ok {s : State} {c : Slot} {x : Args} {code : Code}
    (h : cipherFinalOut s c x = .error code) : code ≠ .ok := by
  rw [cipherFinalOut_eq, except_bind_eq_error] at h
  rcases h with h | ⟨_, -, h⟩
  · have hmem := mem_of_runChecks_error h
    rintro rfl
    simp [finalChecks, outputChecks] at hmem
  · cases h

/-- A CIPHER_FINAL on an active context completes OK exactly when its output is defined and fits the destination. -/
theorem finish_eq_ok {ctx : Nat} {s : State} {m : Memory} (hm : m.wf s.cfg.dramSize = true) (hctx : ctx < s.cfg.nctx)
    {c : Slot} (hobs : observable (s.slot ctx) = observable c) (hvalid : c.valid = true) (hactive : c.ended = false)
    (x : Args) (out : List Byte) :
    finish ctx s m x = some (.ok, out) ↔ ∃ o, cipherFinalOut s (observable c) x = .ok o ∧ o.y = out := by
  have hv : (s.slot ctx).valid = true := ((congrArg Slot.valid hobs :) : _ = c.valid).trans hvalid
  have he : (s.slot ctx).ended = false := ((congrArg Slot.ended hobs :) : _ = c.ended).trans hactive
  have hout : cipherFinalOut (s.given m (.cipherFinal ctx) x) ((s.given m (.cipherFinal ctx) x).slot ctx) x =
      cipherFinalOut s (observable c) x := cipherFinalOut_congr rfl (hobs.trans (observable_observable c).symm) x
  rw [finish_eq hm, cipherFinalRule_of_active (s := s.given m _ x) hctx hv he, hout]
  cases h : cipherFinalOut s (observable c) x with
  | error code => simp [cipherFinalOut_error_ne_ok h]
  | ok o => simp

/-- The CFG word with DIR = 1. -/
theorem cfg_decrypt (w : Word) :
    (w ||| 0x1000).extractLsb' 0 8 = w.extractLsb' 0 8 ∧ (w ||| 0x1000).extractLsb' 8 4 = w.extractLsb' 8 4 ∧
    (w ||| 0x1000).getLsbD 12 = true ∧ (w ||| 0x1000).getLsbD 13 = w.getLsbD 13 := by
  refine ⟨?_, ?_, ?_, ?_⟩
  · rw [BitVec.extractLsb'_or]
    simp
  · rw [BitVec.extractLsb'_or]
    simp
  · simp
  · simp

/-- A CIPHER_INIT with DIR = 1, the same ALG, MODE and PAD_EN, the same key and the same IV block sets up the same slot, but
for DIR. -/
theorem cipherInitSlot_decrypting {s s' : State} {x y : Args} {t : Descriptor} {c d : Slot} (hcfg : s.cfg = s'.cfg)
    (ht : lookupTransform s.cfg (cfgAlg x) = some t) (hword : y[4] = x[4] ||| 0x1000) (hkey : srcBytes s x = srcBytes s' y)
    (hiv : cfgMode x ≠ 0 ∨ t.stream = true → s.ram.readBytes (src2Addr x) t.bs = s'.ram.readBytes (src2Addr y) t.bs)
    (hc : cipherInitSlot s x = .ok c) (hd : cipherInitSlot s' y = .ok d) : d = c.decrypting := by
  obtain ⟨halg, hmode, hdir, hpad⟩ := cfg_decrypt x[4]
  rw [← hword] at halg hmode hdir hpad
  have halg : cfgAlg y = cfgAlg x := halg
  have hmode : cfgMode y = cfgMode x := hmode
  have hdir : cfgDir y = true := hdir
  have hpad : cfgPadEn y = cfgPadEn x := hpad
  have hivs : initIv s x t = initIv s' y t := by
    unfold initIv
    rw [hmode]
    split
    · rename_i hneed
      refine hiv ?_
      simpa [← BitVec.toNat_inj] using hneed
    · rfl
  obtain ⟨-, ts, hts, rfl⟩ := cipherInitSlot_spec ht hc
  obtain ⟨-, ts', hts', rfl⟩ := cipherInitSlot_spec (hcfg ▸ halg ▸ ht) hd
  obtain rfl : ts = ts' := by rw [hkey, hivs, hts'] at hts; exact (Option.some.inj hts).symm
  simp only [initSlot, Slot.decrypting, halg, hmode, hdir, hpad, hivs]

/-- A CIPHER_INIT with DIR = 0 sets up a context that the round trip can start from. -/
theorem cipherInitSlot_fresh {s : State} {x : Args} {t : Descriptor} {used : List Byte → Prop} {c : Slot}
    (hl : s.cfg.legal) (ht : lookupTransform s.cfg (cfgAlg x) = some t) (h : RoundTrips t used) (hdir : cfgDir x = false)
    (hc : cipherInitSlot s x = .ok c) : slotTransform s.cfg c = t ∧ c.Fresh s.cfg used := by
  have hwf := cipherInitSlot_wf hl hc
  have hvalid := (cipherInitSlot_active hc).1
  obtain ⟨-, -, hmax⟩ := hwf.block hl hvalid
  have hready := hwf.ready hl hvalid
  obtain ⟨hlen, ts, hts, rfl⟩ := cipherInitSlot_spec ht hc
  exact ⟨slotTransform_eq ht, hready, rfl, hdir, h.1 _ _ ts (by rwa [length_srcBytes]) hts, hmax⟩

/-- A stream on an active context, and whatever CIPHER_FINAL ends it: what they output is one Update's output, and what
CIPHER_FINAL computes after that Update. -/
theorem feed_finish_spec {ctx : Nat} {a b : State} {xs : List (Memory × Args)} {input out : List Byte} (ha : a.Wf)
    (hctx : ctx < a.cfg.nctx) (hvalid : (a.slot ctx).valid = true) (hactive : (a.slot ctx).ended = false)
    (hxs : ∀ e ∈ xs, e.1.wf a.cfg.dramSize = true) (h : feed ctx a xs = some (b, input, out)) :
    out = (updateRun a.cfg (a.slot ctx) input).y ∧
    ∀ (m : Memory) (x : Args) (last : List Byte), m.wf a.cfg.dramSize = true →
      (finish ctx b m x = some (.ok, last) ↔
        ∃ o, (dstOk a x = true ∧
          finalOutput (slotTransform a.cfg (a.slot ctx)) (observable (updateSlot a.cfg (a.slot ctx) input)) = .ok o ∧
          o.y.length ≤ dstCap x) ∧ o.y = last) := by
  obtain ⟨-, hbcfg, hfed⟩ := feed_spec ha hctx hxs h
  obtain ⟨hout, hobs⟩ := hfed.of_ready ((ha.slot ctx).ready ha.legal hvalid)
  refine ⟨hout, fun m x last hm => ?_⟩
  have hfinish := finish_eq_ok (hbcfg ▸ hm) (hbcfg ▸ hctx) hobs hvalid hactive x last
  simp only [cipherFinalOut_eq_ok, dstOk, region, hbcfg] at hfinish
  exact hfinish

/-- Settles O28: the two streams are one Update each, and the decryption's takes back the encryption's. -/
theorem cipherRoundTrip : Obligations.CipherRoundTrip := by
  intro ctx ctx' s s' a a' b b' t me md mf mg xe xd xf xg es ds plain c1 c2 p1 used hs hs' hcfg hctx hctx' ht hrt hdir hword
    hkey hiv hmem hme hmd hmf hmg hstart hfeed hfinish hstart' hfeed' hdst hcap
  obtain ⟨hmes, hmds⟩ := List.forall_mem_append.mp hmem
  obtain ⟨ha, hacfg, hinit⟩ := start_spec hs hctx hme hstart
  obtain ⟨ha', hacfg', hinit'⟩ := start_spec hs' (hcfg ▸ hctx') (hcfg ▸ hmd) hstart'
  rw [← hcfg] at hacfg'
  -- the two contexts differ in DIR
  obtain ⟨htrans, hfresh⟩ := cipherInitSlot_fresh (s := s.given me _ xe) hs.legal ht hrt hdir hinit
  have hdec := cipherInitSlot_decrypting (s := s.given me _ xe) (s' := s'.given md _ xd) hcfg ht hword hkey hiv hinit hinit'
  obtain ⟨hvalid, hactive⟩ := cipherInitSlot_active hinit
  obtain ⟨hvalid', hactive'⟩ := cipherInitSlot_active hinit'
  -- each stream is one Update
  obtain ⟨hc1, hlast⟩ := feed_finish_spec ha (hacfg ▸ hctx) hvalid hactive (hacfg ▸ hmes) hfeed
  obtain ⟨hp1, hlast'⟩ := feed_finish_spec ha' (hacfg' ▸ hctx') hvalid' hactive' (hacfg' ▸ hmds) hfeed'
  rw [hacfg] at hc1 hlast
  rw [hacfg', hdec] at hp1 hlast'
  obtain ⟨o, ⟨-, ho, -⟩, rfl⟩ := (hlast mf xf c2 hmf).mp hfinish
  obtain ⟨o', ho', hplain⟩ := hfresh.stream_roundTrip (htrans.symm ▸ hrt) ho
  have hfits : o'.y.length ≤ dstCap xg := by
    have hlen := congrArg List.length (hc1 ▸ hplain)
    rw [List.length_append] at hlen
    exact (by omega : o'.y.length ≤ plain.length).trans hcap
  have hregion : dstOk a' xg = true := by simpa [dstOk, region, hacfg', dstAddr, dstCap] using hdst
  rw [hc1] at hp1 hlast'
  exact ⟨o'.y, (hlast' mg xg o'.y hmg).mpr ⟨o', ⟨hregion, ho', hfits⟩, rfl⟩, hp1 ▸ hplain⟩

end Sys2Proof.Machine
end

section
/-! What the RSA commands leave alone (spec/41_rsa.md R94, R95, R100), and the checks they share. -/

namespace Sys2Proof.Machine
open Sys2Proof.Spec

/-! ## What an RSA command leaves alone -/

/-- The RSA commands (spec/30_encoding.md R66: opcodes 0x10 to 0x1B). -/
def IsRsa (i : Instr) : Prop := 0x10 ≤ i.opcode.toNat ∧ i.opcode.toNat ≤ 0x1B

/-- From `s` to `t` at most the key register and the place in ENTROPY change, each by the commands `i` that may. -/
def RsaFrame (i : Instr) (s t : State) : Prop :=
  ∃ k e, t = { s with rsa := k, entropy := e } ∧
    (i ≠ .rsaLoadcomp → i ≠ .rsaClearkey → k = s.rsa) ∧ (i ≠ .rsaPad2 → i ≠ .rsaPubenc 1 → e = s.entropy)

/-- Only RSA_PUBENC with S = 1 draws (spec/41_rsa.md R107). -/
theorem rsaPubencRule_state_of_ne {pad : Nat} (h : pad ≠ 1) (s : State) (x : Args) :
    (rsaPubencRule pad s x).state = s := by
  unfold rsaPubencRule
  split
  · rfl
  · rw [if_pos (by omega), emit_state]

/-- An RSA command changes at most the key register and the place in ENTROPY, and each of them in two commands only. -/
theorem rsaRule_frame {i : Instr} (hi : IsRsa i) (s : State) (x : Args) : RsaFrame i s (ruleOf i s x).state := by
  have kept {t : State} (h : t = s) : RsaFrame i s t := ⟨s.rsa, s.entropy, h, fun _ _ => rfl, fun _ _ => rfl⟩
  obtain ⟨hlo, hhi⟩ := hi
  cases i with
  | rsaLoadcomp =>
    rcases rsaLoadcompRule_leaves s x with h | ⟨v, -, h⟩
    · exact kept h
    · exact ⟨_, s.entropy, h, fun hne => absurd rfl hne, fun _ _ => rfl⟩
  | rsaClearkey => exact ⟨.empty, s.entropy, rfl, fun _ hne => absurd rfl hne, fun _ _ => rfl⟩
  | rsaPublic => exact kept (emit_state s x _)
  | rsaPrivate => exact kept (emit_state s x _)
  | rsaPad1 => exact kept (emit_state s x _)
  | rsaPad2 =>
    obtain ⟨e, h⟩ := emitDrawn_state s x (padChecks s x >>= fun _ => .ok (pad2 s.entropy (srcBytes s x) (argVal x)))
    exact ⟨s.rsa, e, h, fun _ _ => rfl, fun hne => absurd rfl hne⟩
  | rsaUnpad => exact kept (emit_state s x _)
  | rsaPubenc pad =>
    by_cases hpad : pad = 1
    · obtain ⟨e, h⟩ := rsaPubencRule_state pad s x
      exact ⟨s.rsa, e, h, fun _ _ => rfl, fun _ hne => absurd (congrArg Instr.rsaPubenc hpad) hne⟩
    · exact kept (rsaPubencRule_state_of_ne hpad s x)
  | rsaPrivdec pad => exact kept (rsaPrivdecRule_state pad s x)
  | rsaPrivenc pad => exact kept (rsaPrivencRule_state pad s x)
  | rsaPubdec pad => exact kept (rsaPubdecRule_state pad s x)
  | rsaCheckkey => exact kept (report_state s _)
  | _ => simp [Instr.opcode] at hlo hhi

theorem emitDrawn_result (s : State) (x : Args) (r : Except Code (List Byte × Entropy)) : (emitDrawn s x r).result = 0 := by
  rcases r with code | ⟨out, e⟩ <;> rfl

/-- The combined operations end as the bare transform or as the padded one, or raise (spec/41_rsa.md R106). -/
theorem combined_result {s : State} {x : Args} (pad : Nat) (bare : Except Code (List Byte)) {padded : CmdResult}
    (hpadded : padded.result = 0) :
    (if 2 ≤ pad then .raise .unsupportedPadding s else if pad = 0 then emit s x bare else padded : CmdResult).result = 0 := by
  split
  · rfl
  · split
    · exact emit_result s x bare
    · exact hpadded

/-- RESULT is 0 after every RSA command but RSA_CHECKKEY (spec/10_state.md R31). -/
theorem rsaRule_result {i : Instr} (hi : IsRsa i) (hne : i ≠ .rsaCheckkey) (s : State) (x : Args) :
    (ruleOf i s x).result = 0 := by
  obtain ⟨hlo, hhi⟩ := hi
  cases i with
  | rsaLoadcomp => exact update_result s _
  | rsaClearkey => rfl
  | rsaPublic => exact emit_result s x _
  | rsaPrivate => exact emit_result s x _
  | rsaPad1 => exact emit_result s x _
  | rsaPad2 => exact emitDrawn_result s x _
  | rsaUnpad => exact emit_result s x _
  | rsaPubenc pad => exact combined_result pad _ (emitDrawn_result s x _)
  | rsaPrivdec pad => exact combined_result pad _ (emit_result s x _)
  | rsaPrivenc pad => exact combined_result pad _ (emit_result s x _)
  | rsaPubdec pad => exact combined_result pad _ (emit_result s x _)
  | rsaCheckkey => exact absurd rfl hne
  | _ => simp [Instr.opcode] at hlo hhi

/-- Settles O15: a rule changes at most the key register and the place in ENTROPY, and completion touches none of these
fields. -/
theorem rsaCommandsFrame : Obligations.RsaCommandsFrame := by
  intro i s t hlo hhi h
  obtain ⟨p, -, rfl⟩ := exec_next h
  obtain ⟨k, e, hstate, hkey, hentropy⟩ := rsaRule_frame ⟨hlo, hhi⟩ s p.args
  refine ⟨?slots, ?group, ?point, ?backend, fun hl hc => ?rsa, fun hd he => ?entropy, fun hne => ?result⟩
  case slots => rw [complete_slots, hstate]
  case group => rw [complete_group, hstate]
  case point => rw [complete_point, hstate]
  case backend => rw [complete_backend, hstate]
  case rsa => rw [complete_rsa, hstate, ← hkey hl hc]
  case entropy => rw [complete_entropy, hstate, ← hentropy hd he]
  case result => rw [complete_result, rsaRule_result ⟨hlo, hhi⟩ hne]

/-! ## The checks the RSA commands share -/

theorem runChecks_append (checks rest : List (Bool × Code)) :
    runChecks (checks ++ rest) = runChecks checks >>= fun _ => runChecks rest := by
  induction checks with
  | nil => rfl
  | cons c cs ih =>
    obtain ⟨passes, code⟩ := c
    simp [ih, bind_assoc]

/-- A rule that checks, then draws, writes output and moves the stream. -/
theorem runs_of_emitDrawn {i : Instr} {s : State} {p : Pending} {checks : List (Bool × Code)} {out : List Byte}
    {e : Entropy} (hp : s.pending = some p)
    (h : ruleOf i s p.args = emitDrawn s p.args (runChecks checks >>= fun _ => .ok (out, e))) :
    Runs i s checks (wrote { s with entropy := e } p (dstAddr p.args) out) (failed s p) :=
  runs_of_rule (ok := .ok { s with entropy := e } (dstAddr p.args) out 0) (fail := fun code => .raise code s) hp
    (fun hnone => by rw [h, runChecks_of_none hnone]; rfl) (fun code hsome => by rw [h, runChecks_of_some hsome]; rfl)

/-- A rule that checks and then only sets RESULT. -/
theorem runs_of_report {i : Instr} {s : State} {p : Pending} {checks : List (Bool × Code)} {res : Word}
    (hp : s.pending = some p) (h : ruleOf i s p.args = report s (runChecks checks >>= fun _ => .ok res)) :
    Runs i s checks (completed s p 0 res) (failed s p) :=
  runs_of_rule (ok := .ok s 0 [] res) (fail := fun code => .raise code s) hp
    (fun hnone => by rw [h, runChecks_of_none hnone]; rfl) (fun code hsome => by rw [h, runChecks_of_some hsome]; rfl)

/-- A rule that writes output, but whose last check never passes: it always fails. -/
theorem runs_of_emit_never {i : Instr} {s : State} {p : Pending} {checks : List (Bool × Code)} {code : Code}
    (hp : s.pending = some p) (t : State)
    (h : ruleOf i s p.args = emit s p.args (runChecks checks >>= fun _ => .error code)) :
    Runs i s (checks ++ [(false, code)]) t (failed s p) := by
  refine ⟨fun hnone => ?_, (runs_of_emit (out := []) hp (h.trans ?_)).2⟩
  · exact absurd (firstFailing_eq_none.mp hnone (false, code) (by simp)) (by simp)
  · simp [runChecks_append, bind_assoc]

theorem regions_eq (s : State) (x : Args) :
    regions s x = runChecks [(srcOk s x, .invalidParameters), (dstOk s x, .invalidParameters)] := by
  simp [regions]

/-- The number in the source region. -/
def srcInt (s : State) (x : Args) : Nat := os2i (srcBytes s x)

theorem readInt_src (s : State) (x : Args) : readInt s (srcAddr x) (srcLen x) =
    runChecks [(decide (srcLen x ≤ s.cfg.bnMax), .outOfMemory)] >>= fun _ => .ok (srcInt s x) := by
  simp [readInt, srcInt, srcBytes]

theorem publicKey_eq (s : State) : publicKey s =
    runChecks [(s.rsa.n.isSome && s.rsa.e.isSome, .invalidKey)] >>= fun _ => .ok (s.rsa.n.getD 0, s.rsa.e.getD 0) := by
  cases hn : s.rsa.n <;> cases he : s.rsa.e <;> simp [publicKey, hn, he]

theorem publicOp_eq (n e m : Nat) :
    publicOp n e m = runChecks [(decide (m < n), .valueTooLarge)] >>= fun _ => .ok (m ^ e % n) := by
  simp [publicOp, modpow_eq_pow_mod]

/-- What RSA_PRIVATE raises with: the quintet, or D, or an exponent 0 where the key has neither. -/
def privatePartOf (k : RsaKey) : PrivatePart := k.privatePart.getD (.plain 0)

/-- The CRT path is taken exactly when the quintet is present (spec/41_rsa.md R97, R99). -/
theorem privatePart_eq (k : RsaKey) : k.privatePart =
    if quintet k then
      some (.crt (k.p.getD 0) (k.q.getD 0) (k.dmp.getD 0) (k.dmq.getD 0) (k.coef.getD 0))
    else k.d.map .plain := by
  obtain ⟨n, e, d, p, q, dmp, dmq, coef⟩ := k
  cases p <;> cases q <;> cases dmp <;> cases dmq <;> cases coef <;> rfl

theorem privatePartOf_of_quintet {k : RsaKey} (h : quintet k = true) :
    privatePartOf k = .crt (k.p.getD 0) (k.q.getD 0) (k.dmp.getD 0) (k.dmq.getD 0) (k.coef.getD 0) := by
  simp [privatePartOf, privatePart_eq, h]

theorem privatePartOf_of_not_quintet {k : RsaKey} (h : quintet k = false) :
    privatePartOf k = .plain (k.d.getD 0) := by
  cases hd : k.d <;> simp [privatePartOf, privatePart_eq, h, hd]

theorem privateKey_eq (s : State) : privateKey s =
    runChecks [(privateReady s.rsa, .invalidKey)] >>= fun _ => .ok (s.rsa.n.getD 0, privatePartOf s.rsa) := by
  unfold privateKey privateReady privatePartOf
  rw [privatePart_eq]
  cases s.rsa.n <;> cases quintet s.rsa <;> cases s.rsa.d <;> simp

theorem bne_some_zero {v : Option Nat} (h : v.isSome = true) : (v != some 0) = (v.getD 0 != 0) := by
  obtain ⟨n, rfl⟩ := Option.isSome_iff_exists.mp h
  rfl

theorem privateOp_eq (k : RsaKey) (c : Nat) : privateOp (k.n.getD 0) (privatePartOf k) c =
    runChecks ((decide (c < k.n.getD 0), .valueTooLarge) :: privateGuards k c) >>= fun _ => .ok (privateValue k c) := by
  cases h : quintet k with
  | true =>
    have hpq : k.p.isSome = true ∧ k.q.isSome = true := by simp_all [quintet]
    simp [privatePartOf_of_quintet h, privateOp, crtCombine, privateGuards, privateValue, h, modpow_eq_pow_mod, bind_assoc,
      bne_some_zero hpq.1, bne_some_zero hpq.2]
  | false => simp [privatePartOf_of_not_quintet h, privateOp, privateGuards, privateValue, h, modpow_eq_pow_mod]

end Sys2Proof.Machine
end

section
/-! The RSA key register, the two transforms and the padding commands (spec/41_rsa.md R94 to R104). -/

namespace Sys2Proof.Machine
open Sys2Proof.Spec

/-! ## The key register (spec/41_rsa.md R94, R95) -/

theorem keyComponents_load (k : RsaKey) (i v : Nat) :
    keyComponents (k.load i v) = (keyComponents k).set i (some v) := by
  unfold RsaKey.load
  split
  case h_9 h0 h1 h2 h3 h4 h5 h6 h7 =>
    exact (List.set_eq_of_length_le (show 8 ≤ i by grind)).symm
  all_goals rfl

theorem rsaLoadcompRule_eq (s : State) (x : Args) : rsaLoadcompRule s x =
    update s (runChecks
      [ (srcOk s x, .invalidParameters), (decide (argVal x ≤ 7), .invalidParameters)
      , (decide (srcLen x ≤ s.cfg.bnMax), .outOfMemory) ] >>= fun _ =>
      .ok { s with rsa := s.rsa.load (argVal x) (srcInt s x) }) := by
  simp [rsaLoadcompRule, readInt_src, bind_assoc]

/-- Settles O29: `RsaKey.load` sets its component in the list of the eight, and RSA_CLEARKEY checks nothing. -/
theorem rsaLoadcompAndClearkey : Obligations.RsaLoadcompAndClearkey := by
  refine ⟨decode_encode (i := .rsaLoadcomp) (by decide), decode_encode (i := .rsaClearkey) (by decide), fun s p hp => ?_⟩
  refine ⟨⟨_, keyComponents_load s.rsa (argVal p.args) (srcInt s p.args), ?_⟩,
    ⟨.empty, by simp [keyComponents, RsaKey.empty], exec_pending .rsaClearkey hp⟩⟩
  exact runs_of_update hp (rsaLoadcompRule_eq s p.args)

/-! ## The two transforms (spec/41_rsa.md R98, R99) -/

/-- The checks before a transform of the source: the regions, the key, the operand's width and its value. -/
def transformChecks (s : State) (x : Args) (keyReady : Bool) : List (Bool × Code) :=
  [ (srcOk s x, .invalidParameters), (dstOk s x, .invalidParameters), (keyReady, .invalidKey)
  , (decide (srcLen x ≤ s.cfg.bnMax), .outOfMemory), (decide (srcInt s x < s.rsa.n.getD 0), .valueTooLarge) ]

/-- N and E are present (spec/41_rsa.md R98). -/
def publicReady (k : RsaKey) : Bool := k.n.isSome && k.e.isSome

theorem rsaPublicOut_eq (s : State) (x : Args) : rsaPublicOut s x =
    runChecks (transformChecks s x (publicReady s.rsa) ++
      [(decide (bytelen (s.rsa.n.getD 0) ≤ dstCap x), .bufferTooSmall)]) >>= fun _ =>
      .ok (i2os (srcInt s x ^ s.rsa.e.getD 0 % s.rsa.n.getD 0) (bytelen (s.rsa.n.getD 0))) := by
  simp [rsaPublicOut, transformChecks, publicReady, regions_eq, publicKey_eq, readInt_src, publicOp_eq, bind_assoc]

theorem rsaPrivateOut_eq (s : State) (x : Args) : rsaPrivateOut s x =
    runChecks (transformChecks s x (privateReady s.rsa) ++ privateGuards s.rsa (srcInt s x) ++
      [(decide (bytelen (s.rsa.n.getD 0) ≤ dstCap x), .bufferTooSmall)]) >>= fun _ =>
      .ok (i2os (privateValue s.rsa (srcInt s x)) (bytelen (s.rsa.n.getD 0))) := by
  simp [rsaPrivateOut, transformChecks, regions_eq, privateKey_eq, readInt_src, privateOp_eq, runChecks_append, bind_assoc]

theorem rsaPublic_runs {s : State} {p : Pending} (hp : s.pending = some p) :
    Runs .rsaPublic s
      (transformChecks s p.args (publicReady s.rsa) ++
        [(decide (bytelen (s.rsa.n.getD 0) ≤ dstCap p.args), .bufferTooSmall)])
      (wrote s p (dstAddr p.args)
        (i2os (srcInt s p.args ^ s.rsa.e.getD 0 % s.rsa.n.getD 0) (bytelen (s.rsa.n.getD 0))))
      (failed s p) :=
  runs_of_emit hp (congrArg (emit s p.args) (rsaPublicOut_eq s p.args))

theorem rsaPrivate_runs {s : State} {p : Pending} (hp : s.pending = some p) :
    Runs .rsaPrivate s
      (transformChecks s p.args (privateReady s.rsa) ++ privateGuards s.rsa (srcInt s p.args) ++
        [(decide (bytelen (s.rsa.n.getD 0) ≤ dstCap p.args), .bufferTooSmall)])
      (wrote s p (dstAddr p.args) (i2os (privateValue s.rsa (srcInt s p.args)) (bytelen (s.rsa.n.getD 0))))
      (failed s p) :=
  runs_of_emit hp (congrArg (emit s p.args) (rsaPrivateOut_eq s p.args))

/-- Settles O30: the rule is its checks, then `m^E mod N`. -/
theorem rsaPublicTransform : Obligations.RsaPublicTransform :=
  ⟨decode_encode (i := .rsaPublic) (by decide), fun _ _ hp => rsaPublic_runs hp⟩

/-- Settles O31: the rule is its checks, with the guards of the CRT path among them, then `Private(c)`. -/
theorem rsaPrivateTransform : Obligations.RsaPrivateTransform :=
  ⟨decode_encode (i := .rsaPrivate) (by decide), fun _ _ hp => rsaPrivate_runs hp⟩

/-! ## Blocks (spec/41_rsa.md R100, R101) -/

/-- Discarding the zero draws of the fixed part of the stream. -/
theorem filter_replicate_append (n : Nat) {b : Byte} (hb : b ≠ 0) (q : List Byte) :
    (List.replicate n 0 ++ b :: q).filter (· ≠ 0) = b :: q.filter (· ≠ 0) := by
  rw [List.filter_append, List.filter_cons_of_pos (by simpa using hb)]
  simp

/-- The draw from the fixed part of the stream: zero draws are discarded up to the first nonzero byte. -/
theorem drawQueue_eq_some {q : List Byte} {pos : Nat} {b : Byte} {e : Entropy} (h : drawQueue q pos = some (b, e)) :
    ∃ n, q = List.replicate n 0 ++ b :: e.queue ∧ e.pos = pos + n + 1 := by
  induction q generalizing pos with
  | nil => cases h
  | cons a q ih =>
    simp only [drawQueue] at h
    split at h
    · rename_i ha
      obtain ⟨n, hq, hpos⟩ := ih h
      exact ⟨n + 1, by simp [ha, hq, List.replicate_succ], by omega⟩
    · cases h
      exact ⟨0, rfl, rfl⟩

theorem filter_of_drawQueue_none {q : List Byte} {pos : Nat} (h : drawQueue q pos = none) : q.filter (· ≠ 0) = [] := by
  induction q generalizing pos with
  | nil => rfl
  | cons a q ih =>
    simp only [drawQueue] at h
    split at h
    · rename_i ha
      simpa [ha] using ih h
    · cases h

/-- A draw while the fixed part of the stream holds a nonzero byte takes the first one. -/
theorem Entropy.draw_queue {e : Entropy} (h : e.queue.filter (· ≠ 0) ≠ []) :
    ∃ n, e.queue = List.replicate n 0 ++ e.draw.1 :: e.draw.2.queue ∧ e.draw.2.pos = e.pos + n + 1 := by
  unfold Entropy.draw
  split
  · rename_i hd
    exact drawQueue_eq_some hd
  · rename_i hd
    exact absurd (filter_of_drawQueue_none hd) h

theorem drawMany_succ (n : Nat) (e : Entropy) : Entropy.drawMany (n + 1) e =
    (e.draw.1 :: (Entropy.drawMany n e.draw.2).1, (Entropy.drawMany n e.draw.2).2) := rfl

/-- `n` draws in order give what `Drawn` describes. -/
theorem drawMany_drawn (n : Nat) (e : Entropy) : Drawn e (Entropy.drawMany n e).1 (Entropy.drawMany n e).2 := by
  refine ⟨(Entropy.drawMany_spec n e).2, ?_⟩
  induction n generalizing e with
  | zero => exact fun _ => ⟨[], rfl, rfl, rfl, .inl rfl⟩
  | succ n ih =>
    rw [drawMany_succ]
    intro hlen
    have hb := e.draw_ne_zero
    obtain ⟨m, hq, hpos⟩ := e.draw_queue (by intro h; rw [h] at hlen; simp at hlen)
    rw [hq, filter_replicate_append m hb] at hlen
    obtain ⟨used, hused, hps, hpos', hlast⟩ := ih e.draw.2 (Nat.le_of_succ_le_succ hlen)
    refine ⟨List.replicate m 0 ++ e.draw.1 :: used, ?_, ?_, ?_, .inr ?_⟩
    · rw [hq, List.append_assoc, List.cons_append, ← hused]
    · rw [filter_replicate_append m hb, ← hps]
    · simp only [hpos', hpos, List.length_append, List.length_replicate, List.length_cons]
      omega
    · cases used with
      | nil => simpa using hb
      | cons b bs => simpa using hlast

/-- Both blocks check the same (spec/41_rsa.md R103, R104). -/
theorem padChecks_eq (s : State) (x : Args) : padChecks s x =
    runChecks
      [ (srcOk s x, .invalidParameters), (dstOk s x, .invalidParameters)
      , (decide (srcLen x + 3 ≤ argVal x), .invalidParameters), (decide (argVal x ≤ dstCap x), .bufferTooSmall) ] := by
  simp [padChecks, regions_eq, bind_assoc]

theorem pad1_src (s : State) (x : Args) (k : Nat) : pad1 (srcBytes s x) k = type1 (k - srcLen x - 3) (srcBytes s x) := by
  rw [← length_srcBytes s x]
  rfl

/-- The padding string of a type-2 block of the source, of `k` bytes, and where ENTROPY then stands. -/
def drawPad (s : State) (x : Args) (k : Nat) : List Byte × Entropy := Entropy.drawMany (k - srcLen x - 3) s.entropy

theorem length_drawPad (s : State) (x : Args) (k : Nat) : (drawPad s x k).1.length = k - srcLen x - 3 :=
  (Entropy.drawMany_spec _ _).1

theorem drawPad_drawn (s : State) (x : Args) (k : Nat) : Drawn s.entropy (drawPad s x k).1 (drawPad s x k).2 :=
  drawMany_drawn _ _

theorem pad2_src (s : State) (x : Args) (k : Nat) :
    pad2 s.entropy (srcBytes s x) k = (type2 (drawPad s x k).1 (srcBytes s x), (drawPad s x k).2) := by
  rw [drawPad, ← length_srcBytes s x]
  rfl

/-- Settles O32: both rules are the same checks; the block is `type1` of the source, or `type2` with the bytes drawn. -/
theorem rsaPadBlocks : Obligations.RsaPadBlocks := by
  refine ⟨decode_encode (i := .rsaPad1) (by decide), decode_encode (i := .rsaPad2) (by decide), fun s p hp =>
    ⟨?_, (drawPad s p.args (argVal p.args)).1, (drawPad s p.args (argVal p.args)).2, length_drawPad .., drawPad_drawn .., ?_⟩⟩
  · refine runs_of_emit hp ?_
    rw [ruleOf, rsaPad1Rule, padChecks_eq, pad1_src]
    rfl
  · refine runs_of_emitDrawn hp ?_
    rw [ruleOf, rsaPad2Rule, padChecks_eq, pad2_src]
    rfl

end Sys2Proof.Machine
end

section
/-! Unpadding, the combined operations and the key check (spec/41_rsa.md R102, R105 to R112). -/

namespace Sys2Proof.Machine
open Sys2Proof.Spec

/-! ## Unpad (spec/41_rsa.md R102) -/

theorem unpadRun1_eq_some {block data : List Byte} :
    unpadRun1 block = some data ↔ ∃ n, block = List.replicate n 0xFF ++ 0x00 :: data := by
  constructor
  · intro h
    induction block with
    | nil => cases h
    | cons b rest ih =>
      simp only [unpadRun1] at h
      split at h
      · obtain ⟨n, hn⟩ := ih h
        exact ⟨n + 1, by simp_all [List.replicate_succ]⟩
      · split at h <;> simp_all
  · rintro ⟨n, rfl⟩
    induction n with
    | zero => rfl
    | succ n ih => simpa [List.replicate_succ, unpadRun1] using ih

theorem unpadRun2_eq_some {block data : List Byte} :
    unpadRun2 block = some data ↔ ∃ ps, (∀ b ∈ ps, b ≠ 0) ∧ block = ps ++ 0x00 :: data := by
  constructor
  · intro h
    induction block with
    | nil => cases h
    | cons b rest ih =>
      simp only [unpadRun2] at h
      split at h
      · cases h
        exact ⟨[], by simp, by simp_all⟩
      · obtain ⟨ps, hne, rfl⟩ := ih h
        exact ⟨b :: ps, by simp_all, rfl⟩
  · rintro ⟨ps, hne, rfl⟩
    induction ps with
    | nil => rfl
    | cons b ps ih =>
      simp only [List.forall_mem_cons] at hne
      rw [List.cons_append, unpadRun2, if_neg hne.1, ih hne.2]

theorem type1_eq (n : Nat) (data : List Byte) : type1 n data = 0x00 :: 0x01 :: (List.replicate n 0xFF ++ 0x00 :: data) := by
  simp [type1]

theorem type2_eq (ps data : List Byte) : type2 ps data = 0x00 :: 0x02 :: (ps ++ 0x00 :: data) := by
  simp [type2]

theorem padded_cons_iff {a b : Byte} {rest data : List Byte} : Padded (a :: b :: rest) data ↔
    a = 0x00 ∧ ((b = 0x01 ∧ unpadRun1 rest = some data) ∨ (b = 0x02 ∧ unpadRun2 rest = some data)) := by
  simp only [Padded, type1_eq, type2_eq, unpadRun1_eq_some, unpadRun2_eq_some, List.cons.injEq]
  grind

theorem unpad_cons_eq_ok {a b : Byte} {rest data : List Byte} : unpad (a :: b :: rest) = .ok data ↔
    a = 0x00 ∧ ((b = 0x01 ∧ unpadRun1 rest = some data) ∨ (b = 0x02 ∧ unpadRun2 rest = some data)) := by
  by_cases ha : a = 0#8
  · by_cases h1 : b = 1#8
    · cases h : unpadRun1 rest <;> simp [unpad, ha, h1, h]
    · by_cases h2 : b = 2#8
      · cases h : unpadRun2 rest <;> simp [unpad, ha, h2, h]
      · simp [unpad, ha, h1, h2]
  · simp [unpad, ha]

/-- `Unpad` answers the data of a block, and of nothing else. -/
theorem unpad_eq_ok {block data : List Byte} : unpad block = .ok data ↔ Padded block data := by
  match block with
  | [] => simp [unpad, Padded, type1, type2]
  | [a] => simp [unpad, Padded, type1, type2]
  | a :: b :: rest => rw [padded_cons_iff, unpad_cons_eq_ok]

theorem unpad_eq_error {block : List Byte} (h : ¬ ∃ data, Padded block data) : unpad block = .error .badPadding := by
  cases hu : unpad block with
  | ok data => exact absurd ⟨data, unpad_eq_ok.mp hu⟩ h
  | error code =>
    simp only [unpad] at hu
    split at hu <;> cases hu
    rfl

theorem unpadInto_of_padded {block data : List Byte} (h : Padded block data) (x : Args) : unpadInto x block =
    runChecks [(decide (data.length ≤ dstCap x), .bufferTooSmall)] >>= fun _ => .ok data := by
  simp [unpadInto, unpad_eq_ok.mpr h]

theorem unpadInto_of_not_padded {block : List Byte} (h : ¬ ∃ data, Padded block data) (x : Args) :
    unpadInto x block = .error .badPadding := by
  simp [unpadInto, unpad_eq_error h]

/-- A command that checks and then unpads `block`: its data is written where it fits, and no block is BadPadding. -/
def UnpadRuns (i : Instr) (s : State) (p : Pending) (checks : List (Bool × Code)) (block : List Byte) : Prop :=
  (∀ data, Padded block data →
    Runs i s (checks ++ [(decide (data.length ≤ dstCap p.args), .bufferTooSmall)])
      (wrote s p (dstAddr p.args) data) (failed s p)) ∧
  ((¬ ∃ data, Padded block data) → Runs i s (checks ++ [(false, .badPadding)]) s (failed s p))

theorem runs_of_unpad {i : Instr} {s : State} {p : Pending} {checks : List (Bool × Code)} {block : List Byte}
    (hp : s.pending = some p)
    (h : ruleOf i s p.args = emit s p.args (runChecks checks >>= fun _ => unpadInto p.args block)) :
    UnpadRuns i s p checks block := by
  refine ⟨fun data hdata => runs_of_emit hp ?_, fun hno => runs_of_emit_never hp s ?_⟩
  · rw [h, unpadInto_of_padded hdata, runChecks_append, bind_assoc]
  · rw [h, unpadInto_of_not_padded hno]

/-- Settles O33: the rule checks both regions and unpads the source. -/
theorem rsaUnpadBlocks : Obligations.RsaUnpadBlocks := by
  refine ⟨decode_encode (i := .rsaUnpad) (by decide), fun s p hp => runs_of_unpad (block := srcBytes s p.args) hp ?_⟩
  rw [ruleOf, rsaUnpadRule, regions_eq]
  rfl

/-! ## The combined operations (spec/41_rsa.md R106 to R110) -/

theorem pow_le_of_lt_bytelen {n k : Nat} (h : k < bytelen n) : 256 ^ k ≤ n := by
  by_contra hc
  have := bytelen_le (not_le.mp hc)
  omega

theorem os2i_zero_cons (bs : List Byte) : os2i (0x00 :: bs) = os2i bs := by simp [os2i_cons]

/-- A block starts with a zero byte, so its value is below a modulus as long as the block (spec/41_rsa.md R107). -/
theorem os2i_block_lt {b : Byte} {rest : List Byte} {n : Nat} (h : (0x00 :: b :: rest).length = bytelen n) :
    os2i (0x00 :: b :: rest) < n := by
  have hlt := os2i_lt (b :: rest)
  have hle : 256 ^ (b :: rest).length ≤ n := pow_le_of_lt_bytelen (by rw [← h]; simp)
  rw [os2i_zero_cons]
  exact hlt.trans_le hle

/-- The type-2 block of the source that RSA_PUBENC encrypts (spec/41_rsa.md R107). -/
def encBlock (s : State) (x : Args) : List Byte :=
  type2 (drawPad s x (bytelen (s.rsa.n.getD 0))).1 (srcBytes s x)

/-- The type-1 block of the source that RSA_PRIVENC encrypts (spec/41_rsa.md R109). -/
def sigBlock (s : State) (x : Args) : List Byte :=
  type1 (bytelen (s.rsa.n.getD 0) - srcLen x - 3) (srcBytes s x)

theorem length_type1 (n : Nat) (data : List Byte) : (type1 n data).length = n + data.length + 3 := by
  simp [type1_eq]
  omega

theorem length_type2 (ps data : List Byte) : (type2 ps data).length = ps.length + data.length + 3 := by
  simp [type2_eq]
  omega

theorem length_encBlock {s : State} {x : Args} (h : srcLen x + 3 ≤ bytelen (s.rsa.n.getD 0)) :
    (encBlock s x).length = bytelen (s.rsa.n.getD 0) := by
  rw [encBlock, length_type2, length_drawPad, length_srcBytes]
  omega

theorem length_sigBlock {s : State} {x : Args} (h : srcLen x + 3 ≤ bytelen (s.rsa.n.getD 0)) :
    (sigBlock s x).length = bytelen (s.rsa.n.getD 0) := by
  rw [sigBlock, length_type1, length_srcBytes]
  omega

theorem os2i_encBlock_lt {s : State} {x : Args} (h : srcLen x + 3 ≤ bytelen (s.rsa.n.getD 0)) :
    os2i (encBlock s x) < s.rsa.n.getD 0 := by
  have hlen := length_encBlock h
  rw [encBlock, type2_eq] at hlen ⊢
  exact os2i_block_lt hlen

theorem os2i_sigBlock_lt {s : State} {x : Args} (h : srcLen x + 3 ≤ bytelen (s.rsa.n.getD 0)) :
    os2i (sigBlock s x) < s.rsa.n.getD 0 := by
  have hlen := length_sigBlock h
  rw [sigBlock, type1_eq] at hlen ⊢
  exact os2i_block_lt hlen

/-- The checks before a padded encryption: the regions, the key, the data's length and the capacity. -/
def encryptChecks (s : State) (x : Args) (keyReady : Bool) : List (Bool × Code) :=
  [ (srcOk s x, .invalidParameters), (dstOk s x, .invalidParameters), (keyReady, .invalidKey)
  , (decide (srcLen x + 3 ≤ bytelen (s.rsa.n.getD 0)), .invalidParameters)
  , (decide (bytelen (s.rsa.n.getD 0) ≤ dstCap x), .bufferTooSmall) ]

theorem rsaPubencRule_one (s : State) (x : Args) : rsaPubencRule 1 s x =
    emitDrawn s x (runChecks (encryptChecks s x (publicReady s.rsa)) >>= fun _ =>
      .ok (i2os (os2i (encBlock s x) ^ s.rsa.e.getD 0 % s.rsa.n.getD 0) (bytelen (s.rsa.n.getD 0)),
        (drawPad s x (bytelen (s.rsa.n.getD 0))).2)) := by
  by_cases hlen : srcLen x + 3 ≤ bytelen (s.rsa.n.getD 0)
  · have hlt := os2i_encBlock_lt hlen
    rw [encBlock] at hlt ⊢
    simp [rsaPubencRule, encryptChecks, publicReady, regions_eq, publicKey_eq, publicOp_eq, pad2_src, bind_assoc, hlen, hlt]
  · simp [rsaPubencRule, encryptChecks, publicReady, regions_eq, publicKey_eq, bind_assoc, hlen]

theorem rsaPrivencRule_one (s : State) (x : Args) : rsaPrivencRule 1 s x =
    emit s x (runChecks (encryptChecks s x (privateReady s.rsa) ++ privateGuards s.rsa (os2i (sigBlock s x))) >>= fun _ =>
      .ok (i2os (privateValue s.rsa (os2i (sigBlock s x))) (bytelen (s.rsa.n.getD 0)))) := by
  by_cases hlen : srcLen x + 3 ≤ bytelen (s.rsa.n.getD 0)
  · have hlt := os2i_sigBlock_lt hlen
    rw [sigBlock] at hlt ⊢
    simp [rsaPrivencRule, encryptChecks, regions_eq, privateKey_eq, privateOp_eq, pad1_src, bind_assoc, hlen, hlt]
  · simp [rsaPrivencRule, encryptChecks, regions_eq, privateKey_eq, bind_assoc, hlen]

theorem rsaPrivdecRule_one (s : State) (x : Args) : rsaPrivdecRule 1 s x =
    emit s x (runChecks (transformChecks s x (privateReady s.rsa) ++ privateGuards s.rsa (srcInt s x)) >>= fun _ =>
      unpadInto x (i2os (privateValue s.rsa (srcInt s x)) (bytelen (s.rsa.n.getD 0)))) := by
  simp [rsaPrivdecRule, transformChecks, regions_eq, privateKey_eq, readInt_src, privateOp_eq, bind_assoc]

theorem rsaPubdecRule_one (s : State) (x : Args) : rsaPubdecRule 1 s x =
    emit s x (runChecks (transformChecks s x (publicReady s.rsa)) >>= fun _ =>
      unpadInto x (i2os (srcInt s x ^ s.rsa.e.getD 0 % s.rsa.n.getD 0) (bytelen (s.rsa.n.getD 0)))) := by
  simp [rsaPubdecRule, transformChecks, publicReady, regions_eq, publicKey_eq, readInt_src, publicOp_eq, bind_assoc]

theorem rsaPubenc_runs {s : State} {p : Pending} (hp : s.pending = some p) :
    Runs (.rsaPubenc 1) s (encryptChecks s p.args (publicReady s.rsa))
      (wrote { s with entropy := (drawPad s p.args (bytelen (s.rsa.n.getD 0))).2 } p (dstAddr p.args)
        (i2os (os2i (encBlock s p.args) ^ s.rsa.e.getD 0 % s.rsa.n.getD 0) (bytelen (s.rsa.n.getD 0))))
      (failed s p) :=
  runs_of_emitDrawn hp (rsaPubencRule_one s p.args)

theorem rsaPrivenc_runs {s : State} {p : Pending} (hp : s.pending = some p) :
    Runs (.rsaPrivenc 1) s
      (encryptChecks s p.args (privateReady s.rsa) ++ privateGuards s.rsa (os2i (sigBlock s p.args)))
      (wrote s p (dstAddr p.args) (i2os (privateValue s.rsa (os2i (sigBlock s p.args))) (bytelen (s.rsa.n.getD 0))))
      (failed s p) :=
  runs_of_emit hp (rsaPrivencRule_one s p.args)

theorem rsaPrivdec_runs {s : State} {p : Pending} (hp : s.pending = some p) :
    UnpadRuns (.rsaPrivdec 1) s p
      (transformChecks s p.args (privateReady s.rsa) ++ privateGuards s.rsa (srcInt s p.args))
      (i2os (privateValue s.rsa (srcInt s p.args)) (bytelen (s.rsa.n.getD 0))) :=
  runs_of_unpad hp (rsaPrivdecRule_one s p.args)

theorem rsaPubdec_runs {s : State} {p : Pending} (hp : s.pending = some p) :
    UnpadRuns (.rsaPubdec 1) s p (transformChecks s p.args (publicReady s.rsa))
      (i2os (srcInt s p.args ^ s.rsa.e.getD 0 % s.rsa.n.getD 0) (bytelen (s.rsa.n.getD 0))) :=
  runs_of_unpad hp (rsaPubdecRule_one s p.args)

/-- Commands whose rules are the same do the same. -/
theorem exec_congr {i j : Instr} {s : State} (h : ruleOf i s = ruleOf j s) : exec i s = exec j s := by
  rw [exec_eq_runCommand, exec_eq_runCommand, h]

/-- A selector of 2 or more is no padding, whatever else may be wrong (spec/41_rsa.md R106). -/
theorem exec_unsupportedPadding {i : Instr} {s : State} {p : Pending} (hp : s.pending = some p)
    (h : ruleOf i s p.args = .raise .unsupportedPadding s) : exec i s = .next (failed s p .unsupportedPadding) := by
  rw [exec_pending i hp, h]
  rfl

/-- Settles O34: S decides which rule runs; with S = 1 the block's value is below N, so the transform cannot fail. -/
theorem rsaPublicEncrypt : Obligations.RsaPublicEncrypt :=
  ⟨fun pad h => decode_opcode_selector (i := .rsaPubenc pad) h, fun s p hp =>
    ⟨fun _ h => exec_unsupportedPadding hp (if_pos h), exec_congr rfl,
      (drawPad s p.args (bytelen (s.rsa.n.getD 0))).1, (drawPad s p.args (bytelen (s.rsa.n.getD 0))).2,
      length_drawPad .., drawPad_drawn .., rsaPubenc_runs hp⟩⟩

/-- Settles O35: S decides which rule runs; with S = 1 it is the checks of RSA_PRIVATE, then the unpadding. -/
theorem rsaPrivateDecrypt : Obligations.RsaPrivateDecrypt :=
  ⟨fun pad h => decode_opcode_selector (i := .rsaPrivdec pad) h, fun _ _ hp =>
    ⟨fun _ h => exec_unsupportedPadding hp (if_pos h), exec_congr rfl, rsaPrivdec_runs hp⟩⟩

/-- Settles O36: S decides which rule runs; with S = 1 the block's value is below N, so only the CRT guards can fail. -/
theorem rsaPrivateEncrypt : Obligations.RsaPrivateEncrypt :=
  ⟨fun pad h => decode_opcode_selector (i := .rsaPrivenc pad) h, fun _ _ hp =>
    ⟨fun _ h => exec_unsupportedPadding hp (if_pos h), exec_congr rfl, rsaPrivenc_runs hp⟩⟩

/-- Settles O37: S decides which rule runs; with S = 1 it is the checks of RSA_PUBLIC, then the unpadding. -/
theorem rsaPublicDecrypt : Obligations.RsaPublicDecrypt :=
  ⟨fun pad h => decode_opcode_selector (i := .rsaPubdec pad) h, fun _ _ hp =>
    ⟨fun _ h => exec_unsupportedPadding hp (if_pos h), exec_congr rfl, rsaPubdec_runs hp⟩⟩

/-! ## The key check (spec/41_rsa.md R112) -/

theorem exponentAgrees_eq (d crt : Option Nat) (prime : Nat) :
    exponentAgrees d crt prime = (d.isNone || crt.isNone || d.getD 0 % (prime - 1) == crt.getD 0) := by
  cases d <;> cases crt <;> simp [exponentAgrees]

theorem coefAgrees_eq (coef : Option Nat) (q p : Nat) :
    coefAgrees coef q p = (coef.isSome && decide (coef.getD 0 < p) && q * coef.getD 0 % p == 1) := by
  cases coef <;> simp [coefAgrees, isInv]

theorem publicOnly_eq (k : RsaKey) :
    k.publicOnly = [k.d, k.p, k.q, k.dmp, k.dmq, k.coef].all (·.isNone) := by
  simp [RsaKey.publicOnly, Bool.and_assoc]

/-- Checks (1) and (2) of RSA_CHECKKEY: the public components. -/
def basicChecks (k : RsaKey) : List (Bool × Code) :=
  [(k.n.isSome && k.e.isSome, .invalidKey), (k.e.getD 0 % 2 != 0 && k.e.getD 0 != 1, .keyInconsistent)]

/-- Check (3) of RSA_CHECKKEY: both factors or none. -/
def factorChecks (k : RsaKey) : List (Bool × Code) := [(k.p.isSome == k.q.isSome, .keyInconsistent)]

/-- Checks (4) to (8) of RSA_CHECKKEY: a key with both factors. -/
def fullChecks (k : RsaKey) : List (Bool × Code) :=
  [ (primeTest (k.p.getD 0) && primeTest (k.q.getD 0), .primeCheckFailed)
  , (k.p.getD 0 * k.q.getD 0 == k.n.getD 0, .keyInconsistent)
  , (k.d.isNone || k.dmp.isNone || k.d.getD 0 % (k.p.getD 0 - 1) == k.dmp.getD 0, .keyInconsistent)
  , (k.d.isNone || k.dmq.isNone || k.d.getD 0 % (k.q.getD 0 - 1) == k.dmq.getD 0, .keyInconsistent)
  , (k.coef.isSome && decide (k.coef.getD 0 < k.p.getD 0) && k.q.getD 0 * k.coef.getD 0 % k.p.getD 0 == 1,
      .keyInconsistent) ]

/-- Checks (3) to (8) of RSA_CHECKKEY, as far as the key has the components they are about. -/
def privateChecks (k : RsaKey) : List (Bool × Code) :=
  if k.publicOnly then [] else if k.p.isNone then factorChecks k else factorChecks k ++ fullChecks k

theorem checkKey_eq (k : RsaKey) : checkKey k =
    runChecks (basicChecks k ++ privateChecks k) >>= fun _ => .ok (if k.publicOnly then 2 else 1) := by
  obtain ⟨n, e, d, p, q, dmp, dmq, coef⟩ := k
  cases n with
  | none => simp [checkKey, basicChecks]
  | some n =>
    cases e with
    | none => simp [checkKey, basicChecks]
    | some e =>
      by_cases hpublic : RsaKey.publicOnly ⟨some n, some e, d, p, q, dmp, dmq, coef⟩ = true
      · simp [checkKey, basicChecks, privateChecks, hpublic]
      · cases p <;> cases q <;>
          simp [checkKey, basicChecks, privateChecks, hpublic, factorChecks, fullChecks, exponentAgrees_eq, coefAgrees_eq,
            bind_assoc]

/-- Settles O38: the rule is its checks, (3) to (8) as far as the key's components call for them. -/
theorem rsaKeyCheck : Obligations.RsaKeyCheck := by
  refine ⟨decode_encode (i := .rsaCheckkey) (by decide), fun s p hp => ?_⟩
  have hrun := runs_of_report (i := .rsaCheckkey) hp (congrArg (report s) (checkKey_eq s.rsa))
  have hlist : basicChecks s.rsa ++ privateChecks s.rsa =
      if s.rsa.publicOnly then basicChecks s.rsa
      else if s.rsa.p.isNone then basicChecks s.rsa ++ factorChecks s.rsa
      else basicChecks s.rsa ++ factorChecks s.rsa ++ fullChecks s.rsa := by
    unfold privateChecks
    split_ifs <;> simp
  rw [hlist, publicOnly_eq] at hrun
  exact hrun

end Sys2Proof.Machine
end

section
/-! The arithmetic of a consistent RSA key (spec/41_rsa.md R97, R113): exponents modulo a prime, the CRT recombination, and
the inverse of one transform by the other. -/

namespace Sys2Proof.Machine
open Sys2Proof.Spec

/-! ## Exponents modulo a prime -/

/-- Exponents that agree modulo `p − 1` give the same power modulo `p`; for a multiple of `p`, both must be nonzero. -/
theorem pow_modEq_pow {p a b c : Nat} (hp : p.Prime) (h : a ≡ b [MOD p - 1]) (hdvd : p ∣ c → a ≠ 0 ∧ b ≠ 0) :
    c ^ a ≡ c ^ b [MOD p] := by
  by_cases hc : p ∣ c
  · obtain ⟨ha, hb⟩ := hdvd hc
    exact (Nat.modEq_zero_iff_dvd.mpr (dvd_pow hc ha)).trans (Nat.modEq_zero_iff_dvd.mpr (dvd_pow hc hb)).symm
  · have := Fact.mk hp
    have hne : (c : ZMod p) ≠ 0 := by rwa [Ne, ZMod.natCast_eq_zero_iff]
    rw [← ZMod.natCast_eq_natCast_iff]
    push_cast
    exact pow_eq_pow_of_modEq h (ZMod.pow_card_sub_one_eq_one hne)

/-- What is 1 modulo `p − 1` is not 0 there, but for `p = 2`. -/
theorem mod_pred_ne_zero {p a : Nat} (hp : p.Prime) (hp2 : p ≠ 2) (h : a ≡ 1 [MOD p - 1]) : a % (p - 1) ≠ 0 := by
  intro h0
  have hdvd : p - 1 ∣ 1 := Nat.modEq_zero_iff_dvd.mp (h.symm.trans h0)
  have hle := Nat.le_of_dvd Nat.one_pos hdvd
  have := hp.two_le
  omega

/-- The CRT exponent does modulo its prime what D does (spec/41_rsa.md R97). -/
theorem pow_crtExponent_modEq {p e d c : Nat} (hp : p.Prime) (hed : e * d ≡ 1 [MOD p - 1]) (hodd : p = 2 → c % 2 = 1) :
    c ^ (d % (p - 1)) ≡ c ^ d [MOD p] := by
  refine pow_modEq_pow hp (Nat.mod_modEq d (p - 1)) fun hdvd => ?_
  have hp2 : p ≠ 2 := by
    rintro rfl
    have := hodd rfl
    omega
  have hne : d % (p - 1) ≠ 0 := fun h0 => mod_pred_ne_zero hp hp2 hed (by simp [Nat.mul_mod, h0])
  exact ⟨hne, fun h0 => hne (by simp [h0])⟩

/-! ## The CRT recombination -/

/-- `h·q + m2` with `h = coef·(m1 − m2) mod p` (spec/41_rsa.md R97). -/
def recombine (p q coef m1 m2 : Nat) : Nat := (((coef : Int) * ((m1 : Int) - (m2 : Int))) % (p : Int)).toNat * q + m2

theorem privateValue_of_quintet {k : RsaKey} (h : quintet k = true) (c : Nat) : privateValue k c =
    recombine (k.p.getD 0) (k.q.getD 0) (k.coef.getD 0) (c ^ k.dmp.getD 0 % k.p.getD 0) (c ^ k.dmq.getD 0 % k.q.getD 0) :=
  if_pos h

theorem recombine_modEq_left {p q coef : Nat} (hp : p ≠ 0) (hinv : q * coef % p = 1) (m1 m2 : Nat) :
    recombine p q coef m1 m2 ≡ m1 [MOD p] := by
  have hnonneg := Int.emod_nonneg ((coef : Int) * ((m1 : Int) - (m2 : Int))) (Int.natCast_ne_zero.mpr hp)
  have hone : (q * coef : ZMod p) = 1 := by
    have := congrArg (Nat.cast (R := ZMod p)) hinv
    simpa using this
  rw [← ZMod.natCast_eq_natCast_iff, recombine]
  have hcast (z : Int) (hz : 0 ≤ z) : ((z.toNat : Nat) : ZMod p) = (z : ZMod p) := by
    rw [← Int.cast_natCast, Int.toNat_of_nonneg hz]
  push_cast [hcast _ hnonneg, ZMod.intCast_mod]
  linear_combination ((m1 : ZMod p) - m2) * hone

theorem recombine_modEq_right (p q coef m1 m2 : Nat) : recombine p q coef m1 m2 ≡ m2 [MOD q] := by
  simp [recombine, Nat.ModEq]

theorem recombine_lt {p q m2 : Nat} (hp : p ≠ 0) (hm : m2 < q) (coef m1 : Nat) : recombine p q coef m1 m2 < p * q := by
  have hlt := Int.emod_lt_of_pos ((coef : Int) * ((m1 : Int) - (m2 : Int))) (Int.natCast_pos.mpr (Nat.pos_of_ne_zero hp))
  have hle : (((coef : Int) * ((m1 : Int) - (m2 : Int))) % (p : Int)).toNat + 1 ≤ p := by omega
  calc recombine p q coef m1 m2
    _ < ((((coef : Int) * ((m1 : Int) - (m2 : Int))) % (p : Int)).toNat + 1) * q := by rw [recombine, Nat.succ_mul]; omega
    _ ≤ p * q := Nat.mul_le_mul_right q hle

/-! ## What a consistent key computes -/

/-- The parts of `Consistent`, with the exponents inverse to each other modulo each prime's predecessor. -/
structure ConsistentKey (k : RsaKey) (n e d p q : Nat) : Prop where
  prime_p  : p.Prime
  prime_q  : q.Prime
  distinct : p ≠ q
  n_eq     : n = p * q
  mod_p    : e * d ≡ 1 [MOD p - 1]
  mod_q    : e * d ≡ 1 [MOD q - 1]
  modulus  : k.n = some n
  exponent : k.e = some e
  secret   : (quintet k = false ∧ k.d = some d) ∨
    (k.p = some p ∧ k.q = some q ∧ k.dmp = some (d % (p - 1)) ∧ k.dmq = some (d % (q - 1)) ∧
      ∃ c, k.coef = some c ∧ c < p ∧ q * c % p = 1)

theorem consistentKey_of_consistent {k : RsaKey} {n e d p q : Nat} (h : Consistent k n e d p q) :
    ConsistentKey k n e d p q := by
  obtain ⟨hp, hq, hne, hn, hed, hkn, hke, hsecret⟩ := h
  exact ⟨hp, hq, hne, hn, Nat.ModEq.of_dvd (Nat.dvd_lcm_left _ _) hed, Nat.ModEq.of_dvd (Nat.dvd_lcm_right _ _) hed,
    hkn, hke, hsecret⟩

namespace ConsistentKey
variable {k : RsaKey} {n e d p q : Nat} (h : ConsistentKey k n e d p q)
include h

/-- Congruent modulo both primes is congruent modulo N. -/
theorem modEq_n {a b : Nat} (hp : a ≡ b [MOD p]) (hq : a ≡ b [MOD q]) : a ≡ b [MOD n] := by
  rw [h.n_eq]
  exact (Nat.modEq_and_modEq_iff_modEq_mul ((Nat.coprime_primes h.prime_p h.prime_q).mpr h.distinct)).mp ⟨hp, hq⟩

theorem n_pos : 0 < n := h.n_eq ▸ Nat.mul_pos h.prime_p.pos h.prime_q.pos

/-- The primes are not both 2, so `e·d` is 1 modulo more than 1. -/
theorem exponents_ne_zero : e * d ≠ 0 := by
  intro h0
  by_cases hp2 : p = 2
  · have hq2 : q ≠ 2 := hp2 ▸ h.distinct.symm
    exact mod_pred_ne_zero h.prime_q hq2 h.mod_q (by simp [h0])
  · exact mod_pred_ne_zero h.prime_p hp2 h.mod_p (by simp [h0])

/-- The two exponents after each other do nothing (spec/41_rsa.md R113). -/
theorem pow_exponents {m : Nat} (hm : m < n) : m ^ (e * d) % n = m := by
  have hne : ∀ r, r ∣ m → e * d ≠ 0 ∧ 1 ≠ 0 := fun _ _ => ⟨h.exponents_ne_zero, one_ne_zero⟩
  have hmod : m ^ (e * d) ≡ m ^ 1 [MOD n] :=
    h.modEq_n (pow_modEq_pow h.prime_p h.mod_p (hne p)) (pow_modEq_pow h.prime_q h.mod_q (hne q))
  rw [pow_one] at hmod
  exact Eq.trans hmod (Nat.mod_eq_of_lt hm)

theorem pow_e_pow_d {m : Nat} (hm : m < n) : (m ^ e % n) ^ d % n = m := by
  rw [← Nat.pow_mod, ← pow_mul, h.pow_exponents hm]

theorem pow_d_pow_e {m : Nat} (hm : m < n) : (m ^ d % n) ^ e % n = m := by
  rw [← Nat.pow_mod, ← pow_mul, Nat.mul_comm, h.pow_exponents hm]

/-- What the quintet of a consistent key is. -/
theorem quintet_eq (hk : quintet k = true) : k.p = some p ∧ k.q = some q ∧ k.dmp = some (d % (p - 1)) ∧
    k.dmq = some (d % (q - 1)) ∧ ∃ c, k.coef = some c ∧ c < p ∧ q * c % p = 1 := by
  rcases h.secret with ⟨hno, -⟩ | hcrt
  · simp [hk] at hno
  · exact hcrt

theorem d_eq_some (hk : quintet k = false) : k.d = some d := by
  rcases h.secret with ⟨-, hd⟩ | ⟨hp, hq, hdmp, hdmq, c, hc, -⟩
  · exact hd
  · simp [quintet, hp, hq, hdmp, hdmq, hc] at hk

/-- The CRT formula of R97 computes `c^D mod N`, where `CrtExact` says so. -/
theorem privateValue_eq {c : Nat} (hexact : CrtExact k p q c) : privateValue k c = c ^ d % n := by
  cases hk : quintet k with
  | false => simp [privateValue, hk, h.d_eq_some hk, h.modulus]
  | true =>
    obtain ⟨hp, hq, hdmp, hdmq, coef, hcoef, -, hinv⟩ := h.quintet_eq hk
    have hleft := (recombine_modEq_left h.prime_p.ne_zero hinv (c ^ (d % (p - 1)) % p) (c ^ (d % (q - 1)) % q)).trans <|
      (Nat.mod_modEq _ _).trans (pow_crtExponent_modEq h.prime_p h.mod_p fun hp2 => hexact hk (.inl hp2))
    have hright := (recombine_modEq_right p q coef (c ^ (d % (p - 1)) % p) (c ^ (d % (q - 1)) % q)).trans <|
      (Nat.mod_modEq _ _).trans (pow_crtExponent_modEq h.prime_q h.mod_q fun hq2 => hexact hk (.inr hq2))
    have hlt := recombine_lt h.prime_p.ne_zero (Nat.mod_lt (c ^ (d % (q - 1))) h.prime_q.pos) coef (c ^ (d % (p - 1)) % p)
    simp only [privateValue_of_quintet hk, hp, hq, hdmp, hdmq, hcoef, Option.getD_some]
    rw [← h.modEq_n hleft hright, Nat.mod_eq_of_lt (hlt.trans_eq h.n_eq.symm)]

end ConsistentKey

/-- With key `k`, RSA_PRIVATE raises `c` to the power `d` modulo `n`, and no check on the key stops it. -/
structure Raises (k : RsaKey) (n d c : Nat) : Prop where
  modulus : k.n = some n
  ready   : privateReady k = true
  guards  : ∀ g ∈ privateGuards k c, g.1 = true
  value   : privateValue k c = c ^ d % n

theorem privateGuards_pass {k : RsaKey} {c : Nat}
    (h : quintet k = true → k.p ≠ some 0 ∧ k.q ≠ some 0 ∧ privateValue k c < 256 ^ bytelen (k.n.getD 0)) :
    ∀ g ∈ privateGuards k c, g.1 = true := by
  cases hk : quintet k with
  | false => simp [privateGuards, hk]
  | true => simpa [privateGuards, hk, and_assoc] using h hk

theorem ConsistentKey.raises {k : RsaKey} {n e d p q c : Nat} (h : ConsistentKey k n e d p q) (hexact : CrtExact k p q c) :
    Raises k n d c where
  modulus := h.modulus
  ready := by
    cases hk : quintet k with
    | false => simp [privateReady, h.modulus, h.d_eq_some hk]
    | true => simp [privateReady, h.modulus, hk]
  guards := privateGuards_pass fun hk => by
    obtain ⟨hp, hq, -⟩ := h.quintet_eq hk
    rw [hp, hq, h.modulus, h.privateValue_eq hexact]
    exact ⟨by simpa using h.prime_p.ne_zero, by simpa using h.prime_q.ne_zero,
      (Nat.mod_lt _ h.n_pos).trans (lt_pow_bytelen n)⟩
  value := h.privateValue_eq hexact

/-- A key of N and D alone. -/
def plainKey (n d : Nat) : RsaKey := { RsaKey.empty with n := some n, d := some d }

theorem plainKey_raises (n d c : Nat) : Raises (plainKey n d) n d c :=
  ⟨rfl, rfl, privateGuards_pass fun hk => absurd hk (by simp [quintet, plainKey, RsaKey.empty]), rfl⟩

end Sys2Proof.Machine
end

section
/-! With a consistent key the transforms invert each other, and the CRT path does what plain exponentiation does
(spec/41_rsa.md R113). -/

namespace Sys2Proof.Machine
open Sys2Proof.Spec

theorem runChecks_of_pass {checks : List (Bool × Code)} (h : ∀ c ∈ checks, c.1 = true) : runChecks checks = .ok () :=
  runChecks_of_none (firstFailing_eq_none.mpr h)

/-! ## The CRT path and plain exponentiation -/

/-- The checks of RSA_PRIVATE that are not about the key (spec/41_rsa.md R99). -/
def privateOperandChecks (s : State) (x : Args) (n : Nat) : List (Bool × Code) :=
  [ (srcOk s x, .invalidParameters), (dstOk s x, .invalidParameters)
  , (decide (srcLen x ≤ s.cfg.bnMax), .outOfMemory), (decide (srcInt s x < n), .valueTooLarge)
  , (decide (bytelen n ≤ dstCap x), .bufferTooSmall) ]

theorem rsaPrivateOut_of_raises {s : State} {x : Args} {n d : Nat} (h : Raises s.rsa n d (srcInt s x)) :
    rsaPrivateOut s x =
      runChecks (privateOperandChecks s x n) >>= fun _ => .ok (i2os (srcInt s x ^ d % n) (bytelen n)) := by
  simp [rsaPrivateOut_eq, runChecks_append, runChecks_of_pass h.guards, transformChecks, privateOperandChecks, h.ready,
    h.modulus, h.value, bind_assoc]

/-- `s` with another key register. -/
def State.withKey (k : RsaKey) (s : State) : State := { s with rsa := k }

theorem complete_withKey (p : Pending) (r : CmdResult) (k : RsaKey) :
    complete p (r.mapState (State.withKey k)) = (complete p r).withKey k := by
  cases r <;> rfl

/-- Settles O39: both keys raise the operand to the power D, so the rule ends the same but for the key. -/
theorem crtEqualsPlainExponentiation : Obligations.CrtEqualsPlainExponentiation := by
  intro s t pd n e d p q hp hkey _ hexact h
  have hcrt : Raises s.rsa n d (srcInt s pd.args) := (consistentKey_of_consistent hkey).raises hexact
  have hout : rsaPrivateOut (s.withKey (plainKey n d)) pd.args = rsaPrivateOut s pd.args :=
    (rsaPrivateOut_of_raises (plainKey_raises n d _)).trans (rsaPrivateOut_of_raises hcrt).symm
  have hrule : ruleOf .rsaPrivate (s.withKey (plainKey n d)) pd.args =
      (ruleOf .rsaPrivate s pd.args).mapState (State.withKey (plainKey n d)) :=
    (congrArg (emit _ pd.args) hout).trans (emit_mapState pd.args _)
  rw [exec_pending _ hp] at h
  cases h
  have hrun := exec_pending .rsaPrivate (s := s.withKey (plainKey n d)) hp
  rwa [hrule, complete_withKey] at hrun

/-! ## One command's output is the next one's source -/

/-- A pending command that ended with OK passed its checks. -/
theorem runs_ok {i : Instr} {s t onOk : State} {p : Pending} {checks : List (Bool × Code)}
    (h : Runs i s checks onOk (failed s p)) (hcodes : .ok ∉ checks.map Prod.snd) (hexec : exec i s = .next t)
    (hcode : t.lastCode = .ok) : (∀ c ∈ checks, c.1 = true) ∧ t = onOk := by
  obtain ⟨hok, hfail⟩ := h
  cases hf : firstFailing checks with
  | none =>
    rw [hok hf] at hexec
    cases hexec
    exact ⟨firstFailing_eq_none.mp hf, rfl⟩
  | some code =>
    rw [hfail code hf] at hexec
    cases hexec
    obtain rfl : code = .ok := hcode
    exact absurd (mem_of_runChecks_error (runChecks_of_some hf)) hcodes

theorem transformChecks_spec {s : State} {x : Args} {keyReady : Bool}
    (h : ∀ c ∈ transformChecks s x keyReady, c.1 = true) : dstOk s x = true ∧ srcInt s x < s.rsa.n.getD 0 := by
  simp only [transformChecks, List.forall_mem_cons, decide_eq_true_eq] at h
  obtain ⟨-, hdst, -, -, hlt, -⟩ := h
  exact ⟨hdst, hlt⟩

theorem encryptChecks_spec {s : State} {x : Args} {keyReady : Bool} (h : ∀ c ∈ encryptChecks s x keyReady, c.1 = true) :
    dstOk s x = true ∧ srcLen x + 3 ≤ bytelen (s.rsa.n.getD 0) ∧ bytelen (s.rsa.n.getD 0) ≤ dstCap x := by
  simp only [encryptChecks, List.forall_mem_cons, decide_eq_true_eq] at h
  obtain ⟨-, hdst, -, hlen, hcap, -⟩ := h
  exact ⟨hdst, hlen, hcap⟩

/-- `t` is what a command with ARG snapshot `y` made of `s` when it wrote `out`: key and configuration stand, and the bytes
reported are the output. -/
structure Wrote (s t : State) (y : Args) (out : List Byte) : Prop where
  wf     : t.Wf
  cfg    : t.cfg = s.cfg
  rsa    : t.rsa = s.rsa
  fits   : dstAddr y + out.length ≤ s.cfg.dramSize
  code   : t.lastCode = .ok
  count  : t.bytesWritten.toNat = out.length
  bytes  : t.ram.readBytes (dstAddr y) out.length = out

theorem wrote_spec {s : State} (hs : s.Wf) {p : Pending} {out : List Byte} (hdst : dstOk s p.args = true)
    (hlen : out.length ≤ dstCap p.args) (e : Entropy) :
    Wrote s (wrote { s with entropy := e } p (dstAddr p.args) out) p.args out := by
  have hin := dst_le hdst hlen
  have hcap : dstCap p.args < 2 ^ 32 := p.args[3].isLt
  have hsound : (CmdResult.ok { s with entropy := e } (dstAddr p.args) out 0).Sound := ⟨hs.withEntropy e, hin, by simp⟩
  exact ⟨complete_wf p hsound, rfl, rfl, hin, rfl, toNat_ofNat_of_lt (by omega), Memory.readBytes_writeBytes hs.ram out hin⟩

/-- The state before the next command: its source is the output just written (spec/41_rsa.md R113). -/
def State.thenRun (t : State) (w : Word) (x : Args) : State := { t with pending := some ⟨w, x⟩ }

theorem Wrote.wf_next {s t : State} {y : Args} {out : List Byte} (h : Wrote s t y out) (w : Word) (x : Args) :
    (t.thenRun w x).Wf := { h.wf with }

section Next
variable {s t : State} {y : Args} {n c : Nat} (h : Wrote s t y (i2os c (bytelen n))) (hc : c < n) {w : Word} {x : Args}
  (hsrc : x[0] = y[2]) (hlen : x[1].toNat = bytelen n)
include h hc hsrc hlen

/-- The next command reads back the number that was written. -/
theorem Wrote.srcInt_next : srcInt (t.thenRun w x) x = c := by
  have hread : srcBytes (t.thenRun w x) x = i2os c (bytelen n) := by
    have hbytes := h.bytes
    rw [length_i2os] at hbytes
    rw [srcBytes, show srcAddr x = dstAddr y from congrArg BitVec.toNat hsrc, show srcLen x = bytelen n from hlen]
    exact hbytes
  rw [srcInt, hread, os2i_i2os c _ (hc.trans (lt_pow_bytelen n))]

/-- The next command's checks before its transform pass. -/
theorem Wrote.transformChecks_next (hn : s.rsa.n = some n) (hdst : inside s x[2] x[3] = true) {keyReady : Bool}
    (hready : keyReady = true) : ∀ g ∈ transformChecks (t.thenRun w x) x keyReady, g.1 = true := by
  have hfits := h.fits
  rw [length_i2os] at hfits
  have hkey : t.rsa.n = some n := h.rsa ▸ hn
  have hcfg : (t.thenRun w x).cfg = s.cfg := h.cfg
  have hwidth : bytelen n ≤ t.cfg.bnMax := bytelen_le (fits_some.mp (hkey ▸ h.wf.rsa t.rsa.n (by simp)))
  have hsrcOk : srcOk (t.thenRun w x) x = true := by
    rw [srcOk, region, hcfg, show srcAddr x = dstAddr y from congrArg BitVec.toNat hsrc, show srcLen x = bytelen n from hlen]
    exact decide_eq_true hfits
  have hdstOk : dstOk (t.thenRun w x) x = true := by
    rw [dstOk, region, hcfg]
    exact hdst
  have hvalue : srcInt (t.thenRun w x) x < (t.thenRun w x).rsa.n.getD 0 := by
    rw [h.srcInt_next hc hsrc hlen, show (t.thenRun w x).rsa.n = some n from hkey]
    exact hc
  have hsrcLen : srcLen x ≤ (t.thenRun w x).cfg.bnMax := hlen.trans_le hwidth
  simp [transformChecks, hsrcOk, hdstOk, hready, hvalue, hsrcLen]

/-- As the next command, RSA_PRIVATE's transform passes its checks, and raises the number that was written. -/
theorem Wrote.private_next (hdst : inside s x[2] x[3] = true) {d : Nat} (hraises : Raises s.rsa n d c) :
    privateValue (t.thenRun w x).rsa (srcInt (t.thenRun w x) x) = c ^ d % n ∧
    ∀ g ∈ transformChecks (t.thenRun w x) x (privateReady (t.thenRun w x).rsa) ++
      privateGuards (t.thenRun w x).rsa (srcInt (t.thenRun w x) x), g.1 = true := by
  have hrsa : (t.thenRun w x).rsa = s.rsa := h.rsa
  rw [h.srcInt_next hc hsrc hlen, hrsa]
  exact ⟨hraises.value, List.forall_mem_append.mpr
    ⟨h.transformChecks_next hc hsrc hlen hraises.modulus hdst hraises.ready, hraises.guards⟩⟩

/-- RSA_PRIVATE as the next command writes the power D of the number. -/
theorem Wrote.rsaPrivate_next (hdst : inside s x[2] x[3] = true) {d : Nat} (hraises : Raises s.rsa n d c)
    (hcap : bytelen n ≤ dstCap x) : ∃ u, exec .rsaPrivate (t.thenRun w x) = .next u ∧
      Wrote (t.thenRun w x) u x (i2os (c ^ d % n) (bytelen n)) := by
  obtain ⟨hvalue, hchecks⟩ := h.private_next hc hsrc hlen hdst (w := w) hraises
  obtain ⟨hdstOk, -⟩ := transformChecks_spec (List.forall_mem_append.mp hchecks).1
  have hn : (t.thenRun w x).rsa.n.getD 0 = n := by rw [State.thenRun, h.rsa, hraises.modulus, Option.getD_some]
  have hrun := (rsaPrivate_runs (s := t.thenRun w x) rfl).1 <| firstFailing_eq_none.mpr <|
    List.forall_mem_append.mpr ⟨hchecks, by rw [hn]; simpa using hcap⟩
  rw [hvalue, hn] at hrun
  exact ⟨_, hrun, wrote_spec (h.wf_next w x) (p := ⟨w, x⟩) hdstOk (by rwa [length_i2os]) _⟩

/-- RSA_PRIVDEC with S = 1 as the next command writes the data of the block that the power D of the number is. -/
theorem Wrote.rsaPrivdec_next (hdst : inside s x[2] x[3] = true) {d : Nat} (hraises : Raises s.rsa n d c)
    {data : List Byte} (hdata : Padded (i2os (c ^ d % n) (bytelen n)) data) (hcap : data.length ≤ dstCap x) :
    ∃ u, exec (.rsaPrivdec 1) (t.thenRun w x) = .next u ∧ Wrote (t.thenRun w x) u x data := by
  obtain ⟨hvalue, hchecks⟩ := h.private_next hc hsrc hlen hdst (w := w) hraises
  obtain ⟨hdstOk, -⟩ := transformChecks_spec (List.forall_mem_append.mp hchecks).1
  have hn : (t.thenRun w x).rsa.n.getD 0 = n := by rw [State.thenRun, h.rsa, hraises.modulus, Option.getD_some]
  have hruns := (rsaPrivdec_runs (s := t.thenRun w x) (p := ⟨w, x⟩) rfl).1 data (by rwa [hvalue, hn])
  have hrun := hruns.1 <| firstFailing_eq_none.mpr <| List.forall_mem_append.mpr ⟨hchecks, by simpa using hcap⟩
  exact ⟨_, hrun, wrote_spec (h.wf_next w x) (p := ⟨w, x⟩) hdstOk hcap _⟩

/-- RSA_PUBDEC with S = 1 as the next command writes the data of the block that the power E of the number is. -/
theorem Wrote.rsaPubdec_next (hdst : inside s x[2] x[3] = true) {e : Nat} (hn : s.rsa.n = some n) (he : s.rsa.e = some e)
    {data : List Byte} (hdata : Padded (i2os (c ^ e % n) (bytelen n)) data) (hcap : data.length ≤ dstCap x) :
    ∃ u, exec (.rsaPubdec 1) (t.thenRun w x) = .next u ∧ Wrote (t.thenRun w x) u x data := by
  have hrsa : (t.thenRun w x).rsa = s.rsa := h.rsa
  have hchecks := h.transformChecks_next hc hsrc hlen (w := w) hn hdst (keyReady := publicReady (t.thenRun w x).rsa)
    (by simp [publicReady, hrsa, hn, he])
  obtain ⟨hdstOk, -⟩ := transformChecks_spec hchecks
  have hruns := (rsaPubdec_runs (s := t.thenRun w x) (p := ⟨w, x⟩) rfl).1 data
    (by simpa only [h.srcInt_next hc hsrc hlen, hrsa, hn, he, Option.getD_some] using hdata)
  have hrun := hruns.1 <| firstFailing_eq_none.mpr <| List.forall_mem_append.mpr ⟨hchecks, by simpa using hcap⟩
  exact ⟨_, hrun, wrote_spec (h.wf_next w x) (p := ⟨w, x⟩) hdstOk hcap _⟩

end Next

/-- An odd number stays odd when it is raised modulo an even N, so the CRT formula is exact for the power too. -/
theorem ConsistentKey.crtExact_pow {k : RsaKey} {n e d p q m : Nat} (h : ConsistentKey k n e d p q)
    (hexact : CrtExact k p q m) (a : Nat) : CrtExact k p q (m ^ a % n) := by
  intro hk hp2
  have hodd : m % 2 = 1 := hexact hk hp2
  have heven : 2 ∣ n := by
    rcases hp2 with rfl | rfl
    · exact h.n_eq ▸ Nat.dvd_mul_right 2 q
    · exact h.n_eq ▸ Nat.dvd_mul_left 2 p
  rw [Nat.mod_mod_of_dvd _ heven, Nat.pow_mod, hodd, one_pow, Nat.one_mod_eq_one.mpr (by decide)]

/-! ## The transforms one after the other -/

/-- RSA_PUBLIC with OK wrote `m^E mod N`. -/
theorem rsaPublic_wrote {s t : State} {pd : Pending} {n e : Nat} (hs : s.Wf) (hp : s.pending = some pd)
    (hn : s.rsa.n = some n) (he : s.rsa.e = some e) (hexec : exec .rsaPublic s = .next t) (hcode : t.lastCode = .ok) :
    srcInt s pd.args < n ∧ Wrote s t pd.args (i2os (srcInt s pd.args ^ e % n) (bytelen n)) := by
  obtain ⟨hpass, rfl⟩ := runs_ok (rsaPublic_runs hp) (by simp [transformChecks]) hexec hcode
  obtain ⟨htransform, hcap⟩ := List.forall_mem_append.mp hpass
  obtain ⟨hdst, hlt⟩ := transformChecks_spec htransform
  simp only [hn, he, Option.getD_some, List.forall_mem_singleton, decide_eq_true_eq] at hlt hcap ⊢
  exact ⟨hlt, wrote_spec hs hdst (by rwa [length_i2os]) s.entropy⟩

/-- Settles O40: RSA_PUBLIC wrote `m^E mod N`, and RSA_PRIVATE raises that to the power D. -/
theorem privateInvertsPublic : Obligations.PrivateInvertsPublic := by
  intro s t pd n e d p q w x hs hp hconsistent hexact hexec hcode hsrc hlen hdst hcap
  have hkey := consistentKey_of_consistent hconsistent
  obtain ⟨hlt, hwrote⟩ := rsaPublic_wrote hs hp hkey.modulus hkey.exponent hexec hcode
  have hc : srcInt s pd.args ^ e % n < n := Nat.mod_lt _ hkey.n_pos
  obtain ⟨u, hu, hback⟩ :=
    hwrote.rsaPrivate_next hc hsrc hlen (w := w) hdst (hkey.raises (hkey.crtExact_pow hexact e)) hcap
  rw [hkey.pow_e_pow_d hlt] at hback
  have hcount := hback.count
  have hbytes := hback.bytes
  rw [length_i2os] at hcount hbytes
  refine ⟨u, hu, hback.code, hcount, ?_⟩
  rw [show x[2].toNat = dstAddr x from rfl, hbytes, os2i_i2os _ _ (hlt.trans (lt_pow_bytelen n))]
  rfl

/-! ## The padded operations (spec/41_rsa.md R113) -/

theorem os2i_append_odd (a : List Byte) {b : List Byte} (h : os2i b % 2 = 1) : os2i (a ++ b) % 2 = 1 := by
  cases b with
  | nil => simp at h
  | cons c cs =>
    rw [os2i_append, List.length_cons, pow_succ, ← mul_assoc]
    omega

/-- A block that ends in the data is odd when the data is, so the CRT formula is exact for it too. -/
theorem crtExact_append {k : RsaKey} {p q : Nat} {data : List Byte} (h : CrtExact k p q (os2i data)) (a : List Byte) :
    CrtExact k p q (os2i (a ++ data)) :=
  fun hk hp2 => os2i_append_odd a (h hk hp2)

theorem padded_sigBlock (s : State) (x : Args) : Padded (sigBlock s x) (srcBytes s x) := .inl ⟨_, rfl⟩

theorem padded_encBlock (s : State) (x : Args) : Padded (encBlock s x) (srcBytes s x) :=
  .inr ⟨_, (drawPad_drawn s x _).1, rfl⟩

/-- The value of `block` is below `n`, and written as long as `n` it is the block again. -/
structure BlockOf (n : Nat) (block : List Byte) : Prop where
  lt     : os2i block < n
  string : i2os (os2i block) (bytelen n) = block

theorem blockOf_encBlock {s : State} {x : Args} (h : srcLen x + 3 ≤ bytelen (s.rsa.n.getD 0)) :
    BlockOf (s.rsa.n.getD 0) (encBlock s x) :=
  ⟨os2i_encBlock_lt h, length_encBlock h ▸ i2os_os2i _⟩

theorem blockOf_sigBlock {s : State} {x : Args} (h : srcLen x + 3 ≤ bytelen (s.rsa.n.getD 0)) :
    BlockOf (s.rsa.n.getD 0) (sigBlock s x) :=
  ⟨os2i_sigBlock_lt h, length_sigBlock h ▸ i2os_os2i _⟩

/-- RSA_PUBENC with S = 1 and OK wrote the power E of the type-2 block. -/
theorem rsaPubenc_wrote {s t : State} {pd : Pending} {n e : Nat} (hs : s.Wf) (hp : s.pending = some pd)
    (hn : s.rsa.n = some n) (he : s.rsa.e = some e) (hexec : exec (.rsaPubenc 1) s = .next t) (hcode : t.lastCode = .ok) :
    BlockOf n (encBlock s pd.args) ∧ Wrote s t pd.args (i2os (os2i (encBlock s pd.args) ^ e % n) (bytelen n)) := by
  obtain ⟨hpass, rfl⟩ := runs_ok (rsaPubenc_runs hp) (by simp [encryptChecks]) hexec hcode
  obtain ⟨hdst, hlen, hcap⟩ := encryptChecks_spec hpass
  have hblock := blockOf_encBlock hlen
  simp only [hn, he, Option.getD_some] at hblock hcap ⊢
  exact ⟨hblock, wrote_spec hs hdst (by rwa [length_i2os]) _⟩

/-- RSA_PRIVENC with S = 1 and OK wrote the power D of the type-1 block. -/
theorem rsaPrivenc_wrote {s t : State} {pd : Pending} {n d : Nat} (hs : s.Wf) (hp : s.pending = some pd)
    (hraises : Raises s.rsa n d (os2i (sigBlock s pd.args))) (hexec : exec (.rsaPrivenc 1) s = .next t)
    (hcode : t.lastCode = .ok) :
    BlockOf n (sigBlock s pd.args) ∧ Wrote s t pd.args (i2os (os2i (sigBlock s pd.args) ^ d % n) (bytelen n)) := by
  obtain ⟨hpass, rfl⟩ := runs_ok (rsaPrivenc_runs hp) (by simp [encryptChecks, privateGuards]) hexec hcode
  obtain ⟨hdst, hlen, hcap⟩ := encryptChecks_spec (List.forall_mem_append.mp hpass).1
  have hblock := blockOf_sigBlock hlen
  simp only [hraises.modulus, hraises.value, Option.getD_some] at hblock hcap ⊢
  exact ⟨hblock, wrote_spec hs hdst (by rwa [length_i2os]) _⟩

/-- The command after writes the source of the command before. -/
theorem sourceReturns {s t u : State} {pd : Pending} {x : Args} (h : Wrote t u x (srcBytes s pd.args)) :
    u.lastCode = .ok ∧ u.bytesWritten = pd.args[1] ∧
      u.ram.readBytes x[2].toNat pd.args[1].toNat = bytesAt s pd.args[0] pd.args[1] := by
  have hcount := h.count
  have hbytes := h.bytes
  rw [length_srcBytes] at hcount hbytes
  exact ⟨h.code, BitVec.eq_of_toNat_eq hcount, hbytes⟩

/-- Settles O41: the first command wrote a power of the block, and the second one's transform gives the block back, whose
data is the source. -/
theorem paddedRoundTrips : Obligations.PaddedRoundTrips := by
  intro there back hpair s t pd n e d p q w x hs hp hconsistent hexact hexec hcode hsrc hlen hdst hcap
  have hkey := consistentKey_of_consistent hconsistent
  have hfits : (srcBytes s pd.args).length ≤ dstCap x := by rwa [length_srcBytes]
  simp only [List.mem_cons, Prod.mk.injEq, List.not_mem_nil, or_false] at hpair
  rcases hpair with ⟨rfl, rfl⟩ | ⟨rfl, rfl⟩
  · obtain ⟨hblock, hwrote⟩ := rsaPubenc_wrote hs hp hkey.modulus hkey.exponent hexec hcode
    have hback : Padded (i2os ((os2i (encBlock s pd.args) ^ e % n) ^ d % n) (bytelen n)) (srcBytes s pd.args) := by
      rw [hkey.pow_e_pow_d hblock.lt, hblock.string]
      exact padded_encBlock s pd.args
    obtain ⟨u, hu, hreturn⟩ := hwrote.rsaPrivdec_next (Nat.mod_lt _ hkey.n_pos) hsrc hlen (w := w) hdst
      (hkey.raises (hkey.crtExact_pow (crtExact_append hexact _) e)) hback hfits
    exact ⟨u, hu, sourceReturns hreturn⟩
  · obtain ⟨hblock, hwrote⟩ := rsaPrivenc_wrote hs hp (hkey.raises (crtExact_append hexact _)) hexec hcode
    have hback : Padded (i2os ((os2i (sigBlock s pd.args) ^ d % n) ^ e % n) (bytelen n)) (srcBytes s pd.args) := by
      rw [hkey.pow_d_pow_e hblock.lt, hblock.string]
      exact padded_sigBlock s pd.args
    obtain ⟨u, hu, hreturn⟩ := hwrote.rsaPubdec_next (Nat.mod_lt _ hkey.n_pos) hsrc hlen (w := w) hdst hkey.modulus
      hkey.exponent hback hfits
    exact ⟨u, hu, sourceReturns hreturn⟩

end Sys2Proof.Machine
end

section
/-! The group and point commands of the EC unit (spec/42_ec.md R115 to R123, R127): what they leave alone, their checks in
the order of the rules, and the curve equation. -/

namespace Sys2Proof.Machine
open Sys2Proof.Spec

/-! ## What an EC command leaves alone -/

/-- From `s` to `t` at most the group and the point register change, each by the commands `i` that may. -/
def EcFrame (i : Instr) (s t : State) : Prop :=
  ∃ g pt, t = { s with group := g, point := pt } ∧
    (i.opcode ∉ [0x20, 0x21, 0x22, 0x23] → g = s.group) ∧
    (i.opcode ∉ [0x22, 0x23] → g.form = s.group.form) ∧
    (i.opcode ∈ [0x22, 0x24, 0x27, 0x28] → pt = s.point)

theorem EcFrame.refl (i : Instr) (s : State) : EcFrame i s s :=
  ⟨s.group, s.point, rfl, fun _ => rfl, fun _ => rfl, fun _ => rfl⟩

/-- A command that may set the point sets only the point. -/
theorem EcFrame.withPoint {i : Instr} (hi : i.opcode ∉ [0x22, 0x24, 0x27, 0x28]) (s : State) (pt : Point) :
    EcFrame i s { s with point := pt } :=
  ⟨s.group, pt, rfl, fun _ => rfl, fun _ => rfl, fun h => absurd h hi⟩

@[simp] theorem Group.load_form (g : Group) (i v : Nat) : (g.load i v).form = g.form := by
  unfold Group.load
  split <;> rfl

/-- An EC command changes at most the group and the point register. -/
theorem ecRule_frame {i : Instr} (hi : 0x20 ≤ i.opcode.toNat) (s : State) (x : Args) :
    EcFrame i s (ruleOf i s x).state := by
  have kept {t : State} (h : t = s) : EcFrame i s t := h ▸ EcFrame.refl i s
  cases i with
  | ecLoadcomp =>
    refine (ecLoadcompRule_leaves s x).elim (kept rfl) ?_
    rintro _ ⟨v, -, rfl⟩
    exact ⟨_, _, rfl, fun h => absurd (by decide) h, fun _ => Group.load_form _ _ _, fun h => absurd h (by decide)⟩
  | ecSetcurve =>
    refine (ecSetcurveRule_leaves s x).elim (kept rfl) ?_
    rintro _ ⟨r, -, rfl⟩
    exact ⟨_, _, rfl, fun h => absurd (by decide) h, fun _ => rfl, fun h => absurd h (by decide)⟩
  | ecSetform form =>
    refine (ecSetformRule_leaves form s x).elim (kept rfl) ?_
    rintro _ ⟨f, rfl⟩
    exact ⟨_, s.point, rfl, fun h => absurd (by simp [Instr.opcode]) h, fun h => absurd (by simp [Instr.opcode]) h,
      fun _ => rfl⟩
  | ecCleargroup =>
    exact ⟨.empty, .empty, rfl, fun h => absurd (by decide) h, fun h => absurd (by decide) h,
      fun h => absurd h (by decide)⟩
  | ecCheckgroup => exact kept (report_state s _)
  | ecPtSetxy =>
    refine (ecPtSetxyRule_leaves s x).elim (kept rfl) ?_
    rintro _ ⟨_, px, py, -, -, -, rfl⟩
    exact .withPoint (by decide) s _
  | ecPtSetinf =>
    refine (ecPtSetinfRule_leaves s x).elim (kept rfl) ?_
    rintro _ ⟨_, -, rfl⟩
    exact .withPoint (by decide) s _
  | ecPtCheck => exact kept (report_state s _)
  | ecPtEncode => exact kept (emit_state s x _)
  | ecPtDecode =>
    refine (ecPtDecodeRule_leaves s x).elim (kept rfl) ?_
    rintro _ ⟨_, pt, -, -, rfl⟩
    exact .withPoint (by decide) s pt
  | _ => simp [Instr.opcode] at hi

/-- RESULT is 0 after every EC command but EC_CHECKGROUP and EC_PT_CHECK (spec/10_state.md R31). -/
theorem ecRule_result {i : Instr} (hi : 0x20 ≤ i.opcode.toNat) (hne : i.opcode ∉ [0x24, 0x27]) (s : State) (x : Args) :
    (ruleOf i s x).result = 0 := by
  cases i with
  | ecLoadcomp => exact update_result s _
  | ecSetcurve => exact update_result s _
  | ecSetform form => exact update_result s _
  | ecCleargroup => rfl
  | ecCheckgroup => exact absurd (by decide) hne
  | ecPtSetxy => exact update_result s _
  | ecPtSetinf => exact update_result s _
  | ecPtCheck => exact absurd (by decide) hne
  | ecPtEncode => exact emit_result s x _
  | ecPtDecode => exact update_result s _
  | _ => simp [Instr.opcode] at hi

/-- Settles O16: a rule changes at most the group and the point register, and completion touches none of these fields. -/
theorem ecCommandsFrame : Obligations.EcCommandsFrame := by
  intro i s t hi h
  obtain ⟨p, -, rfl⟩ := exec_next h
  obtain ⟨g, pt, hstate, hgroup, hform, hpoint⟩ := ecRule_frame hi s p.args
  refine ⟨?slots, ?rsa, ?backend, ?entropy, fun hi' => ?group, fun hi' => ?form, fun hi' => ?point, fun hne => ?result⟩
  case slots => rw [complete_slots, hstate]
  case rsa => rw [complete_rsa, hstate]
  case backend => rw [complete_backend, hstate]
  case entropy => rw [complete_entropy, hstate]
  case group => rw [complete_group, hstate, ← hgroup hi']
  case form => rw [complete_group, hstate, ← hform hi']
  case point => rw [complete_point, hstate, ← hpoint hi']
  case result => rw [complete_result, ecRule_result hi hne]

/-! ## The checks the EC commands share (spec/42_ec.md R115) -/

/-- Two checks with one code are one check. -/
theorem require_and {α : Type} (a b : Bool) (code : Code) (k : Except Code α) :
    (require (a && b) code >>= fun _ => k) = require a code >>= fun _ => require b code >>= fun _ => k := by
  cases a <;> rfl

theorem needField_eq (g : Group) : needField g =
    runChecks [(fieldReady g, .invalidParameters)] >>= fun _ => .ok (g.ep.getD 0) := by
  cases hp : g.ep <;> simp [needField, fieldReady, hp]

/-- EP, EA and EB of the group register, 0 for an absent one. -/
def curveParams (g : Group) : CurveParams := ⟨g.ep.getD 0, g.ea.getD 0, g.eb.getD 0⟩

theorem present_eq (v : Option Nat) (code : Code) :
    present v code = require v.isSome code >>= fun _ => .ok (v.getD 0) := by
  cases v <;> rfl

theorem needCurve_eq (g : Group) : needCurve g =
    runChecks [(curveReady g, .invalidParameters)] >>= fun _ => .ok (curveParams g) := by
  simp [needCurve, curveReady, curveParams, needField_eq, present_eq, require_and, bind_assoc]

/-- The model computes `OnCurve` as the remainder of the difference, the statements as divisibility (R114). -/
theorem onCurve_eq_liesOn (g : Group) (x y : Nat) :
    onCurve (curveParams g).p (curveParams g).a (curveParams g).b x y = liesOn g x y := by
  rw [onCurve, liesOn, Bool.beq_eq_decide_eq]
  exact decide_eq_decide.mpr Int.dvd_iff_emod_eq_zero.symm

/-- A point lies on the curve when both sides of the equation leave the same remainder (R114). -/
theorem liesOn_iff {g : Group} {x y : Nat} : liesOn g x y = true ↔
    y ^ 2 % g.ep.getD 0 = (x ^ 3 + g.ea.getD 0 * x + g.eb.getD 0) % g.ep.getD 0 := by
  rw [liesOn, decide_eq_true_eq, eq_comm (a := y ^ 2 % _)]
  change _ ↔ _ ≡ _ [MOD _]
  rw [Nat.modEq_iff_dvd]
  push_cast
  rfl

/-! ## The group commands (spec/42_ec.md R116 to R120) -/

theorem groupComponents_load (g : Group) (i v : Nat) :
    groupComponents (g.load i v) = (groupComponents g).set i (some v) := by
  unfold Group.load
  split
  case h_8 h0 h1 h2 h3 h4 h5 h6 => exact (List.set_eq_of_length_le (show 7 ≤ i by grind)).symm
  all_goals rfl

theorem ecLoadcompRule_eq (s : State) (x : Args) : ecLoadcompRule s x =
    update s (runChecks
      [ (srcOk s x, .invalidParameters), (decide (argVal x ≤ 6), .invalidParameters)
      , (decide (srcLen x ≤ s.cfg.bnMax), .outOfMemory) ] >>= fun _ =>
      .ok { s with
        group := { s.group.load (argVal x) (srcInt s x) with named := false, curveId := 0 }
        point := .empty }) := by
  simp [ecLoadcompRule, readInt_src, bind_assoc]

/-- Settles O42: `Group.load` sets its component in the list of the seven and nothing else. -/
theorem ecLoadcomp : Obligations.EcLoadcomp := by
  refine ⟨decode_encode (i := .ecLoadcomp) (by decide), fun s p hp => ?_⟩
  exact ⟨{ s.group.load (argVal p.args) (srcInt s p.args) with named := false, curveId := 0 },
    groupComponents_load s.group _ _, Group.load_form _ _ _, rfl, rfl,
    runs_of_update hp (ecLoadcompRule_eq s p.args)⟩

theorem ecSetformRule_eq (form : Nat) (s : State) (x : Args) : ecSetformRule form s x =
    update s (runChecks [(decide (form ≤ 1), .invalidParameters)] >>= fun _ =>
      .ok { s with group := { s.group with form := decide (form = 1) } }) := by
  simp [ecSetformRule, Bool.beq_eq_decide_eq]

/-- Settles O44: EC_SETFORM is one check and one field, and EC_CLEARGROUP checks nothing. -/
theorem ecFormAndCleargroup : Obligations.EcFormAndCleargroup := by
  refine ⟨fun form hform => decode_opcode_selector (i := .ecSetform form) hform,
    decode_encode (i := .ecCleargroup) (by decide), fun s p hp => ⟨fun form => ?_, ?_⟩⟩
  · exact runs_of_update hp (ecSetformRule_eq form s p.args)
  · exact ⟨.empty, by simp [groupComponents, Group.empty], rfl, rfl, rfl, exec_pending .ecCleargroup hp⟩

theorem ecCheckgroupRule_eq (s : State) (x : Args) : ecCheckgroupRule s x =
    report s (runChecks [(curveReady s.group && s.group.gx.isSome && s.group.gy.isSome, .invalidParameters)] >>= fun _ =>
      .ok (if liesOn s.group (s.group.gx.getD 0) (s.group.gy.getD 0) then 1 else 0)) := by
  simp [ecCheckgroupRule, needCurve_eq, present_eq, require_and, onCurve_eq_liesOn, bind_assoc]

theorem ecCheckgroup_runs {s : State} {p : Pending} (hp : s.pending = some p) :
    Runs .ecCheckgroup s
      [(curveReady s.group && s.group.gx.isSome && s.group.gy.isSome, .invalidParameters)]
      (completed s p 0 (if liesOn s.group (s.group.gx.getD 0) (s.group.gy.getD 0) then 1 else 0)) (failed s p) :=
  runs_of_report hp (ecCheckgroupRule_eq s p.args)

/-- An id above 255 is in no ROM, whose ids are bytes (R117). -/
theorem lookupCurve_eq (cfg : Config) (id : Nat) :
    lookupCurve cfg id = (cfg.curveRom.find? fun r => r.1.toNat == id).map (·.2) := by
  unfold lookupCurve
  split
  · rename_i hid
    have hnone : (cfg.curveRom.find? fun r => r.1.toNat == id) = none := by
      refine List.find?_eq_none.mpr fun r _ => ?_
      have := r.1.isLt
      simp only [beq_iff_eq]
      omega
    rw [hnone, Option.map_none]
  · rfl

theorem ecSetcurve_of_none {s : State} {p : Pending} (hp : s.pending = some p)
    (h : lookupCurve s.cfg (argVal p.args) = none) : exec .ecSetcurve s = .next (failed s p .invalidParameters) := by
  rw [exec_pending _ hp, ruleOf, ecSetcurveRule, h]
  rfl

theorem ecSetcurve_of_some {s : State} {p : Pending} {r : Curve} (hp : s.pending = some p)
    (h : lookupCurve s.cfg (argVal p.args) = some r) : exec .ecSetcurve s =
      .next (completed { s with
        group := .ofCurve r s.group.form (BitVec.ofNat 8 (argVal p.args)), point := .empty } p 0 0) := by
  rw [exec_pending _ hp, ruleOf, ecSetcurveRule, h]
  rfl

/-- EC_CHECKGROUP on a record that may stand in the ROM gives RESULT = 1 (spec/42_ec.md R127). -/
theorem ecCheckgroup_ofCurve {s : State} {p : Pending} (hp : s.pending = some p) {n : Nat} {r : Curve} (hr : r.wf n)
    {form : Bool} {id : Byte} (hg : s.group = .ofCurve r form id) :
    exec .ecCheckgroup s = .next (completed s p 0 1) := by
  obtain ⟨h3, hcurve, -⟩ := hr
  have hrun := (ecCheckgroup_runs hp).1 <| firstFailing_eq_none.mpr <| by
    simp [hg, Group.ofCurve, curveReady, fieldReady, h3]
  have hon : liesOn s.group (s.group.gx.getD 0) (s.group.gy.getD 0) = true := by
    rw [liesOn_iff, hg]
    exact hcurve
  rwa [if_pos hon] at hrun

/-- Settles O43: EC_SETCURVE looks its id up in the ROM, and a legal ROM holds only generators on their curves. -/
theorem ecNamedCurves : Obligations.EcNamedCurves := by
  refine ⟨decode_encode (i := .ecSetcurve) (by decide), fun s p hp => ⟨fun hnone => ?_, fun code r hfind => ?_⟩⟩
  · exact ecSetcurve_of_none hp (by rw [lookupCurve_eq, argVal, hnone, Option.map_none])
  · have hlookup : lookupCurve s.cfg (argVal p.args) = some r := by
      rw [lookupCurve_eq, argVal, hfind, Option.map_some]
    have hid : code.toNat = argVal p.args := by simpa [argVal] using List.find?_some hfind
    have hcode : BitVec.ofNat 8 (argVal p.args) = code := by rw [← hid, BitVec.ofNat_toNat, BitVec.setWidth_eq]
    refine ⟨?_, fun hlegal p' => ?_⟩
    · rw [ecSetcurve_of_some hp hlookup, hcode]
      rfl
    · exact ecCheckgroup_ofCurve rfl (lookupCurve_wf hlegal hlookup).2 rfl

/-! ## The point register (spec/42_ec.md R121 to R123) -/

/-- Point validation in the statements' terms (R123). -/
theorem pointOnCurve_iff {g : Group} {pt : Point} : pointOnCurve (curveParams g) pt = true ↔
    pt.inf = true ∨ (pt.x < g.ep.getD 0 ∧ pt.y < g.ep.getD 0 ∧ liesOn g pt.x pt.y = true) := by
  simp only [pointOnCurve, onCurve_eq_liesOn, Bool.or_eq_true, Bool.and_eq_true, decide_eq_true_eq, and_assoc]
  rfl

theorem ecPtCheckRule_eq (s : State) (x : Args) : ecPtCheckRule s x =
    report s (runChecks [(curveReady s.group, .invalidParameters), (s.point.valid, .invalidParameters)] >>= fun _ =>
      .ok (if s.point.inf = true ∨ (s.point.x < s.group.ep.getD 0 ∧ s.point.y < s.group.ep.getD 0 ∧
        liesOn s.group s.point.x s.point.y = true) then 1 else 0)) := by
  simp [ecPtCheckRule, needCurve_eq, pointOnCurve_iff, bind_assoc]

/-- Settles O45: both rules are their checks, then the curve equation. -/
theorem ecChecks : Obligations.EcChecks :=
  ⟨decode_encode (i := .ecCheckgroup) (by decide), decode_encode (i := .ecPtCheck) (by decide), fun s p hp =>
    ⟨ecCheckgroup_runs hp, runs_of_report hp (ecPtCheckRule_eq s p.args)⟩⟩

theorem ecPtSetxyRule_eq (s : State) (x : Args) : ecPtSetxyRule s x =
    update s (runChecks
      [ (srcOk s x, .invalidParameters), (region s (src2Addr x) (src2Len x), .invalidParameters)
      , (fieldReady s.group, .invalidParameters)
      , (decide (srcLen x ≤ s.cfg.bnMax) && decide (src2Len x ≤ s.cfg.bnMax), .outOfMemory) ] >>= fun _ =>
      .ok { s with
        point := ⟨true, false, srcInt s x, os2i (s.ram.readBytes (src2Addr x) (src2Len x))⟩ }) := by
  simp [ecPtSetxyRule, needField_eq, readInt, srcInt, srcBytes, require_and, bind_assoc]

theorem ecPtSetinfRule_eq (s : State) (x : Args) : ecPtSetinfRule s x =
    update s (runChecks [(fieldReady s.group, .invalidParameters)] >>= fun _ =>
      .ok { s with point := ⟨true, true, 0, 0⟩ }) := by
  simp [ecPtSetinfRule, needField_eq, bind_assoc]

/-- Settles O46: neither rule looks at the coordinates it stores. -/
theorem ecSetPoint : Obligations.EcSetPoint :=
  ⟨decode_encode (i := .ecPtSetxy) (by decide), decode_encode (i := .ecPtSetinf) (by decide), fun s p hp =>
    ⟨runs_of_update hp (ecPtSetxyRule_eq s p.args), runs_of_update hp (ecPtSetinfRule_eq s p.args)⟩⟩

end Sys2Proof.Machine
end

section
/-! The octet strings of points (spec/42_ec.md R124, R125): EC_PT_ENCODE, EC_PT_DECODE, and over a prime field the one undoes
the other. -/

namespace Sys2Proof.Machine
open Sys2Proof.Spec

/-! ## EC_PT_ENCODE (spec/42_ec.md R124) -/

/-- The octets of the point register in the form FORM selects. -/
def pointOctets (g : Group) (pt : Point) : List Byte :=
  if pt.inf then [0x00] else encodeAffine g.form (bytelen (g.ep.getD 0)) pt.x pt.y

/-- The five checks of EC_PT_ENCODE. -/
def encodeChecks (s : State) (x : Args) : List (Bool × Code) :=
  [ (dstOk s x, .invalidParameters)
  , (fieldReady s.group, .invalidParameters)
  , (s.point.valid, .invalidParameters)
  , (s.point.inf || (decide (s.point.x < 256 ^ bytelen (s.group.ep.getD 0)) &&
      decide (s.point.y < 256 ^ bytelen (s.group.ep.getD 0))), .invalidParameters)
  , (decide ((pointOctets s.group s.point).length ≤ dstCap x), .bufferTooSmall) ]

theorem ecPtEncodeRule_eq (s : State) (x : Args) : ecPtEncodeRule s x =
    emit s x (runChecks (encodeChecks s x) >>= fun _ => .ok (pointOctets s.group s.point)) := by
  simp [ecPtEncodeRule, encodeChecks, needField_eq, pointOctets, bind_assoc]

theorem ecPtEncode_runs {s : State} {p : Pending} (hp : s.pending = some p) :
    Runs .ecPtEncode s (encodeChecks s p.args) (wrote s p (dstAddr p.args) (pointOctets s.group s.point)) (failed s p) :=
  runs_of_emit hp (ecPtEncodeRule_eq s p.args)

/-- FORM = 0 asks for the uncompressed form, FORM = 1 for the compressed one. -/
theorem encodeAffine_eq (form : Bool) (l x y : Nat) : encodeAffine form l x y =
    if form = false then 0x04 :: (i2os x l ++ i2os y l) else BitVec.ofNat 8 (2 + y % 2) :: i2os x l := by
  cases form <;> rfl

/-- Settles O47: the rule is its checks, then the octets. -/
theorem ecPointEncode : Obligations.EcPointEncode := by
  refine ⟨decode_encode (i := .ecPtEncode) (by decide), fun s p hp => ?_⟩
  have hruns := ecPtEncode_runs hp
  simp only [encodeChecks, pointOctets, encodeAffine_eq] at hruns
  exact hruns

/-! ## Square roots (spec/42_ec.md R125) -/

/-- `y` in `[0, p)` is a square root of `rhs` modulo `p`, of the given parity. -/
def IsRoot (p rhs parity y : Nat) : Prop := y < p ∧ y ^ 2 % p = rhs ∧ y % 2 = parity

/-- The search finds the first root of its range, which ends at `p`. -/
theorem leastRootFrom_eq_some {p rhs parity fuel lo y : Nat} (hend : lo + fuel = p) :
    leastRootFrom p rhs parity fuel lo = some y ↔
      lo ≤ y ∧ IsRoot p rhs parity y ∧ ∀ z, lo ≤ z → z < y → ¬ IsRoot p rhs parity z := by
  induction fuel generalizing lo with
  | zero =>
    refine ⟨fun h => (by cases h), ?_⟩
    rintro ⟨hlo, ⟨hlt, -⟩, -⟩
    omega
  | succ fuel ih =>
    rw [leastRootFrom, ← pow_two]
    split
    · rename_i hroot
      have hfirst : IsRoot p rhs parity lo := ⟨by omega, hroot⟩
      constructor
      · rintro ⟨⟩
        exact ⟨le_rfl, hfirst, fun z hz hlt => absurd hlt (by omega)⟩
      · rintro ⟨hlo, -, hleast⟩
        rcases hlo.eq_or_lt with rfl | hlt
        · rfl
        · exact absurd hfirst (hleast lo le_rfl hlt)
    · rename_i hroot
      have hfirst : ¬ IsRoot p rhs parity lo := fun ⟨_, h⟩ => hroot h
      rw [ih (by omega)]
      constructor
      · rintro ⟨hlo, hy, hleast⟩
        refine ⟨by omega, hy, fun z hz hlt => ?_⟩
        rcases hz.eq_or_lt with rfl | hz
        · exact hfirst
        · exact hleast z hz hlt
      · rintro ⟨hlo, hy, hleast⟩
        have hne : lo ≠ y := fun h => hfirst (h ▸ hy)
        exact ⟨by omega, hy, fun z hz hlt => hleast z (by omega) hlt⟩

theorem leastRoot_eq_some {p rhs parity y : Nat} :
    leastRoot p rhs parity = some y ↔ IsRoot p rhs parity y ∧ ∀ z < y, ¬ IsRoot p rhs parity z := by
  simp [leastRoot, leastRootFrom_eq_some]

/-- Modulo an odd prime a number has at most one root of each parity: the other root is `p − y` (R125). -/
theorem IsRoot.unique {p rhs parity y z : Nat} (hp : p.Prime) (hodd : p % 2 = 1) (hy : IsRoot p rhs parity y)
    (hz : IsRoot p rhs parity z) : y = z := by
  obtain ⟨hyp, hy, hypar⟩ := hy
  obtain ⟨hzp, hz, hzpar⟩ := hz
  have hdvd : (p : Int) ∣ ((z : Int) + y) * (z - y) := by
    have h := (Nat.modEq_iff_dvd (n := p)).mp (hy.trans hz.symm)
    push_cast at h
    rwa [sq_sub_sq] at h
  rcases (Nat.prime_iff_prime_int.mp hp).dvd_or_dvd hdvd with hsum | hdiff
  · obtain ⟨k, hk⟩ : p ∣ z + y := by exact_mod_cast hsum
    have hk2 : k < 2 := by
      by_contra hc
      have := Nat.mul_le_mul_left p (Nat.le_of_not_lt hc)
      omega
    interval_cases k <;> omega
  · exact (Nat.modEq_iff_dvd.mpr hdiff).eq_of_lt_of_lt hyp hzp

/-- Modulo an odd prime the search for a root of the parity of `y` finds `y` (R125). -/
theorem IsRoot.leastRoot_of_prime {p rhs parity y : Nat} (hp : p.Prime) (hodd : p % 2 = 1) (hy : IsRoot p rhs parity y) :
    leastRoot p rhs parity = some y :=
  leastRoot_eq_some.mpr ⟨hy, fun _ hlt hz => hlt.ne (hz.unique hp hodd hy)⟩

/-! ## What octets stand for (spec/42_ec.md R125) -/

/-- The right-hand side of the curve equation at `x`, modulo the field prime. -/
def curveRhs (g : Group) (x : Nat) : Nat := (x ^ 3 + g.ea.getD 0 * x + g.eb.getD 0) % g.ep.getD 0

theorem decodeUncompressed_eq_some {g : Group} {x y : Nat} {pt : Point} :
    decodeUncompressed (curveParams g) x y = some pt ↔
      x < g.ep.getD 0 ∧ y < g.ep.getD 0 ∧ liesOn g x y = true ∧ pt = ⟨true, false, x, y⟩ := by
  simp only [decodeUncompressed, onCurve_eq_liesOn, Option.ite_none_right_eq_some, Option.some.injEq, and_assoc,
    eq_comm (a := pt)]
  rfl

theorem decodeCompressed_eq_some {g : Group} {parity x : Nat} {pt : Point} :
    decodeCompressed (curveParams g) parity x = some pt ↔
      x < g.ep.getD 0 ∧ ∃ y, leastRoot (g.ep.getD 0) (curveRhs g x) parity = some y ∧ pt = ⟨true, false, x, y⟩ := by
  simp only [decodeCompressed, Option.ite_none_right_eq_some, Option.map_eq_some_iff, eq_comm (a := pt)]
  rfl

/-- A coordinate below the field prime is read back from its octets. -/
theorem os2i_coordinate {v p : Nat} (h : v < p) : os2i (i2os v (bytelen p)) = v :=
  os2i_i2os v _ (h.trans (lt_pow_bytelen p))

theorem i2os_os2i_of_length {bs : List Byte} {l : Nat} (h : bs.length = l) : i2os (os2i bs) l = bs := h ▸ i2os_os2i bs

theorem decodePoint_uncompressed {e : CurveParams} {x y : Nat} (hx : x < e.p) (hy : y < e.p) :
    decodePoint e (0x04 :: (i2os x (bytelen e.p) ++ i2os y (bytelen e.p))) = decodeUncompressed e x y := by
  simp [decodePoint, two_mul, os2i_coordinate hx, os2i_coordinate hy]

theorem decodePoint_compressed {e : CurveParams} {x parity : Nat} (hx : x < e.p) (hparity : parity ≤ 1) :
    decodePoint e (BitVec.ofNat 8 (2 + parity) :: i2os x (bytelen e.p)) = decodeCompressed e parity x := by
  obtain rfl | rfl : parity = 0 ∨ parity = 1 := by omega
  all_goals simp [decodePoint, os2i_coordinate hx]

/-- Octets that the model decodes have one of the three forms. -/
theorem decodes_of_decodePoint {g : Group} {b : List Byte} {pt : Point} (h : decodePoint (curveParams g) b = some pt) :
    Decodes g b pt := by
  rcases b with _ | ⟨b0, rest⟩
  · cases h
  simp only [decodePoint] at h
  split at h
  · rename_i hform
    obtain ⟨hlen, rfl⟩ := hform
    cases h
    exact .inl ⟨by rw [List.eq_nil_of_length_eq_zero hlen], rfl⟩
  split at h
  · rename_i hform
    obtain ⟨hlen, rfl⟩ := hform
    obtain ⟨hx, hy, hon, rfl⟩ := decodeUncompressed_eq_some.mp h
    refine .inr (.inl ⟨_, _, hx, hy, hon, ?_, rfl⟩)
    change _ = 0x04 :: (i2os _ (bytelen (curveParams g).p) ++ i2os _ (bytelen (curveParams g).p))
    rw [i2os_os2i_of_length (by rw [List.length_take]; omega), i2os_os2i_of_length (by rw [List.length_drop]; omega),
      List.take_append_drop]
  split at h
  · rename_i hform
    obtain ⟨hlen, hb0⟩ := hform
    obtain ⟨hx, y, hroot, rfl⟩ := decodeCompressed_eq_some.mp h
    obtain ⟨hy, hleast⟩ := leastRoot_eq_some.mp hroot
    have hparity : b0.toNat - 2 ≤ 1 ∧ BitVec.ofNat 8 (2 + (b0.toNat - 2)) = b0 := by
      rcases hb0 with rfl | rfl <;> decide
    refine .inr (.inr ⟨_, y, _, hx, hparity.1, hy, hleast, ?_, rfl⟩)
    rw [hparity.2]
    exact congrArg _ (i2os_os2i_of_length hlen).symm
  · cases h

/-- The model decodes exactly the octets that stand for a point, to that point. -/
theorem decodePoint_eq_some {g : Group} {b : List Byte} {pt : Point} :
    decodePoint (curveParams g) b = some pt ↔ Decodes g b pt := by
  refine ⟨decodes_of_decodePoint, ?_⟩
  rintro (⟨rfl, rfl⟩ | ⟨x, y, hx, hy, hon, rfl, rfl⟩ | ⟨x, y, parity, hx, hparity, hy, hleast, rfl, rfl⟩)
  · rfl
  · exact (decodePoint_uncompressed hx hy).trans (decodeUncompressed_eq_some.mpr ⟨hx, hy, hon, rfl⟩)
  · exact (decodePoint_compressed hx hparity).trans
      (decodeCompressed_eq_some.mpr ⟨hx, y, leastRoot_eq_some.mpr ⟨hy, hleast⟩, rfl⟩)

/-! ## EC_PT_DECODE (spec/42_ec.md R125) -/

/-- The checks of EC_PT_DECODE before it looks at the octets. -/
def decodeChecks (s : State) (x : Args) : List (Bool × Code) :=
  [(srcOk s x, .invalidParameters), (curveReady s.group, .invalidParameters)]

theorem ecPtDecodeRule_of_some {s : State} {x : Args} {pt : Point}
    (h : decodePoint (curveParams s.group) (srcBytes s x) = some pt) :
    ecPtDecodeRule s x = update s (runChecks (decodeChecks s x) >>= fun _ => .ok { s with point := pt }) := by
  simp [ecPtDecodeRule, decodeChecks, needCurve_eq, h, bind_assoc]

theorem ecPtDecodeRule_of_none {s : State} {x : Args} (h : decodePoint (curveParams s.group) (srcBytes s x) = none) :
    ecPtDecodeRule s x = update s (runChecks (decodeChecks s x) >>= fun _ => .error .invalidParameters) := by
  simp [ecPtDecodeRule, decodeChecks, needCurve_eq, h, bind_assoc]

theorem ecPtDecode_runs {s : State} {p : Pending} (hp : s.pending = some p) {pt : Point}
    (h : decodePoint (curveParams s.group) (srcBytes s p.args) = some pt) :
    Runs .ecPtDecode s (decodeChecks s p.args) (completed { s with point := pt } p 0 0) (failed s p) :=
  runs_of_update hp (ecPtDecodeRule_of_some h)

/-- A rule that updates engine state, but whose last check never passes: it always fails. -/
theorem runs_of_update_never {i : Instr} {s : State} {p : Pending} {checks : List (Bool × Code)} {code : Code}
    (hp : s.pending = some p) (t : State)
    (h : ruleOf i s p.args = update s (runChecks checks >>= fun _ => .error code)) :
    Runs i s (checks ++ [(false, code)]) t (failed s p) := by
  refine ⟨fun hnone => ?_, (runs_of_update (t := t) hp (h.trans ?_)).2⟩
  · exact absurd (firstFailing_eq_none.mp hnone (false, code) (by simp)) (by simp)
  · simp [runChecks_append, bind_assoc]

/-- Settles O48: the rule's decoder answers the point its octets stand for, and none otherwise. -/
theorem ecPointDecode : Obligations.EcPointDecode := by
  refine ⟨decode_encode (i := .ecPtDecode) (by decide), fun s p hp => ⟨fun pt hpt => ?_, fun hno => ?_⟩⟩
  · exact ecPtDecode_runs hp (decodePoint_eq_some.mpr hpt)
  · refine runs_of_update_never hp s (ecPtDecodeRule_of_none ?_)
    exact Option.eq_none_iff_forall_ne_some.mpr fun pt hpt => hno ⟨pt, decodePoint_eq_some.mp hpt⟩

/-! ## The round trip over a prime field (spec/42_ec.md R124, R125) -/

/-- Over an odd prime field the octets of a reduced point on the curve stand for that point, in either form. -/
theorem decodePoint_encodeAffine {g : Group} (hprime : (g.ep.getD 0).Prime) (hodd : g.ep.getD 0 % 2 = 1) {x y : Nat}
    (hx : x < g.ep.getD 0) (hy : y < g.ep.getD 0) (hon : liesOn g x y = true) (compressed : Bool) :
    decodePoint (curveParams g) (encodeAffine compressed (bytelen (g.ep.getD 0)) x y) = some ⟨true, false, x, y⟩ := by
  cases compressed with
  | false => exact (decodePoint_uncompressed hx hy).trans (decodeUncompressed_eq_some.mpr ⟨hx, hy, hon, rfl⟩)
  | true =>
    have hroot : IsRoot (g.ep.getD 0) (curveRhs g x) (y % 2) y := ⟨hy, liesOn_iff.mp hon, rfl⟩
    exact (decodePoint_compressed hx (by omega)).trans
      (decodeCompressed_eq_some.mpr ⟨hx, y, hroot.leastRoot_of_prime hprime hodd, rfl⟩)

/-- Infinity, or a reduced point on the curve: the points EC_PT_CHECK accepts (spec/42_ec.md R123). -/
def OnGroup (g : Group) (pt : Point) : Prop :=
  pt.inf = true ∨ (pt.x < g.ep.getD 0 ∧ pt.y < g.ep.getD 0 ∧ liesOn g pt.x pt.y = true)

/-- Over an odd prime field a valid point is read back from its octets. -/
theorem decodePoint_pointOctets {g : Group} (hprime : (g.ep.getD 0).Prime) (hodd : g.ep.getD 0 % 2 = 1) {pt : Point}
    (hvalid : pt.valid = true) (horigin : pt.inf = true → pt.x = 0 ∧ pt.y = 0) (hon : OnGroup g pt) :
    decodePoint (curveParams g) (pointOctets g pt) = some pt := by
  obtain ⟨valid, inf, x, y⟩ := pt
  obtain rfl : valid = true := hvalid
  cases inf with
  | true =>
    obtain ⟨rfl, rfl⟩ : x = 0 ∧ y = 0 := horigin rfl
    rfl
  | false =>
    obtain ⟨hx, hy, hcurve⟩ := hon.resolve_left Bool.false_ne_true
    exact decodePoint_encodeAffine hprime hodd hx hy hcurve g.form

section Next
variable {s t : State} {y : Args} {out : List Byte} (h : Wrote s t y out) {w : Word} {x : Args} (hsrc : x[0] = y[2])
  (hlen : x[1].toNat = out.length)
include h hsrc hlen

/-- The next command's source is the output just written. -/
theorem Wrote.srcBytes_next : srcBytes (t.thenRun w x) x = out := by
  rw [srcBytes, show srcAddr x = dstAddr y from congrArg BitVec.toNat hsrc, show srcLen x = out.length from hlen]
  exact h.bytes

theorem Wrote.srcOk_next : srcOk (t.thenRun w x) x = true := by
  rw [srcOk, region, show srcAddr x = dstAddr y from congrArg BitVec.toNat hsrc, show srcLen x = out.length from hlen,
    show (t.thenRun w x).cfg = s.cfg from h.cfg]
  exact decide_eq_true h.fits

end Next

/-- EC_PT_ENCODE with OK ran over a usable field on a valid point, and wrote its octets. -/
theorem ecPtEncode_wrote {s t : State} {p : Pending} (hs : s.Wf) (hp : s.pending = some p)
    (hexec : exec .ecPtEncode s = .next t) (hcode : t.lastCode = .ok) :
    (fieldReady s.group = true ∧ s.point.valid = true) ∧ t.group = s.group ∧
      Wrote s t p.args (pointOctets s.group s.point) := by
  obtain ⟨hpass, rfl⟩ := runs_ok (ecPtEncode_runs hp) (by simp [encodeChecks]) hexec hcode
  simp only [encodeChecks, List.forall_mem_cons, decide_eq_true_eq] at hpass
  obtain ⟨hdst, hfield, hvalid, -, hcap, -⟩ := hpass
  exact ⟨⟨hfield, hvalid⟩, rfl, wrote_spec hs hdst hcap s.entropy⟩

/-- A usable field of prime order is odd: EP ≥ 3 (spec/42_ec.md R115). -/
theorem odd_of_fieldReady {g : Group} (hprime : (g.ep.getD 0).Prime) (h : fieldReady g = true) :
    g.ep.getD 0 % 2 = 1 := by
  simp only [fieldReady, Bool.and_eq_true, decide_eq_true_eq] at h
  exact hprime.eq_two_or_odd.resolve_left (by omega)

/-- Settles O49: the octets EC_PT_ENCODE wrote are EC_PT_DECODE's source, and they stand for the point. -/
theorem pointOctetsRoundTrip : Obligations.PointOctetsRoundTrip := by
  intro s t p w x hs hp hprime hea heb hon hexec hcode hsrc hlen
  obtain ⟨⟨hfield, hvalid⟩, hgroup, hwrote⟩ := ecPtEncode_wrote hs hp hexec hcode
  obtain ⟨-, horigin, -⟩ := hs.point
  have hcount : x[1].toNat = (pointOctets s.group s.point).length := hlen ▸ hwrote.count
  have hdecode : decodePoint (curveParams (t.thenRun w x).group) (srcBytes (t.thenRun w x) x) = some s.point := by
    rw [hwrote.srcBytes_next hsrc hcount, show (t.thenRun w x).group = s.group from hgroup]
    exact decodePoint_pointOctets hprime (odd_of_fieldReady hprime hfield) hvalid horigin hon
  have hready : curveReady (t.thenRun w x).group = true := by
    simp [State.thenRun, hgroup, curveReady, hfield, hea, heb]
  have hrun := (ecPtDecode_runs (s := t.thenRun w x) (p := ⟨w, x⟩) rfl hdecode).1 <| firstFailing_eq_none.mpr <| by
    simp [decodeChecks, hwrote.srcOk_next hsrc hcount, hready]
  exact ⟨_, hrun, rfl, rfl⟩

end Sys2Proof.Machine
end

section
/-! The engine's turn on a command word (spec/60_exceptions.md R130), and the words that are no command (R132). -/

namespace Sys2Proof.Machine
open Sys2Proof.Spec

/-! ## The engine's turn as an event -/

/-- An engine event is a turn of the engine on the state with that event used up. -/
theorem step_engine_event (s : State) : step { s with inputs := .engine :: s.inputs } = engineStep s :=
  step_of_engine rfl

theorem turn_iff {s t : State} : Turn s t ↔ engineStep s = .next t := by
  rw [Turn, step_engine_event]

theorem engineStep_of_decode {s : State} {p : Pending} {i : Instr} (hp : s.pending = some p) (h : decode p.word = .ok i) :
    engineStep s = exec i s := by
  simp [engineStep, hp, h]

/-- Settles O5: the latch is full, and its word decodes. -/
theorem stepRunsDecodedCommand : Obligations.StepRunsDecodedCommand := by
  refine ⟨fun s p i hp h => ⟨?event, fun hno => ?noEvent⟩, fun s nbits w i h => ?fetched⟩
  case event => rw [step_engine_event, engineStep_of_decode hp h]
  case noEvent => rw [step_of_no_inputs hno, engineStep_of_decode hp h]
  case fetched => exact (step_of_engine rfl).trans (engineStep_of_decode rfl h)

/-! ## The illegal words (spec/30_encoding.md R68) -/

/-- OP is not in the map (spec/30_encoding.md R66). -/
def unassignedOp (op : Nat) : Bool :=
  op == 0 || (0x06 ≤ op && op ≤ 0x0F) || (0x1C ≤ op && op ≤ 0x1F) || decide (0x2A ≤ op)

/-- From 0x10 on, OP does not use S, whether it is in the map or not (spec/30_encoding.md R66). -/
def ignoresSelector (op : Nat) : Bool :=
  (0x10 ≤ op && op ≤ 0x16) || op == 0x1B || op == 0x20 || op == 0x21 || decide (0x23 ≤ op)

theorem illegalWord_eq (w : Word) : illegalWord w =
    ((wordRes w).toNat != 0 || unassignedOp (wordOp w).toNat ||
      ((wordSel w).toNat != 0 && ignoresSelector (wordOp w).toNat)) := by
  have hw := toNat_word w
  have hop := (wordOp w).isLt
  have hsel := (wordSel w).isLt
  have hres' : w.toNat / 4096 = (wordRes w).toNat := by omega
  have hsel' : w.toNat / 256 % 16 = (wordSel w).toNat := by omega
  have hop' : w.toNat % 256 = (wordOp w).toNat := by omega
  simp only [illegalWord, hres', hsel', hop', unassignedOp, ignoresSelector]

theorem exists_noSel_eq_ok {i : Instr} {s : Nat} : (∃ j, noSel i s = .ok j) ↔ s = 0 := by
  simp [noSel_eq_ok]

/-- The opcode map answers a command exactly when OP is assigned and S is 0 where it is not used. -/
theorem exists_decodeOp_eq_ok {op s : Nat} :
    (∃ i, decodeOp op s = .ok i) ↔ unassignedOp op = false ∧ (s ≠ 0 → ignoresSelector op = false) := by
  unfold decodeOp
  split
  case h_28 =>
    have hbad : unassignedOp op = true := by
      simp only [unassignedOp, Bool.or_eq_true, Bool.and_eq_true, decide_eq_true_eq, beq_iff_eq]
      simp only [imp_false] at *
      omega
    simp [hbad]
  all_goals simp [exists_noSel_eq_ok, unassignedOp, ignoresSelector]

theorem illegalWord_eq_false {w : Word} : illegalWord w = false ↔ ∃ i, decode w = .ok i := by
  have hres : (wordRes w).toNat = 0 ↔ wordRes w = 0 := BitVec.toNat_inj (y := 0)
  simp only [illegalWord_eq, Bool.or_eq_false_iff, Bool.and_eq_false_imp, bne_eq_false_iff_eq, bne_iff_ne, and_assoc,
    ← exists_decodeOp_eq_ok, hres, decode]
  by_cases h : wordRes w = 0#20 <;> simp [h]

theorem decode_error_of_illegalWord {w : Word} (h : illegalWord w = true) : ∃ e, decode w = .error e := by
  cases hd : decode w with
  | error e => exact ⟨e, rfl⟩
  | ok i => simp [illegalWord_eq_false.mpr ⟨i, hd⟩] at h

/-- Settles O4: an illegal word does not decode, and a word that does not decode completes with IllegalCommand. -/
theorem illegalWordsComplete : Obligations.IllegalWordsComplete := by
  refine ⟨fun s p hp hbad => ?_, fun w => illegalWord_eq_false, fun s p hp hw => ?_⟩
  · obtain ⟨e, he⟩ := decode_error_of_illegalWord hbad
    exact turn_of_decode_error hp he
  · have hd : decode p.word = .error .reservedBits := hw ▸ by decide
    refine ⟨_, turn_of_decode_error hp hd, ?_⟩
    simp only [statusWord, State.busy, failed, hw]
    rfl

end Sys2Proof.Machine
end

section
/-! The interrupt output (spec/60_exceptions.md R139) and the Data RAM while busy (R137). -/

namespace Sys2Proof.Machine
open Sys2Proof.Spec

/-- A host transaction leaves one state. -/
theorem bus_unique {s t u : State} {op : BusOp} (ht : Bus s op t) (hu : Bus s op u) : t = u :=
  Host.Outcome.next.inj (ht.symm.trans hu)

/-! ## The interrupt output -/

theorem bus_write_irq (s : State) (v : Word) :
    Bus s (.write 0x018 .w32 v) { writeIrq s v with reply := some .ok } := bus_write_reg s (by decide) (by decide) v

/-- A CTRL write without SOFT_RESET sets IRQ_EN and leaves the pending bits (spec/10_state.md R26). -/
theorem irqLine_of_write_ctrl {s t : State} {v : Word} (hv : v.getLsbD 1 = false) (h : Bus s (.write 0x010 .w32 v) t) :
    t.irqLine = (v.getLsbD 0 && (s.irq.done || s.irq.err || s.irq.overrun || s.irq.ramlock)) := by
  rw [bus_unique h (bus_write_ctrl s v), writeCtrl_plain s hv]
  rfl

/-- Settles O56: IRQ_STATUS and CTRL writes change the bits the output is made of. -/
theorem interruptOutput : Obligations.InterruptOutput := by
  refine fun s v => ⟨rfl, bus_write_irq s v, fun t h => ?enable, fun t h => ?clear, fun t h => ?disable⟩
  case enable => exact (irqLine_of_write_ctrl (by decide) h).trans (Bool.true_and _)
  case clear =>
    rw [bus_unique h (bus_write_irq s 0xF)]
    simp [State.irqLine, writeIrq]
  case disable => exact (irqLine_of_write_ctrl (by decide) h).trans (Bool.false_and _)

/-! ## Data RAM accesses while busy -/

theorem busRead_ram_busy {s : State} {off a : Nat} {w : Width} (hbusy : s.pending ≠ none)
    (h : busTarget s.cfg off w = .ram a) : busRead s off w = (s.ramLocked, .data 0) := by
  simp [busRead, h, State.busy_eq_true hbusy]

theorem busWrite_ram_busy {s : State} {off a : Nat} {w : Width} (hbusy : s.pending ≠ none)
    (h : busTarget s.cfg off w = .ram a) (v : Word) : busWrite s off w v = (s.ramLocked, .ok) := by
  simp [busWrite, h, State.busy_eq_true hbusy]

/-- Settles O59: the access goes to the Data RAM, which is locked while the latch is full. -/
theorem dataRamLockedWhileBusy : Obligations.DataRamLockedWhileBusy := by
  intro s a w v hbusy hlegal
  have htarget := busTarget_ram hlegal
  constructor
  · simpa only [busRead_ram_busy hbusy htarget, State.ramLocked] using bus_read s (0x4000 + a) w
  · simpa only [busWrite_ram_busy hbusy htarget v, State.ramLocked] using bus_write s (0x4000 + a) w v

end Sys2Proof.Machine
end


section
/-! How a command fails (spec/60_exceptions.md R131): the code is not OK, and nothing changes but the completion registers
and R131's survivors. -/

namespace Sys2Proof.Machine
open Sys2Proof.Spec

/-! ## A check that fails does not name OK

The operand checks one by one, then the rules made of them. -/

theorem present_eq_error {v : Option Nat} {code code' : Code} :
    present v code = .error code' ↔ v = none ∧ code = code' := by
  cases v <;> simp

@[simp] theorem readInt_ne_error_ok (s : State) (addr len : Nat) : readInt s addr len ≠ .error .ok := by
  simp [readInt, except_bind_eq_error, require_eq_error]

@[simp] theorem regions_ne_error_ok (s : State) (x : Args) : regions s x ≠ .error .ok := by
  simp [regions, except_bind_eq_error, require_eq_error]

@[simp] theorem padChecks_ne_error_ok (s : State) (x : Args) : padChecks s x ≠ .error .ok := by
  simp [padChecks, except_bind_eq_error, require_eq_error]

@[simp] theorem publicKey_ne_error_ok (s : State) : publicKey s ≠ .error .ok := by
  simp [publicKey, except_bind_eq_error, present_eq_error]

@[simp] theorem privateKey_ne_error_ok (s : State) : privateKey s ≠ .error .ok := by
  cases h : s.rsa.privatePart <;> simp [privateKey, except_bind_eq_error, present_eq_error, h]

@[simp] theorem publicOp_ne_error_ok (n e m : Nat) : publicOp n e m ≠ .error .ok := by
  simp [publicOp, except_bind_eq_error, require_eq_error]

@[simp] theorem privateOp_ne_error_ok (n : Nat) (part : PrivatePart) (c : Nat) : privateOp n part c ≠ .error .ok := by
  cases part <;> simp [privateOp, except_bind_eq_error, require_eq_error]

@[simp] theorem unpadInto_ne_error_ok (x : Args) (block : List Byte) : unpadInto x block ≠ .error .ok := by
  by_cases h : ∃ data, Padded block data
  · obtain ⟨data, hdata⟩ := h
    simp [unpadInto_of_padded hdata, except_bind_eq_error, require_eq_error]
  · simp [unpadInto_of_not_padded h]

@[simp] theorem needField_ne_error_ok (g : Group) : needField g ≠ .error .ok := by
  simp [needField, except_bind_eq_error, require_eq_error, present_eq_error]

@[simp] theorem needCurve_ne_error_ok (g : Group) : needCurve g ≠ .error .ok := by
  simp [needCurve, except_bind_eq_error, present_eq_error]

@[simp] theorem rsaPublicOut_ne_error_ok (s : State) (x : Args) : rsaPublicOut s x ≠ .error .ok := by
  simp [rsaPublicOut, except_bind_eq_error, require_eq_error]

@[simp] theorem rsaPrivateOut_ne_error_ok (s : State) (x : Args) : rsaPrivateOut s x ≠ .error .ok := by
  simp [rsaPrivateOut, except_bind_eq_error, require_eq_error]

/-- A list of checks, none of which has the code OK. -/
theorem runChecks_bind_ne_error_ok {α : Type} {checks : List (Bool × Code)} (h : Code.ok ∉ checks.map Prod.snd) (a : α) :
    (runChecks checks >>= fun _ => .ok a) ≠ .error .ok := by
  rw [ne_eq, except_bind_eq_error]
  rintro (hc | ⟨_, -, ha⟩)
  · exact h (mem_of_runChecks_error hc)
  · cases ha

theorem checkKey_ne_error_ok (k : RsaKey) : checkKey k ≠ .error .ok := by
  rw [checkKey_eq]
  refine runChecks_bind_ne_error_ok ?_ _
  unfold privateChecks
  split_ifs <;> simp [basicChecks, factorChecks, fullChecks]

theorem cipherUpdateChecks_ne_error_ok (ctx : Nat) (s : State) (x : Args) : cipherUpdateChecks ctx s x ≠ .error .ok := by
  simp [cipherUpdateChecks, except_bind_eq_error, require_eq_error]

theorem cipherFinalOut_ne_error_ok (s : State) (c : Slot) (x : Args) : cipherFinalOut s c x ≠ .error .ok := by
  rw [cipherFinalOut_eq]
  exact runChecks_bind_ne_error_ok (by simp [finalChecks, outputChecks]) _

/-! ## A rule that fails -/

/-- If the rule fails, its code is not OK and the state it leaves is `t`. -/
def CmdResult.FailsLeaving (t : State) : CmdResult → Prop
  | .ok _ _ _ _ => True
  | .raise code u => code ≠ .ok ∧ u = t

theorem ne_ok_of_error {α : Type} {r : Except Code α} {code : Code} (h : r ≠ .error .ok) (he : r = .error code) :
    code ≠ .ok :=
  fun hcode => h (hcode ▸ he)

theorem raise_failsLeaving {code : Code} (h : code ≠ .ok) (t : State) : (CmdResult.raise code t).FailsLeaving t := ⟨h, rfl⟩

theorem emit_failsLeaving {s : State} {x : Args} {r : Except Code (List Byte)} (h : r ≠ .error .ok) :
    (emit s x r).FailsLeaving s := by
  cases r with
  | ok out => trivial
  | error code => exact ⟨ne_ok_of_error h rfl, rfl⟩

theorem emitDrawn_failsLeaving {s : State} {x : Args} {r : Except Code (List Byte × Entropy)} (h : r ≠ .error .ok) :
    (emitDrawn s x r).FailsLeaving s := by
  cases r with
  | ok out => trivial
  | error code => exact ⟨ne_ok_of_error h rfl, rfl⟩

theorem update_failsLeaving {s : State} {r : Except Code State} (h : r ≠ .error .ok) : (update s r).FailsLeaving s := by
  cases r with
  | ok t => trivial
  | error code => exact ⟨ne_ok_of_error h rfl, rfl⟩

theorem report_failsLeaving {s : State} {r : Except Code Word} (h : r ≠ .error .ok) : (report s r).FailsLeaving s := by
  cases r with
  | ok res => trivial
  | error code => exact ⟨ne_ok_of_error h rfl, rfl⟩

/-- The combined operations fail as the bare transform or as the padded one, or with UnsupportedPadding
(spec/41_rsa.md R106). -/
theorem combined_failsLeaving {s : State} {x : Args} (pad : Nat) {bare : Except Code (List Byte)} {padded : CmdResult}
    (hbare : bare ≠ .error .ok) (hpadded : padded.FailsLeaving s) :
    (if 2 ≤ pad then .raise .unsupportedPadding s else if pad = 0 then emit s x bare else padded :
      CmdResult).FailsLeaving s := by
  split
  · exact raise_failsLeaving (by decide) s
  · split
    · exact emit_failsLeaving hbare
    · exact hpadded

/-! ## The commands whose failure leaves something (spec/60_exceptions.md R131 (b), (c)) -/

/-- `survivors` by the command. -/
def survivorsOf (i : Instr) (s : State) : State :=
  match i with
  | .cipherInit c => if c < s.cfg.nctx then { s with backend := selected s, slots := s.slots.set c Slot.cleared } else s
  | .cipherFinal c => if c < s.cfg.nctx ∧ (s.slot c).valid then s.setSlot c { s.slot c with ended := true } else s
  | _ => s

theorem survivors_of_decode {w : Word} {i : Instr} (h : decode w = .ok i) (s : State) : survivors s w = survivorsOf i s := by
  simp only [survivors, h]
  cases i <;> rfl

theorem survivors_of_decode_error {w : Word} {e : Illegal} (h : decode w = .error e) (s : State) : survivors s w = s := by
  simp [survivors, h]

theorem cipherInitRule_failsLeaving (ctx : Nat) (s : State) (x : Args) :
    (cipherInitRule ctx s x).FailsLeaving (survivorsOf (.cipherInit ctx) s) := by
  rw [survivorsOf]
  split
  · rename_i hctx
    rw [cipherInitRule_of_lt hctx]
    cases h : cipherInitSlot s x with
    | ok c => trivial
    | error code => exact ⟨cipherInitSlot_error_ne_ok h, by rw [State.latchBackend_eq]; rfl⟩
  · rename_i hctx
    rw [cipherInitRule_of_ge (by omega)]
    exact raise_failsLeaving (by decide) s

theorem cipherUpdateRule_failsLeaving (ctx : Nat) (s : State) (x : Args) : (cipherUpdateRule ctx s x).FailsLeaving s := by
  unfold cipherUpdateRule
  split
  · rename_i code h
    exact ⟨ne_ok_of_error (cipherUpdateChecks_ne_error_ok ctx s x) h, rfl⟩
  · trivial

theorem cipherFinalRule_failsLeaving (ctx : Nat) (s : State) (x : Args) :
    (cipherFinalRule ctx s x).FailsLeaving (survivorsOf (.cipherFinal ctx) s) := by
  rw [survivorsOf]
  split
  · rename_i hfound
    obtain ⟨hctx, hvalid⟩ := hfound
    cases hended : (s.slot ctx).ended with
    | true =>
      rw [cipherFinalRule_of_ended hctx hvalid hended]
      trivial
    | false =>
      rw [cipherFinalRule_of_active hctx hvalid hended]
      split
      · rename_i code h
        exact ⟨ne_ok_of_error (cipherFinalOut_ne_error_ok s (s.slot ctx) x) h, rfl⟩
      · trivial
  · rename_i hnot
    rw [cipherFinalRule_of_not_found hnot]
    exact raise_failsLeaving (by decide) s

/-! ## Every command -/

theorem ruleOf_failsLeaving (i : Instr) (s : State) (x : Args) : (ruleOf i s x).FailsLeaving (survivorsOf i s) := by
  cases i with
  | cipherInit ctx => exact cipherInitRule_failsLeaving ctx s x
  | cipherUpdate ctx => exact cipherUpdateRule_failsLeaving ctx s x
  | cipherFinal ctx => exact cipherFinalRule_failsLeaving ctx s x
  | cipherRelease ctx => exact update_failsLeaving (by simp [except_bind_eq_error, require_eq_error])
  | cipherReadiv ctx => exact emit_failsLeaving (by simp [except_bind_eq_error, require_eq_error])
  | rsaLoadcomp => exact update_failsLeaving (by simp [except_bind_eq_error, require_eq_error])
  | rsaClearkey => trivial
  | rsaPublic => exact emit_failsLeaving (rsaPublicOut_ne_error_ok s x)
  | rsaPrivate => exact emit_failsLeaving (rsaPrivateOut_ne_error_ok s x)
  | rsaPad1 => exact emit_failsLeaving (by simp [except_bind_eq_error])
  | rsaPad2 => exact emitDrawn_failsLeaving (by simp [except_bind_eq_error])
  | rsaUnpad => exact emit_failsLeaving (by simp [except_bind_eq_error])
  | rsaPubenc pad =>
    exact combined_failsLeaving pad (rsaPublicOut_ne_error_ok s x)
      (emitDrawn_failsLeaving (by simp [except_bind_eq_error, require_eq_error]))
  | rsaPrivdec pad =>
    exact combined_failsLeaving pad (rsaPrivateOut_ne_error_ok s x) (emit_failsLeaving (by simp [except_bind_eq_error]))
  | rsaPrivenc pad =>
    exact combined_failsLeaving pad (rsaPrivateOut_ne_error_ok s x)
      (emit_failsLeaving (by simp [except_bind_eq_error, require_eq_error]))
  | rsaPubdec pad =>
    exact combined_failsLeaving pad (rsaPublicOut_ne_error_ok s x) (emit_failsLeaving (by simp [except_bind_eq_error]))
  | rsaCheckkey => exact report_failsLeaving (checkKey_ne_error_ok s.rsa)
  | ecLoadcomp => exact update_failsLeaving (by simp [except_bind_eq_error, require_eq_error])
  | ecSetcurve => exact update_failsLeaving (by split <;> simp)
  | ecSetform form => exact update_failsLeaving (by simp [except_bind_eq_error, require_eq_error])
  | ecCleargroup => trivial
  | ecCheckgroup => exact report_failsLeaving (by simp [except_bind_eq_error, present_eq_error])
  | ecPtSetxy => exact update_failsLeaving (by simp [except_bind_eq_error, require_eq_error])
  | ecPtSetinf => exact update_failsLeaving (by simp [except_bind_eq_error])
  | ecPtCheck => exact report_failsLeaving (by simp [except_bind_eq_error, require_eq_error])
  | ecPtEncode => exact emit_failsLeaving (by simp [except_bind_eq_error, require_eq_error])
  | ecPtDecode =>
    refine update_failsLeaving fun h => ?_
    simp only [except_bind_eq_error, require_eq_error, reduceCtorEq, and_false, needCurve_ne_error_ok, false_or] at h
    obtain ⟨_, -, e, -, h⟩ := h
    split at h <;> cases h

/-- The rule of any command word, when it fails, leaves R131's survivors. -/
theorem wordRule_failsLeaving (w : Word) (s : State) (x : Args) : (wordRule w s x).FailsLeaving (survivors s w) := by
  cases h : decode w with
  | ok i =>
    rw [wordRule_ok h, survivors_of_decode h]
    exact ruleOf_failsLeaving i s x
  | error e =>
    rw [wordRule_error h, survivors_of_decode_error h]
    exact raise_failsLeaving (by decide) s

theorem complete_of_failsLeaving {r : CmdResult} {t : State} (h : r.FailsLeaving t) (p : Pending) (hcode : r.code ≠ .ok) :
    complete p r = failed t p r.code := by
  cases r with
  | ok u dst out res => exact absurd rfl hcode
  | raise code u =>
    obtain ⟨-, rfl⟩ := h
    rfl

/-- The engine's turn while a command is pending completes the rule of its word. -/
theorem turn_pending {s t : State} {p : Pending} (hp : s.pending = some p) :
    Turn s t ↔ t = complete p (wordRule p.word s p.args) := by
  rw [turn_iff, engineStep_pending hp, Host.Outcome.next.injEq, eq_comm]

/-- Settles O10: the turn completes the word's rule, which fails leaving the survivors. -/
theorem failedCommandLeavesState : Obligations.FailedCommandLeavesState := by
  intro s t p hp hturn hcode
  obtain rfl := (turn_pending hp).mp hturn
  rw [complete_lastCode] at hcode ⊢
  exact complete_of_failsLeaving (wordRule_failsLeaving p.word s p.args) p hcode

end Sys2Proof.Machine
end

section
/-! What every command leaves behind (spec/60_exceptions.md R130), and that every state has a next one (R128). -/

namespace Sys2Proof.Machine
open Sys2Proof.Spec

/-! ## What no command changes -/

/-- The parts of the state that no command changes, but for completion's flags: the ARG registers, IRQ_EN and the pending
bits (spec/10_state.md R20, R28), and the model's own configuration, events and reply. -/
structure HostSide (s t : State) : Prop where
  args   : t.args = s.args
  irqEn  : t.irqEn = s.irqEn
  irq    : t.irq = s.irq
  cfg    : t.cfg = s.cfg
  inputs : t.inputs = s.inputs
  reply  : t.reply = s.reply

theorem HostSide.refl (s : State) : HostSide s s := ⟨rfl, rfl, rfl, rfl, rfl, rfl⟩

theorem HostSide.setSlot (s : State) (ctx : Nat) (c : Slot) : HostSide s (s.setSlot ctx c) := ⟨rfl, rfl, rfl, rfl, rfl, rfl⟩

theorem HostSide.latchBackend_setSlot (s : State) (ctx : Nat) (c : Slot) :
    HostSide s (s.latchBackend.setSlot ctx c) := by
  rw [State.latchBackend_eq]
  exact ⟨rfl, rfl, rfl, rfl, rfl, rfl⟩

/-- A command is the cipher engine's, the RSA datapath's or the EC unit's (spec/30_encoding.md R66). -/
theorem command_unit (i : Instr) : (∃ ctx, i ∈ cipherCommands ctx) ∨ IsRsa i ∨ 0x20 ≤ i.opcode.toNat := by
  cases i <;> simp [cipherCommands, IsRsa, Instr.opcode]

theorem cipherRule_hostSide {ctx : Nat} {i : Instr} (hi : i ∈ cipherCommands ctx) (s : State) (x : Args) :
    HostSide s (ruleOf i s x).state := by
  have hsame := HostSide.refl s
  simp only [cipherCommands, List.mem_cons, List.not_mem_nil, or_false] at hi
  rcases hi with rfl | rfl | rfl | rfl | rfl
  · rcases cipherInitRule_state ctx s x with ⟨-, h⟩ | ⟨-, c, h⟩
    · exact h.symm ▸ hsame
    · exact h.symm ▸ HostSide.latchBackend_setSlot s ctx c
  · exact (cipherUpdateRule_leaves ctx s x).elim hsame fun _ ⟨c, h⟩ => h ▸ .setSlot s ctx c
  · exact (cipherFinalRule_leaves ctx s x).elim hsame fun _ ⟨c, h⟩ => h ▸ .setSlot s ctx c
  · exact (cipherReleaseRule_leaves ctx s x).elim hsame fun _ h => h ▸ .setSlot s ctx _
  · exact (emit_state s x _).symm ▸ hsame

theorem wordRule_hostSide (w : Word) (s : State) (x : Args) : HostSide s (wordRule w s x).state := by
  cases h : decode w with
  | error e =>
    rw [wordRule_error h]
    exact .refl s
  | ok i =>
    rw [wordRule_ok h]
    rcases command_unit i with ⟨ctx, hi⟩ | hi | hi
    · exact cipherRule_hostSide hi s x
    · obtain ⟨k, e, ht, -⟩ := rsaRule_frame hi s x
      rw [ht]
      exact ⟨rfl, rfl, rfl, rfl, rfl, rfl⟩
    · obtain ⟨g, pt, ht, -⟩ := ecRule_frame hi s x
      rw [ht]
      exact ⟨rfl, rfl, rfl, rfl, rfl, rfl⟩

/-! ## Completion -/

@[simp] theorem complete_args (p : Pending) (r : CmdResult) : (complete p r).args = r.state.args := by cases r <;> rfl
@[simp] theorem complete_irqEn (p : Pending) (r : CmdResult) : (complete p r).irqEn = r.state.irqEn := by cases r <;> rfl
@[simp] theorem complete_inputs (p : Pending) (r : CmdResult) : (complete p r).inputs = r.state.inputs := by
  cases r <;> rfl
@[simp] theorem complete_reply (p : Pending) (r : CmdResult) : (complete p r).reply = r.state.reply := by cases r <;> rfl
@[simp] theorem complete_overrun (p : Pending) (r : CmdResult) : (complete p r).irq.overrun = r.state.irq.overrun := by
  cases r <;> rfl
@[simp] theorem complete_ramlock (p : Pending) (r : CmdResult) : (complete p r).irq.ramlock = r.state.irq.ramlock := by
  cases r <;> rfl

/-- ERR is set by a code other than OK (spec/60_exceptions.md R130). -/
theorem complete_err {r : CmdResult} {t : State} (h : r.FailsLeaving t) (p : Pending) :
    (complete p r).irq.err = (r.state.irq.err || r.code != .ok) := by
  cases r with
  | ok u dst out res => simp
  | raise code u =>
    obtain ⟨hcode, -⟩ := h
    simp [hcode]

/-- A failing command reports no bytes and no RESULT (spec/10_state.md R30, R31). -/
theorem complete_reports_nothing {r : CmdResult} (h : r.code ≠ .ok) (p : Pending) :
    (complete p r).bytesWritten = 0 ∧ (complete p r).result = 0 := by
  cases r with
  | ok u dst out res => exact absurd rfl h
  | raise code u => exact ⟨rfl, rfl⟩

/-- Settles O7: the turn completes the word's rule, which leaves the host's side of the state alone. -/
theorem everyCommandCompletes : Obligations.EveryCommandCompletes := by
  intro s p hp
  obtain ⟨hargs, hirqEn, hirq, hcfg, hinputs, hreply⟩ := wordRule_hostSide p.word s p.args
  obtain ⟨hpending, hlastOp, hdone⟩ := complete_common p (wordRule p.word s p.args)
  refine ⟨_, (turn_pending hp).mpr rfl, hpending, hlastOp, hdone, ?err, ?fails, ?overrun, ?ramlock, ?args, ?irqEn, ?cfg,
    ?inputs, ?reply⟩
  case err => rw [complete_err (wordRule_failsLeaving p.word s p.args), complete_lastCode, hirq]
  case fails =>
    intro hcode
    exact complete_reports_nothing (by simpa using hcode) p
  case overrun => rw [complete_overrun, hirq]
  case ramlock => rw [complete_ramlock, hirq]
  case args => rw [complete_args, hargs]
  case irqEn => rw [complete_irqEn, hirqEn]
  case cfg => rw [complete_cfg, hcfg]
  case inputs => rw [complete_inputs, hinputs]
  case reply => rw [complete_reply, hreply]

/-! ## Every state has a next one -/

theorem engineStep_answers (s : State) : ∃ t, engineStep s = .next t ∧ t.inputs = s.inputs ∧ t.cfg = s.cfg := by
  cases hp : s.pending with
  | none => exact ⟨s, engineStep_idle hp, rfl, rfl⟩
  | some p =>
    have hside := wordRule_hostSide p.word s p.args
    exact ⟨_, engineStep_pending hp, (complete_inputs p _).trans hside.inputs, (complete_cfg p _).trans hside.cfg⟩

theorem HostEffect.inputs_cfg {s t : State} (h : HostEffect s t) : t.inputs = s.inputs ∧ t.cfg = s.cfg := by
  cases h <;> exact ⟨rfl, rfl⟩

theorem busStep_inputs_cfg (s : State) (op : BusOp) : (busStep s op).inputs = s.inputs ∧ (busStep s op).cfg = s.cfg := by
  obtain ⟨t, r, heffect, h⟩ := busStep_effect s op
  rw [h]
  exact heffect.inputs_cfg

/-- Settles O6: each event, and the engine's turn without one, has its next state; an idle engine's turn changes nothing. -/
theorem stepAlwaysAnswersNext : Obligations.StepAlwaysAnswersNext := by
  refine ⟨fun s => ?_, fun s hidle => turn_iff.mpr (engineStep_idle hidle)⟩
  rcases hi : s.inputs with _ | ⟨op | _ | bytes, rest⟩
  · obtain ⟨t, ht, hinputs, hcfg⟩ := engineStep_answers s
    exact ⟨t, (step_of_no_inputs hi).trans ht, hinputs.trans hi, hcfg⟩
  · exact ⟨_, step_of_bus hi, busStep_inputs_cfg _ op⟩
  · obtain ⟨t, ht, hinputs, hcfg⟩ := engineStep_answers { s with inputs := rest }
    exact ⟨t, (step_of_engine hi).trans ht, hinputs, hcfg⟩
  · exact ⟨_, step_of_powerOn hi, rfl, rfl⟩

end Sys2Proof.Machine
end

section
/-! Power-on reset (spec/70_reset_and_hazards.md R150): the soft reset's values, with BACKEND cleared and the Data RAM
filled by the event. -/

namespace Sys2Proof.Machine
open Sys2Proof.Spec

/-- Power-on adds to the soft reset only what the table of R43 does not share: BACKEND and the Data RAM. -/
theorem State.powerOn_isReset (s : State) (bytes : List Byte) : IsReset (s.powerOn bytes) := s.softReset_isReset

/-- A machine that was just reset is left as it is by a soft reset. -/
theorem State.softReset_resetWith (cfg : Config) (ram : Memory) :
    (State.resetWith cfg ram).softReset = State.resetWith cfg ram := rfl

theorem State.resetWith_isReset (cfg : Config) (ram : Memory) : IsReset (State.resetWith cfg ram) := by
  rw [← State.softReset_resetWith]
  exact State.softReset_isReset _

/-- The event's bytes, when they fill the Data RAM, are what it holds after power-on. -/
theorem State.read_powerOn_ram {s : State} {bytes : List Byte} (hlen : bytes.length = s.cfg.dramSize) {a : Nat}
    (ha : a < bytes.length) : (s.powerOn bytes).ram.read a = bytes[a] := by
  rw [State.powerOn_ram, List.take_of_length_le hlen.le]
  simpa using Memory.read_writeBytes_same (Memory.empty_wf s.cfg.dramSize) (a := 0) bytes (by omega) a ha

/-- Settles O55: power-on is a soft reset that also clears BACKEND and fills the Data RAM; `State.reset` is a fixed point
of the soft reset. -/
theorem powerOnReset : Obligations.PowerOnReset := by
  refine ⟨fun s bytes => ⟨s.powerOn bytes, step_of_powerOn rfl, s.powerOn_isReset bytes, s.powerOn_backend bytes,
    s.powerOn_cfg bytes, fun hlen _ ha => State.read_powerOn_ram hlen ha⟩, ?_, rfl⟩
  exact State.resetWith_isReset Config.default ⟨[]⟩

end Sys2Proof.Machine
end
